-- ==== Sys2Proof/Word.lean ====
section
/-! DEFINITION. The word types of NTT CORE.

The value of a W-bit register or slot has no type of its own: W is a parameter (R9) and the rules compute with mathematical
integers (R19), so it is a natural number; that it stays below `2^W` is the invariant of Safety.lean (assumption 2). -/

namespace Sys2Proof

/-- A command word, and the width of ERR and EINFO (R70, R29, R30). -/
abbrev CmdWord := BitVec 32

/-- One byte of an external layout of a command word (R53). -/
abbrev Byte := BitVec 8

end Sys2Proof
end

