-- ==== Sys2Proof/Config.lean ====
section
/-! DEFINITION. What an instance of NTT CORE fixes (00_scope.md section 3), the reference instance CFG16, and the
free values ANY_W and ANY_ELEM. -/

namespace Sys2Proof.Config

/-- The structural parameters of an instance: `w` is the representation width W (R9), `seqMax` the capacity of each
sequence bank in elements (R16). -/
structure Params where
  w : Nat
  seqMax : Nat
deriving DecidableEq, Repr

/-- The prime parameters `PP = (N, K, P, G, BASE)` (R13, R27). -/
structure PrimeParams where
  n : Nat
  k : Nat
  p : Nat
  g : Nat
  base : Nat
deriving DecidableEq, Repr

/-- What a legal instance meets (R9, R13, R16): the constraints on W, SEQMAX and the tuple PP. R13 sets no lower bound on N, and its
condition on `G^(2^(N-1))` has no integer exponent for `N = 0`: `pp.n - 1` is then 0 here, so that `g_pow` and `g_half` contradict each
other. That an instance with `N = 0`, and with it one with `P = 2`, is not legal is the model's choice (DESIGN CHOICE,
assumption 21). -/
structure Legal (c : Params) (pp : PrimeParams) : Prop where
  width : 16 ≤ c.w
  seqMax_pos : 1 ≤ c.seqMax
  seqMax_le : c.seqMax ≤ 2 ^ (c.w - 1)
  prime : pp.p.Prime
  cofactor : pp.p = pp.k * 2 ^ pp.n + 1
  fits : pp.p < 2 ^ c.w
  g_pos : 0 < pp.g
  g_lt : pp.g < pp.p
  g_pow : pp.g ^ (2 ^ pp.n) % pp.p = 1
  g_half : pp.g ^ (2 ^ (pp.n - 1)) % pp.p ≠ 1
  base_fits : pp.base < 2 ^ c.w

/-- The structural parameters of the reference configuration CFG16 (R15). -/
def cfg16 : Params := ⟨16, 8192⟩

/-- The prime parameters of the reference configuration CFG16 (R15). -/
def pp16 : PrimeParams := ⟨13, 5, 40961, 12, 100⟩

/-- ANY_W (R19, U1): a value no rule determines, fresh for every draw number. Nothing constrains it; the step that
draws it reduces it into `[0, 2^W)`, the one bound the spec sets (assumption 3). -/
opaque anyW : Nat → Nat

/-- ANY_ELEM (R19, U2, U3): a value no rule determines, fresh for every draw number. The step that draws it reduces
it into `[0, MOD)`, the one bound the spec sets (assumption 3). -/
opaque anyElem : Nat → Nat

end Sys2Proof.Config
end

