-- ==== Sys2Proof/Syntax.lean ====
section
/-! DEFINITION. The commands of NTT CORE: one constructor per row of spec/opcode_table.json (30_encoding.md R75). -/

namespace Sys2Proof

/-- A register number `0..7`, of the integer file or of the element file according to the command (R71, R74). -/
abbrev RegNo := Fin 8

/-- The bank operand `b0` or `b1` (R74). -/
inductive BankSel where
  | b0
  | b1
deriving DecidableEq, Repr

/-- A command with its field values. `rX` in a comment means that the field indexes `r[]`, `eX` that it indexes
`e[]` (R75). An immediate is the unsigned integer of R73; WellFormed says that it has 16 bits. -/
inductive Instr where
  | ldi (d : RegNo) (imm : Nat)                   -- LDI rd, imm16
  | ldis (d : RegNo) (imm : Nat)                  -- LDIS rd, imm16
  | setmod (a : RegNo)                            -- SETMOD ra
  | getmod (d : RegNo)                            -- GETMOD rd
  | rdpp (d : RegNo) (sel : Nat)                  -- RDPP rd, sel
  | root (d a : RegNo)                            -- ROOT ed, ra
  | clrerr                                        -- CLRERR
  | fromint (d a : RegNo)                         -- FROMINT ed, ra
  | toint (d a : RegNo)                           -- TOINT rd, ea
  | add (d a b : RegNo)                           -- ADD ed, ea, eb
  | sub (d a b : RegNo)                           -- SUB ed, ea, eb
  | neg (d a : RegNo)                             -- NEG ed, ea
  | mul (d a b : RegNo)                           -- MUL ed, ea, eb
  | div (c : Bool) (d a b : RegNo)                -- DIV[.C] ed, ea, eb
  | inv (d a : RegNo)                             -- INV ed, ea
  | invC (d a : RegNo)                            -- INV.C ed, ea
  | pow (d a b : RegNo)                           -- POW ed, ea, rb
  | eq (d a b : RegNo)                            -- EQ rd, ea, eb
  | ne (d a b : RegNo)                            -- NE rd, ea, eb
  | bitrev (d a b : RegNo)                        -- BITREV rd, ra, rb
  | ceillg (d a : RegNo)                          -- CEILLG rd, ra
  | is2pow (d a : RegNo)                          -- IS2POW rd, ra
  | seqnew (bk : BankSel) (a : RegNo)             -- SEQNEW bk, ra
  | seqlen (bk : BankSel) (d : RegNo)             -- SEQLEN rd, bk
  | seqld (bk : BankSel) (d a : RegNo)            -- SEQLD ed, bk, ra
  | seqst (bk : BankSel) (a b : RegNo)            -- SEQST bk, ea, rb
  | bfly (d a b : RegNo)                          -- BFLY ed, ea, eb
  | permute (bk : BankSel)                        -- PERMUTE bk
  | check (bk : BankSel) (a : RegNo)              -- CHECK bk, ea
  | ntta (v : Bool) (bk : BankSel) (a : RegNo)    -- NTTA[.V] bk, ea
  | nttb (v : Bool) (bk : BankSel) (a : RegNo)    -- NTTB[.V] bk, ea
  | intta (v : Bool) (bk : BankSel) (a : RegNo)   -- INTTA[.V] bk, ea
  | inttb (v : Bool) (bk : BankSel) (a : RegNo)   -- INTTB[.V] bk, ea
deriving DecidableEq, Repr

end Sys2Proof
end

