-- ==== Sys2Proof/WellFormed.lean ====
section
/-! DEFINITION. Which commands an encoding exists for. Register numbers and banks are bounded by their types; what
is left to check is that an immediate is one of `0..65535` (R73, R81). -/

namespace Sys2Proof

/-- The immediate fits the field `cw[15:0]` (R72, R73). -/
def immFits (imm : Nat) : Bool := decide (imm < 65536)

/-- The command has an encoding. -/
def Instr.wellFormed : Instr → Bool
  | .ldi _ imm => immFits imm
  | .ldis _ imm => immFits imm
  | .rdpp _ sel => immFits sel
  | .setmod _ => true
  | .getmod _ => true
  | .root _ _ => true
  | .clrerr => true
  | .fromint _ _ => true
  | .toint _ _ => true
  | .add _ _ _ => true
  | .sub _ _ _ => true
  | .neg _ _ => true
  | .mul _ _ _ => true
  | .div _ _ _ _ => true
  | .inv _ _ => true
  | .invC _ _ => true
  | .pow _ _ _ => true
  | .eq _ _ _ => true
  | .ne _ _ _ => true
  | .bitrev _ _ _ => true
  | .ceillg _ _ => true
  | .is2pow _ _ => true
  | .seqnew _ _ => true
  | .seqlen _ _ => true
  | .seqld _ _ _ => true
  | .seqst _ _ _ => true
  | .bfly _ _ _ => true
  | .permute _ => true
  | .check _ _ => true
  | .ntta _ _ _ => true
  | .nttb _ _ _ => true
  | .intta _ _ _ => true
  | .inttb _ _ _ => true

end Sys2Proof
end

