-- ==== Sys2Proof/Decode.lean ====
section
/-! DEFINITION. The decoder of 30_encoding.md, written as the opcode map of R75, and after it the encoder of R77. -/

namespace Sys2Proof

/-! ## Fields of a command word (R71, R72) -/

/-- `cw[23:21]`. -/
def fieldD (cw : CmdWord) : RegNo := (cw.extractLsb' 21 3).toFin

/-- `cw[20:18]`. -/
def fieldA (cw : CmdWord) : RegNo := (cw.extractLsb' 18 3).toFin

/-- `cw[17:15]`. -/
def fieldB (cw : CmdWord) : RegNo := (cw.extractLsb' 15 3).toFin

/-- `cw[25]`, the flag C or V. -/
def fieldF (cw : CmdWord) : Bool := cw.getLsbD 25

/-- `cw[24]`, the bank select. -/
def fieldBk (cw : CmdWord) : BankSel := if cw.getLsbD 24 then .b1 else .b0

/-- `imm16 = cw[15:0]`, taken as an unsigned integer (R73). -/
def fieldImm (cw : CmdWord) : Nat := (cw.extractLsb' 0 16).toNat

/-! ## The opcode map (R75) -/

/-- One row of the opcode map: a word is this command if and only if `cw AND mask = pattern`; `build` reads the
row's fields. -/
structure OpRow where
  mnemonic : String
  mask : CmdWord
  pattern : CmdWord
  build : CmdWord → Instr

/-- Rows with `op[5:4] = 00`: configuration and moves. -/
def configRows : List OpRow :=
  [⟨"LDI", 0xFF1F0000, 0x04000000, fun cw => .ldi (fieldD cw) (fieldImm cw)⟩,
   ⟨"LDIS", 0xFF1F0000, 0x08000000, fun cw => .ldis (fieldD cw) (fieldImm cw)⟩,
   ⟨"SETMOD", 0xFFE3FFFF, 0x0C000000, fun cw => .setmod (fieldA cw)⟩,
   ⟨"GETMOD", 0xFF1FFFFF, 0x10000000, fun cw => .getmod (fieldD cw)⟩,
   ⟨"RDPP", 0xFF1F0000, 0x14000000, fun cw => .rdpp (fieldD cw) (fieldImm cw)⟩,
   ⟨"ROOT", 0xFF03FFFF, 0x18000000, fun cw => .root (fieldD cw) (fieldA cw)⟩,
   ⟨"CLRERR", 0xFFFFFFFF, 0x1C000000, fun _ => .clrerr⟩]

/-- Rows with `op[5:4] = 01`: field arithmetic. INV and INV.C are the two values of the flag of opcode 0x17. -/
def fieldRows : List OpRow :=
  [⟨"FROMINT", 0xFF03FFFF, 0x40000000, fun cw => .fromint (fieldD cw) (fieldA cw)⟩,
   ⟨"TOINT", 0xFF03FFFF, 0x44000000, fun cw => .toint (fieldD cw) (fieldA cw)⟩,
   ⟨"ADD", 0xFF007FFF, 0x48000000, fun cw => .add (fieldD cw) (fieldA cw) (fieldB cw)⟩,
   ⟨"SUB", 0xFF007FFF, 0x4C000000, fun cw => .sub (fieldD cw) (fieldA cw) (fieldB cw)⟩,
   ⟨"NEG", 0xFF03FFFF, 0x50000000, fun cw => .neg (fieldD cw) (fieldA cw)⟩,
   ⟨"MUL", 0xFF007FFF, 0x54000000, fun cw => .mul (fieldD cw) (fieldA cw) (fieldB cw)⟩,
   ⟨"DIV", 0xFD007FFF, 0x58000000, fun cw => .div (fieldF cw) (fieldD cw) (fieldA cw) (fieldB cw)⟩,
   ⟨"INV", 0xFF03FFFF, 0x5C000000, fun cw => .inv (fieldD cw) (fieldA cw)⟩,
   ⟨"INV.C", 0xFF03FFFF, 0x5E000000, fun cw => .invC (fieldD cw) (fieldA cw)⟩,
   ⟨"POW", 0xFF007FFF, 0x60000000, fun cw => .pow (fieldD cw) (fieldA cw) (fieldB cw)⟩,
   ⟨"EQ", 0xFF007FFF, 0x64000000, fun cw => .eq (fieldD cw) (fieldA cw) (fieldB cw)⟩,
   ⟨"NE", 0xFF007FFF, 0x68000000, fun cw => .ne (fieldD cw) (fieldA cw) (fieldB cw)⟩]

/-- Rows with `op[5:4] = 10`: numeric utilities and sequence access. -/
def utilityRows : List OpRow :=
  [⟨"BITREV", 0xFF007FFF, 0x80000000, fun cw => .bitrev (fieldD cw) (fieldA cw) (fieldB cw)⟩,
   ⟨"CEILLG", 0xFF03FFFF, 0x84000000, fun cw => .ceillg (fieldD cw) (fieldA cw)⟩,
   ⟨"IS2POW", 0xFF03FFFF, 0x88000000, fun cw => .is2pow (fieldD cw) (fieldA cw)⟩,
   ⟨"SEQNEW", 0xFEE3FFFF, 0xA0000000, fun cw => .seqnew (fieldBk cw) (fieldA cw)⟩,
   ⟨"SEQLEN", 0xFE1FFFFF, 0xA4000000, fun cw => .seqlen (fieldBk cw) (fieldD cw)⟩,
   ⟨"SEQLD", 0xFE03FFFF, 0xA8000000, fun cw => .seqld (fieldBk cw) (fieldD cw) (fieldA cw)⟩,
   ⟨"SEQST", 0xFEE07FFF, 0xAC000000, fun cw => .seqst (fieldBk cw) (fieldA cw) (fieldB cw)⟩]

/-- Rows with `op[5:4] = 11`: the NTT engine. -/
def engineRows : List OpRow :=
  [⟨"BFLY", 0xFF007FFF, 0xC0000000, fun cw => .bfly (fieldD cw) (fieldA cw) (fieldB cw)⟩,
   ⟨"PERMUTE", 0xFEFFFFFF, 0xC4000000, fun cw => .permute (fieldBk cw)⟩,
   ⟨"CHECK", 0xFEE3FFFF, 0xC8000000, fun cw => .check (fieldBk cw) (fieldA cw)⟩,
   ⟨"NTTA", 0xFCE3FFFF, 0xD0000000, fun cw => .ntta (fieldF cw) (fieldBk cw) (fieldA cw)⟩,
   ⟨"NTTB", 0xFCE3FFFF, 0xD4000000, fun cw => .nttb (fieldF cw) (fieldBk cw) (fieldA cw)⟩,
   ⟨"INTTA", 0xFCE3FFFF, 0xD8000000, fun cw => .intta (fieldF cw) (fieldBk cw) (fieldA cw)⟩,
   ⟨"INTTB", 0xFCE3FFFF, 0xDC000000, fun cw => .inttb (fieldF cw) (fieldBk cw) (fieldA cw)⟩]

/-- The complete opcode map: 33 rows for 32 opcodes (R75). -/
def opRows : List OpRow := configRows ++ fieldRows ++ utilityRows ++ engineRows

/-- The test of R75. -/
def OpRow.accepts (row : OpRow) (cw : CmdWord) : Bool := cw &&& row.mask == row.pattern

/-! ## Decoding (R78, R80) -/

/-- Why a word is an illegal command (R78, V1, V2), or why bytes hold no word. -/
inductive IllegalReason where
  /-- The opcode is one of the 32 unassigned values (R78 a). -/
  | unassignedOpcode
  /-- The opcode is assigned and a must-be-zero bit is set (R78 b). -/
  | mustBeZero
  /-- Fewer than four bytes: no command word (R70). -/
  | truncated
deriving DecidableEq, Repr

/-- What the decoder yields (R80): one of the commands with its field values, or "illegal". -/
inductive Decoded where
  | command (i : Instr)
  | illegal (why : IllegalReason)
deriving DecidableEq, Repr

/-- The opcode `cw[31:26]` is that of some row. -/
def opcodeAssigned (cw : CmdWord) : Bool :=
  opRows.any fun row => row.pattern.extractLsb' 26 6 == cw.extractLsb' 26 6

/-- The decoder (R80): total, and dependent on the word alone. -/
def decode (cw : CmdWord) : Decoded :=
  match opRows.find? (fun row => row.accepts cw) with
  | some row => .command (row.build cw)
  | none => .illegal (if opcodeAssigned cw then .mustBeZero else .unassignedOpcode)

/-- Four bytes make a command word, least significant byte first (R53). -/
def wordOfBytes (b0 b1 b2 b3 : Byte) : CmdWord := b3 ++ b2 ++ b1 ++ b0

/-- A command word as bytes, least significant byte first (R53). -/
def bytesOfWord (cw : CmdWord) : List Byte :=
  [cw.extractLsb' 0 8, cw.extractLsb' 8 8, cw.extractLsb' 16 8, cw.extractLsb' 24 8]

/-- The decoder on a byte string: the command of its first word. -/
def decodeBytes : List Byte → Decoded
  | b0 :: b1 :: b2 :: b3 :: _ => decode (wordOfBytes b0 b1 b2 b3)
  | _ => .illegal .truncated

/-- The command, where there is one. -/
def Decoded.toOption : Decoded → Option Instr
  | .command i => some i
  | .illegal _ => none

/-- The command word whose low `nbits` bits are `w` and whose other bits are 0. -/
def tableWord (nbits w : Nat) : CmdWord := BitVec.ofNat 32 (w % 2 ^ nbits)

/-- The command the decoder reads from the bytes of a table row's word. -/
def decodeTableWord (nbits w : Nat) : Option Instr :=
  (decodeBytes (bytesOfWord (tableWord nbits w))).toOption

/-! ## Encoding (R77) -/

/-- The flag bit as a number. -/
def flagBit (f : Bool) : Nat := if f then 1 else 0

/-- The bank bit as a number. -/
def bankBit : BankSel → Nat
  | .b0 => 0
  | .b1 => 1

/-- Format R: `(op << 26) | (f << 25) | (bk << 24) | (d << 21) | (a << 18) | (b << 15)` (R77). -/
def encodeR (op f bk : Nat) (d a b : RegNo) : CmdWord :=
  (BitVec.ofNat 32 op <<< 26) ||| (BitVec.ofNat 32 f <<< 25) ||| (BitVec.ofNat 32 bk <<< 24) |||
    (BitVec.ofNat 32 d.val <<< 21) ||| (BitVec.ofNat 32 a.val <<< 18) ||| (BitVec.ofNat 32 b.val <<< 15)

/-- Format I: `(op << 26) | (d << 21) | imm16` (R77). -/
def encodeI (op : Nat) (d : RegNo) (imm : Nat) : CmdWord :=
  (BitVec.ofNat 32 op <<< 26) ||| (BitVec.ofNat 32 d.val <<< 21) ||| BitVec.ofNat 32 imm

/-- The command word of a command, every unused field 0 (R77). -/
def encode : Instr → CmdWord
  | .ldi d imm => encodeI 0x01 d imm
  | .ldis d imm => encodeI 0x02 d imm
  | .setmod a => encodeR 0x03 0 0 0 a 0
  | .getmod d => encodeR 0x04 0 0 d 0 0
  | .rdpp d sel => encodeI 0x05 d sel
  | .root d a => encodeR 0x06 0 0 d a 0
  | .clrerr => encodeR 0x07 0 0 0 0 0
  | .fromint d a => encodeR 0x10 0 0 d a 0
  | .toint d a => encodeR 0x11 0 0 d a 0
  | .add d a b => encodeR 0x12 0 0 d a b
  | .sub d a b => encodeR 0x13 0 0 d a b
  | .neg d a => encodeR 0x14 0 0 d a 0
  | .mul d a b => encodeR 0x15 0 0 d a b
  | .div c d a b => encodeR 0x16 (flagBit c) 0 d a b
  | .inv d a => encodeR 0x17 0 0 d a 0
  | .invC d a => encodeR 0x17 1 0 d a 0
  | .pow d a b => encodeR 0x18 0 0 d a b
  | .eq d a b => encodeR 0x19 0 0 d a b
  | .ne d a b => encodeR 0x1A 0 0 d a b
  | .bitrev d a b => encodeR 0x20 0 0 d a b
  | .ceillg d a => encodeR 0x21 0 0 d a 0
  | .is2pow d a => encodeR 0x22 0 0 d a 0
  | .seqnew bk a => encodeR 0x28 0 (bankBit bk) 0 a 0
  | .seqlen bk d => encodeR 0x29 0 (bankBit bk) d 0 0
  | .seqld bk d a => encodeR 0x2A 0 (bankBit bk) d a 0
  | .seqst bk a b => encodeR 0x2B 0 (bankBit bk) 0 a b
  | .bfly d a b => encodeR 0x30 0 0 d a b
  | .permute bk => encodeR 0x31 0 (bankBit bk) 0 0 0
  | .check bk a => encodeR 0x32 0 (bankBit bk) 0 a 0
  | .ntta v bk a => encodeR 0x34 (flagBit v) (bankBit bk) 0 a 0
  | .nttb v bk a => encodeR 0x35 (flagBit v) (bankBit bk) 0 a 0
  | .intta v bk a => encodeR 0x36 (flagBit v) (bankBit bk) 0 a 0
  | .inttb v bk a => encodeR 0x37 (flagBit v) (bankBit bk) 0 a 0

end Sys2Proof
end

