-- ==== Sys2Proof/Machine/State.lean ====
section
/-! DEFINITION. The architectural state of NTT CORE (10_state.md R20), the host's side of the interface as plain
data, the reasons a step can stop, and the reset state (R38). -/

namespace Sys2Proof.Machine

/-- The error kinds of R215; the codes are `ErrorKind.code` in Machine/Ops.lean. They are recorded in ERR by the fault
entry and stop nothing. -/
inductive ErrorKind where
  | invalidLength
  | invalidRootOrder
  | nonInvertible
  | configMismatch
  | illegalCommand
  | illegalOperand
  | bounds
deriving DecidableEq, Repr

/-- The reasons the machine stops with a fault. There is none: every error of the spec is a fault entry that CORE
takes and goes on from (R217, R218), and "no command waits for anything, so CORE cannot hang" (R246). -/
inductive Fault where
deriving DecidableEq, Repr

/-- The reasons an instruction has no meaning. -/
inductive Refusal where
  /-- Raised by exec's arm of an instruction that has no meaning yet; safe. No arm of this model raises it. -/
  | notModelled (mnemonic : String)
deriving DecidableEq, Repr

/-- The slots of one bank as a list of (index, element) cells in canonical form: indices strictly rising, and no cell
equal to what an unlisted slot reads as (R50, R51; assumptions 6 and 7). The operations are in Machine/Ops.lean. -/
abbrev Memory := List (Nat × Nat)

/-- A sequence bank: its length register LEN (R28) and its slots (R51). -/
structure Bank where
  len : Nat
  slots : Memory
deriving DecidableEq, Repr

/-- A request at the host port: one of the three primitives (R18). The selector of HostRead has ten values (R34). -/
inductive HostReq where
  | issue (cw : CmdWord)
  | read (sel : Fin 10)
  | reset
deriving DecidableEq, Repr

/-- What a request answered (R18): Issue answers DONE, FAULT(code) or BLOCKED, HostRead a value, Reset nothing. -/
inductive Response where
  | none
  | done
  | fault (code : BitVec 3)
  | blocked
  | value (v : Nat)
deriving DecidableEq, Repr

/-- The state. `cfg` is the instance's constants; `pp` to `einfo` are the registers and banks of R20; `draws`, `prog`,
`pos` and `resp` are the model's own (assumptions 3, 4, 5): the number of free values drawn, the host's list of requests,
the index into it (R21), and the answer to the last one. -/
structure State where
  cfg : Config.Params
  pp : Config.PrimeParams
  r : Vector Nat 8
  e : Vector Nat 8
  mod : Nat
  bank0 : Bank
  bank1 : Bank
  err : BitVec 3
  einfo : CmdWord
  draws : Nat
  prog : List HostReq
  pos : Nat
  resp : Response
deriving DecidableEq, Repr

/-- A bank that holds no sequence (R28). -/
def Bank.empty : Bank := ⟨0, []⟩

/-- The reset state of an instance (R38, R240): registers 0, `MOD = PP_P`, both banks empty, no error, the prime
parameters unchanged. -/
def State.resetOf (c : Config.Params) (pp : Config.PrimeParams) : State where
  cfg := c
  pp := pp
  r := Vector.replicate 8 0
  e := Vector.replicate 8 0
  mod := pp.p
  bank0 := Bank.empty
  bank1 := Bank.empty
  err := 0
  einfo := 0
  draws := 0
  prog := []
  pos := 0
  resp := .none

/-- The machine right after reset, in the reference configuration CFG16 (R15, R38; assumption 1). -/
def State.reset : State := State.resetOf Config.cfg16 Config.pp16

end Sys2Proof.Machine
end

