-- ==== Sys2Proof/Machine/Ops.lean ====
section
/-! DEFINITION. The named operations over registers, banks and free values, the fault entry (60_exceptions.md R218) and the
return from it (R220). -/

namespace Sys2Proof.Machine

/-! ## Slots of a bank (20_memory.md) -/

/-- What a slot that is not listed reads as (assumption 6). -/
def Memory.unlisted : Nat := 0

/-- One slot. -/
def Memory.read : Memory → Nat → Nat
  | [], _ => Memory.unlisted
  | (j, x) :: m, i => if i = j then x else Memory.read m i

/-- Writes one slot and keeps the canonical form: writing what an unlisted slot reads as removes the cell. -/
def Memory.write : Memory → Nat → Nat → Memory
  | [], i, v => if v = Memory.unlisted then [] else [(i, v)]
  | (j, x) :: m, i, v =>
    if i < j then (if v = Memory.unlisted then (j, x) :: m else (i, v) :: (j, x) :: m)
    else if i = j then (if v = Memory.unlisted then m else (i, v) :: m)
    else (j, x) :: Memory.write m i v

/-- The cells of the elements `xs` laid from index `i` on. -/
def Memory.cellsFrom : Nat → List Nat → Memory
  | _, [] => []
  | i, x :: xs =>
    if x = Memory.unlisted then Memory.cellsFrom (i + 1) xs else (i, x) :: Memory.cellsFrom (i + 1) xs

/-- Writes slots `0 .. xs.length - 1` with the elements `xs` and leaves the others alone: what writing them one by one
gives, in one piece. -/
def Memory.store (m : Memory) (xs : List Nat) : Memory :=
  Memory.cellsFrom 0 xs ++ m.filter (fun c => decide (xs.length ≤ c.1))

/-- The canonical form: no cell equal to what an unlisted slot reads as, indices strictly rising from `lo` on. -/
def Memory.wfFrom : Nat → Memory → Bool
  | _, [] => true
  | lo, (i, v) :: m => decide (lo ≤ i) && decide (v ≠ Memory.unlisted) && Memory.wfFrom (i + 1) m

/-- The canonical form of a whole bank. -/
def Memory.wf (m : Memory) : Bool := Memory.wfFrom 0 m

/-! ## Registers -/

/-- `r[i]` (R22). -/
def State.getR (s : State) (i : RegNo) : Nat := s.r[i]

/-- `r[i] <- v`. -/
def State.setR (s : State) (i : RegNo) (v : Nat) : State := { s with r := s.r.set i v }

/-- `e[i]` (R23). -/
def State.getE (s : State) (i : RegNo) : Nat := s.e[i]

/-- `e[i] <- v`. -/
def State.setE (s : State) (i : RegNo) (v : Nat) : State := { s with e := s.e.set i v }

/-! ## Banks -/

/-- Bank `bk`. -/
def State.bank (s : State) : BankSel → Bank
  | .b0 => s.bank0
  | .b1 => s.bank1

/-- Replaces bank `bk`; the banks do not alias (R50). -/
def State.setBank (s : State) (bk : BankSel) (b : Bank) : State :=
  match bk with
  | .b0 => { s with bank0 := b }
  | .b1 => { s with bank1 := b }

/-- `LEN[bk]` (R28). -/
def State.len (s : State) (bk : BankSel) : Nat := (s.bank bk).len

/-- `LEN[bk] <- n`. -/
def State.setLen (s : State) (bk : BankSel) (n : Nat) : State := s.setBank bk { s.bank bk with len := n }

/-- `SeqRead(bk, i)` (R19, R55). -/
def State.seqRead (s : State) (bk : BankSel) (i : Nat) : Nat := (s.bank bk).slots.read i

/-- `SeqWrite(bk, i, v)` (R19, R55). -/
def State.seqWrite (s : State) (bk : BankSel) (i : Nat) (v : Nat) : State :=
  s.setBank bk { s.bank bk with slots := (s.bank bk).slots.write i v }

/-- The sequence a bank holds: slots `0 .. LEN[bk] - 1` in order (R51). -/
def State.seq (s : State) (bk : BankSel) : List Nat := (List.range (s.len bk)).map (s.seqRead bk)

/-- Writes the elements `xs` to slots `0 .. xs.length - 1` of a bank. -/
def State.putSeq (s : State) (bk : BankSel) (xs : List Nat) : State :=
  s.setBank bk { s.bank bk with slots := (s.bank bk).slots.store xs }

/-! ## Free values (R19) -/

/-- The ANY_W that the next draw gives: some value of `[0, 2^W)`. -/
def State.drawnW (s : State) : Nat := Config.anyW s.draws % 2 ^ s.cfg.w

/-- The ANY_ELEM that the `i`-th of the next draws gives: some value of `[0, MOD)`. -/
def State.drawnElem (s : State) (i : Nat) : Nat := Config.anyElem (s.draws + i) % s.mod

/-- `n` draws are used up, so that the next ones are fresh. -/
def State.useDraws (s : State) (n : Nat) : State := { s with draws := s.draws + n }

/-! ## Errors (60_exceptions.md) -/

/-- The code of an error kind (R215). -/
def ErrorKind.code : ErrorKind → BitVec 3
  | .invalidLength => 1
  | .invalidRootOrder => 2
  | .nonInvertible => 3
  | .configMismatch => 4
  | .illegalCommand => 5
  | .illegalOperand => 6
  | .bounds => 7

/-- ERR as the 32-bit register the host reads: bits `[31:3]` always read 0 (R29). -/
def State.errReg (s : State) : CmdWord := s.err.setWidth 32

/-- CORE is blocked while `ERR != 0` (R219). -/
def State.blocked (s : State) : Bool := s.err != 0

/-- The fault entry (R218): `ERR <- code(X)`, `EINFO <- cw`, and nothing else; there is no vector, no saved address and
no mode. The command has written nothing. -/
def raise (x : ErrorKind) (cw : CmdWord) (s : State) : Host.Outcome State Fault Refusal :=
  .next { s with err := x.code, einfo := cw }

/-- Every slot `i < LEN[bk]` becomes an ANY_ELEM of its own (R202). -/
def State.spoil (s : State) (bk : BankSel) : State :=
  (s.putSeq bk ((List.range (s.len bk)).map s.drawnElem)).useDraws (s.len bk)

/-- The fault entry of PERMUTE, NTTA, NTTB, INTTA and INTTB: the addressed bank's slots hold values no rule determines,
everything else is as after any fault (R202, R221). -/
def raiseSpoiled (x : ErrorKind) (bk : BankSel) (cw : CmdWord) (s : State) : Host.Outcome State Fault Refusal :=
  raise x cw (s.spoil bk)

/-- The return from a fault (R220): `ERR <- 0`, `EINFO <- 0`; there is nothing else to restore. -/
def State.clearError (s : State) : State := { s with err := 0, einfo := 0 }

end Sys2Proof.Machine
end

