-- ==== Sys2Proof/Machine/Flags.lean ====
section
/-! DEFINITION. NTT CORE has no flags, condition codes or predicates (10_state.md R32): a test delivers 0 or 1 in an
integer register, and the one output is `fault_o`. -/

namespace Sys2Proof.Machine

/-- A Boolean result: 1 for true, 0 for false (R106, R140, R141). -/
def boolVal (b : Bool) : Nat := if b then 1 else 0

/-- The output `fault_o`, 1 exactly while `ERR != 0` (R31). -/
def State.faultO (s : State) : Bool := s.err != 0

end Sys2Proof.Machine
end

