-- ==== Sys2Proof/Machine/Operands.lean ====
section
/-! DEFINITION. Operand forms (30_encoding.md R73, R74; 43_sequence.md R173). An integer register is read by
State.getR, an element register by State.getE, a bank operand selects by State.bank; here stand the immediate, the results
that a command ends with, and the bank plus index register form. -/

namespace Sys2Proof.Machine

/-- `zext_W(imm16)`: the immediate as an unsigned integer (R73). -/
def zextImm (imm : Nat) : Nat := imm

/-- `trunc_W(v)` (R19). -/
def truncW (w v : Nat) : Nat := v % 2 ^ w

/-- What LDIS leaves: the old value moved up 16 bits, its top bits lost, the immediate below (R152). -/
def shiftInImm (w old imm : Nat) : Nat := truncW w (old * 2 ^ 16 + imm)

/-- The prime-parameter register a selector names, for the selectors `0..4` (R27, R156). -/
def ppSelect (pp : Config.PrimeParams) : Nat → Option Nat
  | 0 => some pp.n
  | 1 => some pp.k
  | 2 => some pp.p
  | 3 => some pp.g
  | 4 => some pp.base
  | _ => none

/-- The command ends with `r[d] <- v`. -/
def doneR (d : RegNo) (v : Nat) (s : State) : Host.Outcome State Fault Refusal := .next (s.setR d v)

/-- The command ends with `e[d] <- v`. -/
def doneE (d : RegNo) (v : Nat) (s : State) : Host.Outcome State Fault Refusal := .next (s.setE d v)

/-- The command ends with `r[d] <- ANY_W`. -/
def doneAnyW (d : RegNo) (s : State) : Host.Outcome State Fault Refusal := .next ((s.setR d s.drawnW).useDraws 1)

/-- The command ends with `e[d] <- ANY_ELEM`. -/
def doneAnyElem (d : RegNo) (s : State) : Host.Outcome State Fault Refusal :=
  .next ((s.setE d (s.drawnElem 0)).useDraws 1)

/-- The bounds check on the effective address `(bk, i)`: the access is performed if and only if `i < LEN[bk]` (R173). -/
def inBounds (s : State) (bk : BankSel) (i : Nat) : Bool := decide (i < s.len bk)

end Sys2Proof.Machine
end

