-- ==== Sys2Proof/Machine/Field.lean ====
section
/-! DEFINITION. Finite-field arithmetic (41_field_arithmetic.md): the functions of MODADD, MODMUL and MODINV, each over the
modulus `m`, and the commands FROMINT to NE. The widened intermediate holds every value exactly (R10), so the functions compute
over the natural numbers. -/

namespace Sys2Proof.Machine

/-! ## Functions -/

/-- `fromInteger(v) = v mod MOD` (R117). -/
def fromInteger (m v : Nat) : Nat := v % m

/-- `fadd(a, b) = (a + b) mod MOD` (R120). -/
def fadd (m a b : Nat) : Nat := (a + b) % m

/-- `fsub(a, b) = (a + MOD - b) mod MOD` (R122). -/
def fsub (m a b : Nat) : Nat := (a + m - b) % m

/-- `fneg(a)`: `MOD - a` if nonzero, else 0 (R124). -/
def fneg (m a : Nat) : Nat := if a = 0 then 0 else m - a

/-- `fmul(a, b) = (a * b) mod MOD` (R126). -/
def fmul (m a b : Nat) : Nat := (a * b) % m

/-- The loop of `egcd` (R133): remainders `r0`, `r1` and coefficients `t0`, `t1`. The fuel bounds the number of
iterations. -/
def egcdLoop : Nat → Nat → Nat → Int → Int → Nat × Int
  | 0, r0, _, t0, _ => (r0, t0)
  | fuel + 1, r0, r1, t0, t1 =>
    if r1 = 0 then (r0, t0)
    else egcdLoop fuel r1 (r0 - r0 / r1 * r1) t1 (t0 - ((r0 / r1 : Nat) : Int) * t1)

/-- `egcd(a)` = `(g, t)` with `g = gcd(a, MOD)` and `t*a ≡ g (mod MOD)` (R133). The remainder `r1` starts at `a` and
strictly decreases, so `a + 1` iterations are enough (R246). -/
def egcd (m a : Nat) : Nat × Int := egcdLoop (a + 1) m a 0 1

/-- `normalise(t)` into `[0, MOD)` (R133). -/
def normalise (m : Nat) (t : Int) : Nat := if t < 0 then (t + (m : Int)).toNat else t.toNat

/-- The test on `g`: the element has an inverse (R130). -/
def invertible (m a : Nat) : Bool := (egcd m a).1 == 1

/-- `finv(a)`, meaningful where the element is invertible (R130, R133). -/
def finv (m a : Nat) : Nat := normalise m (egcd m a).2

/-- The loop of `fpow`: exponent bits from the least significant (R138). The fuel bounds the number of iterations. -/
def fpowLoop (m : Nat) : Nat → Nat → Nat → Nat → Nat
  | 0, res, _, _ => res
  | fuel + 1, res, base, n =>
    if n = 0 then res
    else fpowLoop m fuel (if n % 2 = 1 then fmul m res base else res) (fmul m base base) (n / 2)

/-- `fpow(a, n)` by repeated squaring (R138); one iteration per bit of the exponent. -/
def fpow (m a n : Nat) : Nat := fpowLoop m (Nat.log2 n + 1) 1 a n

/-! ## Commands -/

/-- FROMINT (R118). -/
def execFromint (d a : RegNo) (s : State) : Host.Outcome State Fault Refusal :=
  doneE d (fromInteger s.mod (s.getR a)) s

/-- TOINT (R119). -/
def execToint (d a : RegNo) (s : State) : Host.Outcome State Fault Refusal := doneR d (s.getE a) s

/-- ADD (R121). -/
def execAdd (d a b : RegNo) (s : State) : Host.Outcome State Fault Refusal :=
  doneE d (fadd s.mod (s.getE a) (s.getE b)) s

/-- SUB (R123). -/
def execSub (d a b : RegNo) (s : State) : Host.Outcome State Fault Refusal :=
  doneE d (fsub s.mod (s.getE a) (s.getE b)) s

/-- NEG (R125). -/
def execNeg (d a : RegNo) (s : State) : Host.Outcome State Fault Refusal := doneE d (fneg s.mod (s.getE a)) s

/-- MUL (R127). -/
def execMul (d a b : RegNo) (s : State) : Host.Outcome State Fault Refusal :=
  doneE d (fmul s.mod (s.getE a) (s.getE b)) s

/-- DIV and DIV.C (R137): the quotient; or for a divisor that is not invertible a fault if checked, else ANY_ELEM. -/
def execDiv (c : Bool) (d a b : RegNo) (s : State) : Host.Outcome State Fault Refusal :=
  if invertible s.mod (s.getE b) then doneE d (fmul s.mod (s.getE a) (finv s.mod (s.getE b))) s
  else if c then raise .nonInvertible (encode (.div c d a b)) s
  else doneAnyElem d s

/-- INV, unchecked (R135). -/
def execInv (d a : RegNo) (s : State) : Host.Outcome State Fault Refusal :=
  if invertible s.mod (s.getE a) then doneE d (finv s.mod (s.getE a)) s
  else doneAnyElem d s

/-- INV.C, checked (R134). -/
def execInvC (d a : RegNo) (s : State) : Host.Outcome State Fault Refusal :=
  if invertible s.mod (s.getE a) then doneE d (finv s.mod (s.getE a)) s
  else raise .nonInvertible (encode (.invC d a)) s

/-- POW (R139). -/
def execPow (d a b : RegNo) (s : State) : Host.Outcome State Fault Refusal :=
  doneE d (fpow s.mod (s.getE a) (s.getR b)) s

/-- EQ (R140). -/
def execEq (d a b : RegNo) (s : State) : Host.Outcome State Fault Refusal :=
  doneR d (boolVal (s.getE a == s.getE b)) s

/-- NE (R141). -/
def execNe (d a b : RegNo) (s : State) : Host.Outcome State Fault Refusal :=
  doneR d (boolVal (s.getE a != s.getE b)) s

end Sys2Proof.Machine
end

