-- ==== Sys2Proof/Machine/Numeric.lean ====
section
/-! DEFINITION. The numeric utilities (40_numeric_utilities.md): bitReverse, ceilLg, is2pow, and the commands BITREV, CEILLG,
IS2POW. -/

namespace Sys2Proof.Machine

/-- `bitReverse(v, nb)`: the sum over `i` in `0..nb-1` of `v[i] * 2^(nb-1-i)` (R101). -/
def bitReverse (v nb : Nat) : Nat :=
  ((List.range nb).map fun i => (v.testBit i).toNat * 2 ^ (nb - 1 - i)).sum

/-- `ceilLg(n)`: the position of the highest set bit, incremented by one if more than one bit is set (R103). -/
def ceilLg (n : Nat) : Nat := if n = 2 ^ Nat.log2 n then Nat.log2 n else Nat.log2 n + 1

/-- `is2pow(n)`: exactly one bit of `n` is set (R105). -/
def is2pow (n : Nat) : Bool := n != 0 && (n &&& (n - 1)) == 0

/-- BITREV (R102). -/
def execBitrev (d a b : RegNo) (s : State) : Host.Outcome State Fault Refusal :=
  if s.cfg.w < s.getR b then raise .illegalOperand (encode (.bitrev d a b)) s
  else if 2 ^ s.getR b ≤ s.getR a then doneAnyW d s
  else doneR d (bitReverse (s.getR a) (s.getR b)) s

/-- CEILLG (R104). -/
def execCeillg (d a : RegNo) (s : State) : Host.Outcome State Fault Refusal :=
  if s.getR a = 0 then raise .illegalOperand (encode (.ceillg d a)) s
  else doneR d (ceilLg (s.getR a)) s

/-- IS2POW (R106). -/
def execIs2pow (d a : RegNo) (s : State) : Host.Outcome State Fault Refusal :=
  doneR d (boolVal (is2pow (s.getR a))) s

end Sys2Proof.Machine
end

