-- ==== Sys2Proof/Machine/Configuration.lean ====
section
/-! DEFINITION. Configuration and move commands (42_config_and_moves.md): LDI, LDIS, SETMOD, GETMOD, RDPP, ROOT, CLRERR. -/

namespace Sys2Proof.Machine

/-- LDI (R151). -/
def execLdi (d : RegNo) (imm : Nat) (s : State) : Host.Outcome State Fault Refusal := doneR d (zextImm imm) s

/-- LDIS (R152). -/
def execLdis (d : RegNo) (imm : Nat) (s : State) : Host.Outcome State Fault Refusal :=
  doneR d (shiftInImm s.cfg.w (s.getR d) imm) s

/-- The field instantiated with modulus `m`: every element register 0, both banks without a sequence (R154). -/
def State.instantiateField (s : State) (m : Nat) : State :=
  (({ s with mod := m, e := Vector.replicate 8 0 }).setLen .b0 0).setLen .b1 0

/-- SETMOD (R154). -/
def execSetmod (a : RegNo) (s : State) : Host.Outcome State Fault Refusal :=
  if s.getR a < 2 then raise .illegalOperand (encode (.setmod a)) s
  else .next (s.instantiateField (s.getR a))

/-- GETMOD (R155). -/
def execGetmod (d : RegNo) (s : State) : Host.Outcome State Fault Refusal := doneR d s.mod s

/-- RDPP (R156). -/
def execRdpp (d : RegNo) (sel : Nat) (s : State) : Host.Outcome State Fault Refusal :=
  match ppSelect s.pp sel with
  | some v => doneR d v s
  | none => raise .illegalOperand (encode (.rdpp d sel)) s

/-- ROOT (R157): the tests in the order of the rule, then `g^(2^n div L)`. -/
def execRoot (d a : RegNo) (s : State) : Host.Outcome State Fault Refusal :=
  if s.mod ≠ s.pp.p then raise .configMismatch (encode (.root d a)) s
  else if !is2pow (s.getR a) || decide (2 ^ s.pp.n < s.getR a) then raise .invalidLength (encode (.root d a)) s
  else doneE d (fpow s.mod (s.pp.g % s.mod) (2 ^ s.pp.n / s.getR a)) s

/-- CLRERR (R158): the return from a fault. -/
def execClrerr (s : State) : Host.Outcome State Fault Refusal := .next s.clearError

end Sys2Proof.Machine
end

