-- ==== Sys2Proof/Machine/Sequence.lean ====
section
/-! DEFINITION. Sequence container commands (43_sequence.md): SEQNEW, SEQLEN, SEQLD, SEQST. -/

namespace Sys2Proof.Machine

/-- SEQNEW (R171): the length register, then zero in every slot below it. -/
def execSeqnew (bk : BankSel) (a : RegNo) (s : State) : Host.Outcome State Fault Refusal :=
  if s.cfg.seqMax < s.getR a then raise .illegalOperand (encode (.seqnew bk a)) s
  else .next ((s.setLen bk (s.getR a)).putSeq bk (List.replicate (s.getR a) 0))

/-- SEQLEN (R172). -/
def execSeqlen (bk : BankSel) (d : RegNo) (s : State) : Host.Outcome State Fault Refusal := doneR d (s.len bk) s

/-- SEQLD (R174). -/
def execSeqld (bk : BankSel) (d a : RegNo) (s : State) : Host.Outcome State Fault Refusal :=
  if inBounds s bk (s.getR a) then doneE d (s.seqRead bk (s.getR a)) s
  else raise .bounds (encode (.seqld bk d a)) s

/-- SEQST (R175). -/
def execSeqst (bk : BankSel) (a b : RegNo) (s : State) : Host.Outcome State Fault Refusal :=
  if inBounds s bk (s.getR b) then .next (s.seqWrite bk (s.getR b) (s.getE a))
  else raise .bounds (encode (.seqst bk a b)) s

end Sys2Proof.Machine
end

