-- ==== Sys2Proof/Machine/Transform.lean ====
section
/-! DEFINITION. The in-place NTT engine (44_ntt_engine.md): BFLY, PERMUTE, CHECK, NTTA, NTTB, INTTA, INTTB. The functions work on
the sequence of a bank as a list of its `LEN[bk]` elements; a command reads it, transforms it and puts it back, as one atomic
transition (R17, R55). -/

namespace Sys2Proof.Machine

/-! ## The butterfly and the permutation -/

/-- `butterfly(x, y, w)` = `(x + w*y, x - w*y)`, both from the old `x` (R186). -/
def butterfly (m x y w : Nat) : Nat × Nat := (fadd m x (fmul m w y), fsub m x (fmul m w y))

/-- `f 0`, then `f 1`, ..., then `f (n-1)`: a loop over `0..n-1`. -/
def forLoop {α : Type} (n : Nat) (f : Nat → α → α) (x : α) : α :=
  match n with
  | 0 => x
  | k + 1 => f k (forLoop k f x)

/-- Swaps two slots. -/
def swapSlots (xs : List Nat) (i j : Nat) : List Nat := (xs.set i (xs.getD j 0)).set j (xs.getD i 0)

/-- `permute` (R189): slot `k` and slot `bitReverse(k, t)` change places wherever the reversed index is the greater. -/
def permuteSeq (xs : List Nat) : List Nat :=
  forLoop xs.length (fun k ys =>
    if k < bitReverse k (ceilLg xs.length) then swapSlots ys k (bitReverse k (ceilLg xs.length)) else ys) xs

/-- One butterfly on slots `lo` and `hi`: the low slot gets the sum, the high slot the difference (R193, R196). -/
def butterflySlots (m w lo hi : Nat) (xs : List Nat) : List Nat :=
  (xs.set lo (butterfly m (xs.getD lo 0) (xs.getD hi 0) w).1).set hi (butterfly m (xs.getD lo 0) (xs.getD hi 0) w).2

/-! ## Validation -/

/-- The root-order part of `checkParameters`: fails if `h = 1` or `h*h != 1`, for `h = w^(n div 2)` (R190). -/
def rootOrderFails (m n w : Nat) : Bool :=
  fpow m w (n / 2) == 1 || fmul m (fpow m w (n / 2)) (fpow m w (n / 2)) != 1

/-- `checkParameters(n, w)`: the error it fails with, if any (R190). -/
def checkParameters (m n w : Nat) : Option ErrorKind :=
  if !is2pow n then some .invalidLength
  else if rootOrderFails m n w then some .invalidRootOrder
  else none

/-! ## The forward networks -/

/-- Stage `q` of variant A: twiddle positions outside, blocks inside; the twiddle is kept across blocks (R196). -/
def stageA (m w q : Nat) (xs : List Nat) : List Nat :=
  let half := 2 ^ q / 2
  let r := xs.length / 2 ^ q
  let omegaStep := fpow m w r
  (forLoop half (fun j (p : List Nat × Nat) =>
    (forLoop r (fun k ys => butterflySlots m p.2 (k * 2 ^ q + j) (k * 2 ^ q + j + half) ys) p.1, fmul m p.2 omegaStep))
    (xs, 1)).1

/-- Stage `q` of variant B: blocks outside, twiddle positions inside; the twiddle restarts at 1 in every block (R197). -/
def stageB (m w q : Nat) (xs : List Nat) : List Nat :=
  let half := 2 ^ q / 2
  let r := xs.length / 2 ^ q
  let omegaStep := fpow m w r
  forLoop r (fun k ys =>
    (forLoop half (fun j (p : List Nat × Nat) =>
      (butterflySlots m p.2 (k * 2 ^ q + j) (k * 2 ^ q + j + half) p.1, fmul m p.2 omegaStep)) (ys, 1)).1) xs

/-- `forwardA`: the permutation, then stages `1..t` in order (R196). -/
def forwardA (m w : Nat) (xs : List Nat) : List Nat :=
  forLoop (ceilLg xs.length) (fun q ys => stageA m w (q + 1) ys) (permuteSeq xs)

/-- `forwardB`: the permutation, then stages `1..t` in order (R197). -/
def forwardB (m w : Nat) (xs : List Nat) : List Nat :=
  forLoop (ceilLg xs.length) (fun q ys => stageB m w (q + 1) ys) (permuteSeq xs)

/-! ## The forward and inverse commands over either variant -/

/-- A forward transform with the network `net` (R199): the length test always, the root-order test where `v` is set. -/
def forwardCommand (net : Nat → Nat → List Nat → List Nat) (v : Bool) (bk : BankSel) (w : Nat) (cw : CmdWord)
    (s : State) : Host.Outcome State Fault Refusal :=
  if !is2pow (s.len bk) then raiseSpoiled .invalidLength bk cw s
  else if v && rootOrderFails s.mod (s.len bk) w then raiseSpoiled .invalidRootOrder bk cw s
  else .next (s.putSeq bk (net s.mod w (s.seq bk)))

/-- Every element multiplied by `c`, as the last step of the inverse transform scales (R201). -/
def scaleSeq (m c : Nat) (xs : List Nat) : List Nat := xs.map fun x => fmul m x c

/-- An inverse transform with the network `net` (R201): the root is inverted, the network runs with the inverse, the result
is scaled by the inverse of the length; both inverses are the checked kind. -/
def inverseCommand (net : Nat → Nat → List Nat → List Nat) (v : Bool) (bk : BankSel) (w : Nat) (cw : CmdWord)
    (s : State) : Host.Outcome State Fault Refusal :=
  if !invertible s.mod w then raiseSpoiled .nonInvertible bk cw s
  else if !is2pow (s.len bk) then raiseSpoiled .invalidLength bk cw s
  else if v && rootOrderFails s.mod (s.len bk) (finv s.mod w) then raiseSpoiled .invalidRootOrder bk cw s
  else if !invertible s.mod (fromInteger s.mod (s.len bk)) then raiseSpoiled .nonInvertible bk cw s
  else .next (s.putSeq bk
    (scaleSeq s.mod (finv s.mod (fromInteger s.mod (s.len bk))) (net s.mod (finv s.mod w) (s.seq bk))))

/-! ## Commands -/

/-- BFLY (R187): `e[d]` holds `x` and receives the sum, `e[a]` holds `y` and receives the difference. -/
def execBfly (d a b : RegNo) (s : State) : Host.Outcome State Fault Refusal :=
  if d = a then raise .illegalOperand (encode (.bfly d a b)) s
  else .next ((s.setE d (butterfly s.mod (s.getE d) (s.getE a) (s.getE b)).1).setE a
    (butterfly s.mod (s.getE d) (s.getE a) (s.getE b)).2)

/-- PERMUTE (R189). -/
def execPermute (bk : BankSel) (s : State) : Host.Outcome State Fault Refusal :=
  if !is2pow (s.len bk) then raiseSpoiled .invalidLength bk (encode (.permute bk)) s
  else .next (s.putSeq bk (permuteSeq (s.seq bk)))

/-- CHECK (R191). -/
def execCheck (bk : BankSel) (a : RegNo) (s : State) : Host.Outcome State Fault Refusal :=
  match checkParameters s.mod (s.len bk) (s.getE a) with
  | some x => raise x (encode (.check bk a)) s
  | none => .next s

/-- NTTA (R199 with R196). -/
def execNtta (v : Bool) (bk : BankSel) (a : RegNo) (s : State) : Host.Outcome State Fault Refusal :=
  forwardCommand forwardA v bk (s.getE a) (encode (.ntta v bk a)) s

/-- NTTB (R199 with R197). -/
def execNttb (v : Bool) (bk : BankSel) (a : RegNo) (s : State) : Host.Outcome State Fault Refusal :=
  forwardCommand forwardB v bk (s.getE a) (encode (.nttb v bk a)) s

/-- INTTA (R201 with R196). -/
def execIntta (v : Bool) (bk : BankSel) (a : RegNo) (s : State) : Host.Outcome State Fault Refusal :=
  inverseCommand forwardA v bk (s.getE a) (encode (.intta v bk a)) s

/-- INTTB (R201 with R197). -/
def execInttb (v : Bool) (bk : BankSel) (a : RegNo) (s : State) : Host.Outcome State Fault Refusal :=
  inverseCommand forwardB v bk (s.getE a) (encode (.inttb v bk a)) s

end Sys2Proof.Machine
end

