-- ==== Sys2Proof/Machine/Dispatch.lean ====
section
/-! DEFINITION. One arm per constructor of Instr, each one call of the command's meaning. -/

namespace Sys2Proof.Machine

def exec (i : Instr) (s : State) : Host.Outcome State Fault Refusal :=
  match i with
  | .ldi d imm => Sys2Proof.Machine.execLdi d imm s
  | .ldis d imm => Sys2Proof.Machine.execLdis d imm s
  | .setmod a => Sys2Proof.Machine.execSetmod a s
  | .getmod d => Sys2Proof.Machine.execGetmod d s
  | .rdpp d sel => Sys2Proof.Machine.execRdpp d sel s
  | .root d a => Sys2Proof.Machine.execRoot d a s
  | .clrerr => Sys2Proof.Machine.execClrerr s
  | .fromint d a => Sys2Proof.Machine.execFromint d a s
  | .toint d a => Sys2Proof.Machine.execToint d a s
  | .add d a b => Sys2Proof.Machine.execAdd d a b s
  | .sub d a b => Sys2Proof.Machine.execSub d a b s
  | .neg d a => Sys2Proof.Machine.execNeg d a s
  | .mul d a b => Sys2Proof.Machine.execMul d a b s
  | .div c d a b => Sys2Proof.Machine.execDiv c d a b s
  | .inv d a => Sys2Proof.Machine.execInv d a s
  | .invC d a => Sys2Proof.Machine.execInvC d a s
  | .pow d a b => Sys2Proof.Machine.execPow d a b s
  | .eq d a b => Sys2Proof.Machine.execEq d a b s
  | .ne d a b => Sys2Proof.Machine.execNe d a b s
  | .bitrev d a b => Sys2Proof.Machine.execBitrev d a b s
  | .ceillg d a => Sys2Proof.Machine.execCeillg d a s
  | .is2pow d a => Sys2Proof.Machine.execIs2pow d a s
  | .seqnew bk a => Sys2Proof.Machine.execSeqnew bk a s
  | .seqlen bk d => Sys2Proof.Machine.execSeqlen bk d s
  | .seqld bk d a => Sys2Proof.Machine.execSeqld bk d a s
  | .seqst bk a b => Sys2Proof.Machine.execSeqst bk a b s
  | .bfly d a b => Sys2Proof.Machine.execBfly d a b s
  | .permute bk => Sys2Proof.Machine.execPermute bk s
  | .check bk a => Sys2Proof.Machine.execCheck bk a s
  | .ntta v bk a => Sys2Proof.Machine.execNtta v bk a s
  | .nttb v bk a => Sys2Proof.Machine.execNttb v bk a s
  | .intta v bk a => Sys2Proof.Machine.execIntta v bk a s
  | .inttb v bk a => Sys2Proof.Machine.execInttb v bk a s

end Sys2Proof.Machine
end

