-- ==== Sys2Proof/Machine/Issue.lean ====
section
/-! DEFINITION. The host port (00_scope.md R18): what a step does around a command. Issue decides between discarding, refusing
and executing a word (60_exceptions.md R217); HostRead and Reset are the other two primitives. -/

namespace Sys2Proof.Machine

/-- The request the index points at (R21). -/
def State.request (s : State) : Option HostReq := s.prog[s.pos]?

/-- What Issue does with a word (R217). -/
inductive Verdict where
  /-- CORE is blocked and the word is not CLRERR: BLOCKED. -/
  | discard
  /-- The word matches no row of the opcode map: ILLEGAL_COMMAND. -/
  | illegal
  /-- The command is executed. -/
  | execute (i : Instr)
deriving DecidableEq, Repr

/-- The first part of Issue (R217, R219): in the blocked state only CLRERR is executed, and nothing is checked for legality. -/
def issueVerdict (s : State) (cw : CmdWord) : Verdict :=
  match decode cw with
  | .command i => if s.blocked && i ≠ .clrerr then .discard else .execute i
  | .illegal _ => if s.blocked then .discard else .illegal

/-- A request is complete: its answer is recorded and the index advances by exactly 1 (R21). -/
def State.answer (s : State) (a : Response) : State := { s with resp := a, pos := s.pos + 1 }

/-- The response of Issue to a word that was executed or raised ILLEGAL_COMMAND: DONE, or FAULT(code) where the fault entry
was taken (R217, R218). -/
def issueResponse (s : State) : Response := if s.err = 0 then .done else .fault s.err

/-- The end of Issue for an executed word. -/
def completeIssue : Host.Outcome State Fault Refusal → Host.Outcome State Fault Refusal
  | .next s => .next (s.answer (issueResponse s))
  | .fault x => .fault x
  | .refused x => .refused x

/-- The value HostRead returns: `sel = 0..7` is `r[sel]`, 8 is ERR, 9 is EINFO (R34). -/
def hostReadValue (s : State) (sel : Fin 10) : Nat :=
  if h : sel.val < 8 then s.getR ⟨sel.val, h⟩
  else if sel.val = 8 then s.errReg.toNat
  else s.einfo.toNat

/-- HostRead (R34): no side effect, in every state. -/
def hostRead (s : State) (sel : Fin 10) : State := s.answer (.value (hostReadValue s sel))

/-- Reset (R240): every piece of state at its reset value, the read-only configuration kept. The host's list and index are
the host's, and the count of draws goes on so that later draws stay fresh (assumption 8). -/
def hostReset (s : State) : State :=
  ({ State.resetOf s.cfg s.pp with draws := s.draws, prog := s.prog, pos := s.pos }).answer .none

end Sys2Proof.Machine
end

