-- ==== Sys2Proof/Machine/Step.lean ====
section
/-! DEFINITION. One step: the host's next request is served, to completion (00_scope.md R17, R18). -/

namespace Sys2Proof.Machine

/-- One step. With no request at the port CORE is idle and holds all its state (R231, R241). -/
def step (s : State) : Host.Outcome State Fault Refusal :=
  match s.request with
  | none => .next s
  | some (.read sel) => .next (hostRead s sel)
  | some .reset => .next (hostReset s)
  | some (.issue cw) =>
    match issueVerdict s cw with
    | .discard => .next (s.answer .blocked)
    | .illegal => completeIssue (raise .illegalCommand cw s)
    | .execute i => completeIssue (exec i s)

/-- The state with the word placed as the host's next request. Where the host's list is shorter than the index, what is
filled in lies before the index and is never served. -/
def State.withFetchWord (s : State) (nbits w : Nat) : State :=
  { s with
    prog := (s.prog ++ List.replicate (s.pos + 1 - s.prog.length) (HostReq.issue 0)).set s.pos
      (HostReq.issue (tableWord nbits w)) }

end Sys2Proof.Machine
end

