-- ==== Sys2Proof/Safety.lean ====
section
/-! DEFINITION. The terms that claims use: the invariant of a run, what a command leaves unchanged, the layout of command
words as numbers, and the table of error causes (60_exceptions.md R216). -/

namespace Sys2Proof.Machine

/-! ## The invariant -/

/-- What holds between any two commands of a legal instance: the legal values of MOD (R25), the widths of the registers
(R20), the FieldElement invariant (R26), the legal values of LEN (R28), the capacity and width of the banks (R50, R51) in
their canonical form, and EINFO 0 while no error is pending (R30). -/
structure State.Inv (s : State) : Prop where
  legal : Config.Legal s.cfg s.pp
  mod_ge : 2 ≤ s.mod
  mod_lt : s.mod < 2 ^ s.cfg.w
  r_lt : ∀ i, s.getR i < 2 ^ s.cfg.w
  e_lt : ∀ i, s.getE i < s.mod
  len_le : ∀ bk, s.len bk ≤ s.cfg.seqMax
  slot_lt : ∀ bk i, i < s.len bk → s.seqRead bk i < s.mod
  slots_wf : ∀ bk, (s.bank bk).slots.wf = true
  slots_in : ∀ bk, ∀ c ∈ (s.bank bk).slots, c.1 < s.cfg.seqMax ∧ c.2 < 2 ^ s.cfg.w
  einfo_zero : s.err = 0 → s.einfo = 0

/-! ## Frames: what two states agree on -/

/-- The instance's constants and the prime-parameter registers. -/
def SameInstance (s t : State) : Prop := t.cfg = s.cfg ∧ t.pp = s.pp

/-- Every integer register. -/
def SameR (s t : State) : Prop := ∀ i, t.getR i = s.getR i

/-- Every integer register but `r[d]`. -/
def SameRBut (d : RegNo) (s t : State) : Prop := ∀ i, i ≠ d → t.getR i = s.getR i

/-- Every element register. -/
def SameE (s t : State) : Prop := ∀ i, t.getE i = s.getE i

/-- Every element register but `e[d]`. -/
def SameEBut (d : RegNo) (s t : State) : Prop := ∀ i, i ≠ d → t.getE i = s.getE i

/-- The length and every slot of bank `bk`. -/
def SameBank (bk : BankSel) (s t : State) : Prop := t.len bk = s.len bk ∧ ∀ i, t.seqRead bk i = s.seqRead bk i

/-- Both banks. -/
def SameBanks (s t : State) : Prop := ∀ bk, SameBank bk s t

/-- ERR and EINFO. -/
def SameError (s t : State) : Prop := t.err = s.err ∧ t.einfo = s.einfo

/-- The host's side: its list, the index into it, the last answer. -/
def SameHost (s t : State) : Prop := t.prog = s.prog ∧ t.pos = s.pos ∧ t.resp = s.resp

/-- Nothing but `r[d]` (and the count of draws) may have changed. -/
def OnlyR (d : RegNo) (s t : State) : Prop :=
  SameInstance s t ∧ SameRBut d s t ∧ SameE s t ∧ t.mod = s.mod ∧ SameBanks s t ∧ SameError s t ∧ SameHost s t

/-- Nothing but `e[d]` (and the count of draws) may have changed. -/
def OnlyE (d : RegNo) (s t : State) : Prop :=
  SameInstance s t ∧ SameR s t ∧ SameEBut d s t ∧ t.mod = s.mod ∧ SameBanks s t ∧ SameError s t ∧ SameHost s t

/-- Nothing but slots `i < LEN[bk]` of bank `bk` (and the count of draws) may have changed. -/
def OnlySlots (bk : BankSel) (s t : State) : Prop :=
  SameInstance s t ∧ SameR s t ∧ SameE s t ∧ t.mod = s.mod ∧ (∀ b, t.len b = s.len b) ∧
    (∀ b i, b ≠ bk ∨ s.len bk ≤ i → t.seqRead b i = s.seqRead b i) ∧ SameError s t ∧ SameHost s t

/-- The fault entry was taken for the command word `cw` and nothing else changed (R218, R221). -/
def OnlyRaised (x : ErrorKind) (cw : CmdWord) (s t : State) : Prop :=
  t.err = x.code ∧ t.einfo = cw ∧ SameInstance s t ∧ SameR s t ∧ SameE s t ∧ t.mod = s.mod ∧ SameBanks s t ∧ SameHost s t

/-- The command `i` executed in `s` raises `x` and changes nothing else. -/
def RaisesAndChangesNothing (i : Instr) (s : State) (x : ErrorKind) : Prop :=
  ∃ t, exec i s = .next t ∧ OnlyRaised x (encode i) s t

/-- A transform or PERMUTE on bank `bk` raises `x`: every slot below LEN holds some reduced value, and everything else but
ERR and EINFO is unchanged (R202, R221). That the slots at or above LEN are unchanged is the model's choice (assumption 17). -/
def RaisesAndSpoils (i : Instr) (bk : BankSel) (s : State) (x : ErrorKind) : Prop :=
  ∃ t, exec i s = .next t ∧ t.err = x.code ∧ t.einfo = encode i ∧ SameInstance s t ∧ SameR s t ∧ SameE s t ∧
    t.mod = s.mod ∧ (∀ b, t.len b = s.len b) ∧ (∀ k, k < s.len bk → t.seqRead bk k < s.mod) ∧
    (∀ b k, b ≠ bk ∨ s.len bk ≤ k → t.seqRead b k = s.seqRead b k) ∧ SameHost s t

/-- The forward transform of variant A (`b = false`) or B (`b = true`). -/
def forwardInstr (b v : Bool) (bk : BankSel) (a : RegNo) : Instr := if b then .nttb v bk a else .ntta v bk a

/-- The inverse transform on variant A (`b = false`) or B (`b = true`). -/
def inverseInstr (b v : Bool) (bk : BankSel) (a : RegNo) : Instr := if b then .inttb v bk a else .intta v bk a

/-! ## Command words as numbers (R71, R72) -/

/-- The word of format R with these field values. -/
def wordR (op f bk d a b : Nat) : CmdWord :=
  BitVec.ofNat 32 (op * 2 ^ 26 + f * 2 ^ 25 + bk * 2 ^ 24 + d * 2 ^ 21 + a * 2 ^ 18 + b * 2 ^ 15)

/-- The word of format I with these field values. -/
def wordI (op d imm : Nat) : CmdWord := BitVec.ofNat 32 (op * 2 ^ 26 + d * 2 ^ 21 + imm)

/-- The word is this command. -/
def IsWordOf (cw : CmdWord) (i : Instr) : Prop := decode cw = .command i

/-- The number of a bank. -/
def bankNo : BankSel → Nat
  | .b0 => 0
  | .b1 => 1

/-- The number of a flag. -/
def flagNo (f : Bool) : Nat := if f then 1 else 0

/-- The other bank. -/
def otherBank : BankSel → BankSel
  | .b0 => .b1
  | .b1 => .b0

/-- The bank a command names in its `bk` field, if it names one. -/
def namedBank : Instr → Option BankSel
  | .seqnew bk _ => some bk
  | .seqlen bk _ => some bk
  | .seqld bk _ _ => some bk
  | .seqst bk _ _ => some bk
  | .permute bk => some bk
  | .check bk _ => some bk
  | .ntta _ bk _ => some bk
  | .nttb _ bk _ => some bk
  | .intta _ bk _ => some bk
  | .inttb _ bk _ => some bk
  | _ => none

/-- The bank of a transform or PERMUTE: the five commands that leave free values behind when they fault (R202). -/
def spoiledBank : Instr → Option BankSel
  | .permute bk => some bk
  | .ntta _ bk _ => some bk
  | .nttb _ bk _ => some bk
  | .intta _ bk _ => some bk
  | .inttb _ bk _ => some bk
  | _ => none

/-! ## Arithmetic the rules speak of -/

/-- `n` is a power of two. -/
def PowerOfTwo (n : Nat) : Prop := ∃ k, n = 2 ^ k

/-- The root-order test of R190 fails: `h = w^(n div 2)` is 1, or its square is not. -/
def RootOrderWrong (m n w : Nat) : Prop := w ^ (n / 2) % m = 1 ∨ (w ^ (n / 2) % m) ^ 2 % m ≠ 1

/-- `w` has multiplicative order exactly `n` modulo `m`. -/
def HasOrder (m n w : Nat) : Prop := w ^ n % m = 1 % m ∧ ∀ k, 0 < k → k < n → w ^ k % m ≠ 1 % m

/-- `v` is the inverse of `a` modulo `m` (R130). -/
def IsInverse (m a v : Nat) : Prop := v < m ∧ a * v % m = 1 % m

/-- Slot `k` after a forward transform of length `2^t` with root `w`, where `x i` is the old slot `i`: the loop nest of R196 and
R197 as a recurrence on the length. With `E` and `O` the transforms of the even-indexed and the odd-indexed slots by the root
`w^2`, slot `k` of the lower half is `E[k] + w^k * O[k]` and slot `k` of the upper half `E[k] - w^k * O[k]`, modulo `m`. -/
def transformSlot (m : Nat) : Nat → Nat → (Nat → Nat) → Nat → Nat
  | 0, _, x, _ => x 0
  | t + 1, w, x, k =>
    let even := transformSlot m t (w ^ 2 % m) (fun i => x (2 * i))
    let odd := transformSlot m t (w ^ 2 % m) (fun i => x (2 * i + 1))
    if k < 2 ^ t then (even k + w ^ k * odd k) % m
    else (even (k - 2 ^ t) + m - w ^ (k - 2 ^ t) * odd (k - 2 ^ t) % m) % m

/-! ## The causes of every error (R216), in the priority of R222 and R203 -/

/-- A forward transform raises `x`. -/
def ForwardRaises (v : Bool) (bk : BankSel) (w : Nat) (s : State) (x : ErrorKind) : Prop :=
  (x = .invalidLength ∧ ¬ PowerOfTwo (s.len bk)) ∨
  (x = .invalidRootOrder ∧ PowerOfTwo (s.len bk) ∧ v = true ∧ RootOrderWrong s.mod (s.len bk) w)

/-- An inverse transform raises `x`; the root order is that of the inverted root. A root without inverse comes before the length,
also for an empty bank (assumption 16). -/
def InverseRaises (v : Bool) (bk : BankSel) (w : Nat) (s : State) (x : ErrorKind) : Prop :=
  (x = .nonInvertible ∧ Nat.gcd w s.mod ≠ 1) ∨
  (Nat.gcd w s.mod = 1 ∧ x = .invalidLength ∧ ¬ PowerOfTwo (s.len bk)) ∨
  (Nat.gcd w s.mod = 1 ∧ PowerOfTwo (s.len bk) ∧ x = .invalidRootOrder ∧ v = true ∧
    ∃ winv, IsInverse s.mod w winv ∧ RootOrderWrong s.mod (s.len bk) winv) ∨
  (Nat.gcd w s.mod = 1 ∧ PowerOfTwo (s.len bk) ∧
    (v = true → ∃ winv, IsInverse s.mod w winv ∧ ¬ RootOrderWrong s.mod (s.len bk) winv) ∧
    x = .nonInvertible ∧ Nat.gcd (s.len bk % s.mod) s.mod ≠ 1)

/-- The table of R216: command `i`, executed in state `s`, raises `x`. -/
def Raises : Instr → State → ErrorKind → Prop
  | .permute bk, s, x => x = .invalidLength ∧ ¬ PowerOfTwo (s.len bk)
  | .check bk a, s, x => ForwardRaises true bk (s.getE a) s x
  | .ntta v bk a, s, x => ForwardRaises v bk (s.getE a) s x
  | .nttb v bk a, s, x => ForwardRaises v bk (s.getE a) s x
  | .intta v bk a, s, x => InverseRaises v bk (s.getE a) s x
  | .inttb v bk a, s, x => InverseRaises v bk (s.getE a) s x
  | .root _ a, s, x =>
    (x = .configMismatch ∧ s.mod ≠ s.pp.p) ∨
    (x = .invalidLength ∧ s.mod = s.pp.p ∧ (¬ PowerOfTwo (s.getR a) ∨ 2 ^ s.pp.n < s.getR a))
  | .invC _ a, s, x => x = .nonInvertible ∧ Nat.gcd (s.getE a) s.mod ≠ 1
  | .div c _ _ b, s, x => x = .nonInvertible ∧ c = true ∧ Nat.gcd (s.getE b) s.mod ≠ 1
  | .setmod a, s, x => x = .illegalOperand ∧ s.getR a < 2
  | .rdpp _ sel, _, x => x = .illegalOperand ∧ 4 < sel
  | .bitrev _ _ b, s, x => x = .illegalOperand ∧ s.cfg.w < s.getR b
  | .ceillg _ a, s, x => x = .illegalOperand ∧ s.getR a = 0
  | .seqnew _ a, s, x => x = .illegalOperand ∧ s.cfg.seqMax < s.getR a
  | .bfly d a _, _, x => x = .illegalOperand ∧ d = a
  | .seqld bk _ a, s, x => x = .bounds ∧ s.len bk ≤ s.getR a
  | .seqst bk _ b, s, x => x = .bounds ∧ s.len bk ≤ s.getR b
  | _, _, _ => False

end Sys2Proof.Machine
end

