-- ==== Sys2Proof/Certificates/Slice0/Obligations.lean ====
section
/-! DEFINITION. The statements for the provers. Each says what the spec's rules say a command or the machine does; the terms
they use (frames, the invariant, the table of causes) are in Safety.lean. -/

open Sys2Proof Sys2Proof.Machine

/-! ## Encoding -/

/-- Every command that has an encoding is read back whole: the decoder drops no bit of a field (R75, R77). -/
def Obligations.DecodeReturnsTheEncodedCommand : Prop :=
  ∀ i : Instr, i.wellFormed = true → decode (encode i) = .command i

/-- A word has one meaning: the command it decodes to encodes to that word (R75, R77, R80). -/
def Obligations.DecodedWordIsTheEncodingOfItsCommand : Prop :=
  ∀ (cw : CmdWord) (i : Instr), decode cw = .command i → i.wellFormed = true ∧ encode i = cw

/-- The fields each assigned opcode uses, from the `uses` column of R75: opcode, then the bits of the used fields.
f is bit 25, bk bit 24, d bits 23:21, a bits 20:18, b bits 17:15, imm16 bits 15:0. -/
def usedFields : List (Nat × CmdWord) :=
  let f : CmdWord := 0x02000000
  let bk : CmdWord := 0x01000000
  let d : CmdWord := 0x00E00000
  let a : CmdWord := 0x001C0000
  let b : CmdWord := 0x00038000
  let imm : CmdWord := 0x0000FFFF
  [(0x01, d ||| imm), (0x02, d ||| imm), (0x03, a), (0x04, d), (0x05, d ||| imm), (0x06, d ||| a), (0x07, 0)] ++
  [(0x10, d ||| a), (0x11, d ||| a), (0x12, d ||| a ||| b), (0x13, d ||| a ||| b), (0x14, d ||| a), (0x15, d ||| a ||| b),
    (0x16, f ||| d ||| a ||| b), (0x17, f ||| d ||| a), (0x18, d ||| a ||| b), (0x19, d ||| a ||| b), (0x1A, d ||| a ||| b)] ++
  [(0x20, d ||| a ||| b), (0x21, d ||| a), (0x22, d ||| a), (0x28, bk ||| a), (0x29, bk ||| d), (0x2A, bk ||| d ||| a),
    (0x2B, bk ||| a ||| b)] ++
  [(0x30, d ||| a ||| b), (0x31, bk), (0x32, bk ||| a), (0x34, f ||| bk ||| a), (0x35, f ||| bk ||| a),
    (0x36, f ||| bk ||| a), (0x37, f ||| bk ||| a)]

/-- R78: a word is illegal exactly if its opcode is unassigned or a bit outside the opcode and the used fields is set; in the
unblocked state it changes no state except that it raises ILLEGAL_COMMAND; the all-zero and the all-ones word are illegal. -/
def Obligations.IllegalWordsRaiseIllegalCommand : Prop :=
  (∀ cw : CmdWord, (∀ i, decode cw ≠ .command i) ↔
    ∀ u ∈ usedFields, cw.toNat / 2 ^ 26 = u.1 → cw &&& ~~~(0xFC000000 ||| u.2) ≠ 0) ∧
  (∀ (s : State) (cw : CmdWord), s.request = some (.issue cw) → s.err = 0 → (∀ i, decode cw ≠ .command i) →
    ∃ t, step s = .next t ∧ t.err = 5 ∧ t.einfo = cw ∧ SameInstance s t ∧ SameR s t ∧ SameE s t ∧ t.mod = s.mod ∧
      SameBanks s t ∧ t.resp = .fault 5) ∧
  (∀ i, decode 0x00000000 ≠ .command i) ∧ (∀ i, decode 0xFFFFFFFF ≠ .command i)

/-- Words the spec writes out (R77 and 95_test_vectors.md section 2.6) are the commands it says they are. -/
def Obligations.WordsOfTheSpecDecode : Prop :=
  IsWordOf 0x48408000 (.add 2 0 1) ∧ IsWordOf 0xD30C0000 (.ntta true .b1 3) ∧ IsWordOf 0x04A0A001 (.ldi 5 0xA001) ∧
  IsWordOf 0x5E200000 (.invC 1 0) ∧ IsWordOf 0x5C200000 (.inv 1 0) ∧ IsWordOf 0xAD1F8000 (.seqst .b1 7 7) ∧
  IsWordOf 0xDF1C0000 (.inttb true .b1 7) ∧ IsWordOf 0x1C000000 .clrerr ∧ IsWordOf 0x80FF8000 (.bitrev 7 7 7) ∧
  IsWordOf 0x1400FFFF (.rdpp 0 65535)

/-! ## The host port, faults and reset

What a request answers (R18) stands in the model's own field `resp` (assumption 5), and the host's list and the index into it in
`prog` and `pos` (assumption 4). -/

/-- A step runs the decoded command: what `exec` answers, with its response recorded and the index moved on. -/
def Obligations.StepExecutesTheDecodedCommand : Prop :=
  ∀ (s t : State) (cw : CmdWord) (i : Instr), s.request = some (.issue cw) → decode cw = .command i →
    s.err = 0 ∨ i = .clrerr → exec i s = .next t →
    step s = .next { t with resp := if t.err = 0 then .done else .fault t.err, pos := t.pos + 1 }

/-- R217, the complete behaviour of Issue. -/
def Obligations.IssueBehavesAsTheRuleSays : Prop :=
  ∀ (s : State) (cw : CmdWord), s.request = some (.issue cw) →
    (s.err ≠ 0 → IsWordOf cw .clrerr →
      step s = .next { s with err := 0, einfo := 0, resp := .done, pos := s.pos + 1 }) ∧
    (s.err ≠ 0 → ¬ IsWordOf cw .clrerr → step s = .next { s with resp := .blocked, pos := s.pos + 1 }) ∧
    (s.err = 0 → (∀ i, ¬ IsWordOf cw i) →
      step s = .next { s with err := 5, einfo := cw, resp := .fault 5, pos := s.pos + 1 }) ∧
    (∀ i, s.err = 0 → IsWordOf cw i → ∃ t, exec i s = .next t ∧ (t.err ≠ 0 → t.einfo = cw) ∧
      step s = .next { t with resp := if t.err = 0 then .done else .fault t.err, pos := s.pos + 1 })

/-- R219: in the blocked state every word but 0x1C000000 is discarded, HostRead keeps working, and only CLRERR or Reset ends
the state. -/
def Obligations.BlockedUntilClearedOrReset : Prop :=
  ∀ s : State, s.err ≠ 0 →
    (∀ cw, s.request = some (.issue cw) → cw ≠ 0x1C000000 →
      step s = .next { s with resp := .blocked, pos := s.pos + 1 }) ∧
    (∀ sel, s.request = some (.read sel) → ∃ v n, step s = .next { s with resp := .value v, pos := n }) ∧
    (s.request = some (.issue 0x1C000000) → ∃ t, step s = .next t ∧ t.err = 0 ∧ t.einfo = 0) ∧
    (∀ t, step s = .next t → t.err = 0 → s.request = some (.issue 0x1C000000) ∨ s.request = some .reset)

/-- R34: HostRead returns `r[sel]`, ERR or EINFO, in every state, and changes nothing of CORE. -/
def Obligations.HostReadReturnsTheSelectedRegister : Prop :=
  ∀ (s : State) (sel : Fin 10), s.request = some (.read sel) →
    ∃ v n, step s = .next { s with resp := .value v, pos := n } ∧
      (∀ i : RegNo, sel.val = i.val → v = s.getR i) ∧ (sel = 8 → v = s.errReg.toNat) ∧ (sel = 9 → v = s.einfo.toNat)

/-- R240: Reset, in any state, puts every piece of state at its reset value and keeps the read-only configuration. -/
def Obligations.ResetPutsEveryRegisterAtItsResetValue : Prop :=
  ∀ s : State, s.request = some .reset →
    ∃ t, step s = .next t ∧ (∀ i, t.getR i = 0) ∧ (∀ i, t.getE i = 0) ∧ t.mod = s.pp.p ∧ (∀ bk, t.len bk = 0) ∧
      t.err = 0 ∧ t.einfo = 0 ∧ t.faultO = false ∧ SameInstance s t

/-- R215 with R29 and R31: the codes of the error kinds as ERR shows them after a fault entry, the bits that always read 0,
and `fault_o`. -/
def Obligations.ErrorRegisterShowsTheCodes : Prop :=
  (∀ (s : State) (cw : CmdWord), ∃ t : ErrorKind → State, (∀ x, raise x cw s = .next (t x)) ∧
    (t .invalidLength).errReg = 1 ∧ (t .invalidRootOrder).errReg = 2 ∧ (t .nonInvertible).errReg = 3 ∧
    (t .configMismatch).errReg = 4 ∧ (t .illegalCommand).errReg = 5 ∧ (t .illegalOperand).errReg = 6 ∧
    (t .bounds).errReg = 7) ∧
  (∀ s : State, s.errReg.toNat < 8 ∧ (s.faultO = true ↔ s.errReg ≠ 0))

/-- R21: the index into the host's list starts at 0 and advances by exactly 1 after every Issue whatever the response; no
command changes it. That a read and a reset advance it too is the model's choice (assumption 4). -/
def Obligations.IndexAdvancesByOneWhateverTheResponse : Prop :=
  State.reset.pos = 0 ∧
  (∀ (s t : State) (q : HostReq), s.request = some q → step s = .next t → t.pos = s.pos + 1 ∧ t.prog = s.prog) ∧
  (∀ (i : Instr) (s t : State), exec i s = .next t → t.pos = s.pos ∧ t.prog = s.prog)

/-- R246: no command waits and CORE cannot hang: every step answers a next state. That a step without a request is an idle one
is the model's choice (assumption 4). -/
def Obligations.EveryStepAnswersANextState : Prop :=
  ∀ s : State, ∃ t, step s = .next t

/-! ## Invariants -/

/-- Every legal instance meets the invariant at reset, and the reference instance is legal. -/
def Obligations.ResetStateMeetsTheInvariant : Prop :=
  Config.Legal State.reset.cfg State.reset.pp ∧
  ∀ (c : Config.Params) (pp : Config.PrimeParams), Config.Legal c pp → (State.resetOf c pp).Inv

/-- Every step keeps the invariant: registers within W bits, elements reduced, lengths within the bank, the slots in canonical
form. -/
def Obligations.EveryStepKeepsTheInvariant : Prop :=
  ∀ s t : State, s.Inv → step s = .next t → t.Inv

/-- R26: at every point between two commands of any run of any legal instance, every element register and every slot of a
sequence is below MOD. -/
def Obligations.ElementsAreReducedInEveryRun : Prop :=
  ∀ (c : Config.Params) (pp : Config.PrimeParams) (prog : List HostReq) (k : Nat), Config.Legal c pp →
    ∃ t : State, Sys2Proof.core.run k ({ State.resetOf c pp with prog := prog } : State) = .next t ∧
      (∀ i, t.getE i < t.mod) ∧ (∀ bk i, i < t.len bk → t.seqRead bk i < t.mod)

/-! ## Rules about every command -/

/-- R216 with R222 and R203: a command raises exactly the error the table of causes says, and no error where the table names
none. That INTTA and INTTB on an empty bank with a root without inverse raise NON_INVERTIBLE, where R38 speaks of
INVALID_LENGTH, is the model's reading (assumption 16). -/
def Obligations.CommandsRaiseExactlyTheTabledErrors : Prop :=
  ∀ (i : Instr) (s : State), s.Inv → s.err = 0 →
    ∃ t, exec i s = .next t ∧ (∀ x : ErrorKind, t.err = x.code ↔ Raises i s x) ∧ (t.err = 0 ↔ ∀ x, ¬ Raises i s x)

/-- R221: what a faulting command leaves behind. All commands but five leave everything else as it was; of those five only the
slots below LEN of the addressed bank may differ (that the slots above are unchanged is the model's choice, assumption 17). EINFO
identifies the command. -/
def Obligations.FaultLeavesOnlyErrorAndSpoiledSlots : Prop :=
  ∀ (i : Instr) (s t : State), s.err = 0 → exec i s = .next t → t.err ≠ 0 →
    t.einfo = encode i ∧ SameInstance s t ∧ SameR s t ∧ SameE s t ∧ t.mod = s.mod ∧ (∀ b, t.len b = s.len b) ∧
    SameHost s t ∧
    (spoiledBank i = none → SameBanks s t) ∧
    (∀ bk, spoiledBank i = some bk → ∀ b k, b ≠ bk ∨ s.len bk ≤ k → t.seqRead b k = s.seqRead b k)

/-- R202: after a fault of a transform or PERMUTE every slot of the addressed bank holds some reduced value; LEN, the other
bank and all registers but ERR and EINFO are unchanged. That the slots at or above LEN are unchanged too is the model's choice
(assumption 17). -/
def Obligations.FailedTransformLeavesReducedSlots : Prop :=
  ∀ (i : Instr) (bk : BankSel) (s t : State), s.Inv → s.err = 0 → spoiledBank i = some bk → exec i s = .next t →
    t.err ≠ 0 → ∃ x, RaisesAndSpoils i bk s x

/-- R25, R27, R28, R150: only these commands write these registers. -/
def Obligations.RegistersAreWrittenOnlyByTheirCommands : Prop :=
  ∀ (i : Instr) (s t : State), exec i s = .next t →
    SameInstance s t ∧
    (t.mod ≠ s.mod → ∃ a, i = .setmod a) ∧
    (∀ bk, t.len bk ≠ s.len bk → (∃ a, i = .seqnew bk a) ∨ ∃ a, i = .setmod a) ∧
    (s.err ≠ 0 → t.err = 0 → i = .clrerr) ∧
    (∀ bk k, k < s.len bk → t.seqRead bk k ≠ s.seqRead bk k →
      (∃ a, i = .seqnew bk a) ∨ (∃ a b, i = .seqst bk a b) ∨ spoiledBank i = some bk)

/-- R59: a command that names bank `bk` reads and writes no slot and no length of the other bank. -/
def Obligations.BanksDoNotInteract : Prop :=
  ∀ (i : Instr) (bk : BankSel) (s t : State) (b : Bank), namedBank i = some bk → exec i s = .next t →
    t.bank (otherBank bk) = s.bank (otherBank bk) ∧
    exec i (s.setBank (otherBank bk) b) = .next (t.setBank (otherBank bk) b)

/-- R224: a draw never influences whether a fault is raised by the command that draws it. -/
def Obligations.DrawsNeverDecideAFault : Prop :=
  ∀ (i : Instr) (s t u : State) (n : Nat), exec i s = .next t → exec i { s with draws := n } = .next u →
    u.err = t.err ∧ u.einfo = t.einfo

/-! ## Configuration and moves -/

/-- R151, R152: LDI and LDIS. -/
def Obligations.LoadImmediateCommands : Prop :=
  ∀ (s : State) (d : RegNo) (imm : Nat), imm < 65536 →
    IsWordOf (wordI 0x01 d imm) (.ldi d imm) ∧ IsWordOf (wordI 0x02 d imm) (.ldis d imm) ∧
    (∃ t, exec (.ldi d imm) s = .next t ∧ t.getR d = imm ∧ OnlyR d s t) ∧
    (∃ t, exec (.ldis d imm) s = .next t ∧ t.getR d = (s.getR d * 2 ^ 16 + imm) % 2 ^ s.cfg.w ∧ OnlyR d s t)

/-- R154: SETMOD. That every slot reads as before rests on R150 (no command of the family touches a slot) and is the model's choice
(assumption 17): no slot is reachable after it. -/
def Obligations.SetmodInstantiatesTheField : Prop :=
  ∀ (s : State) (a : RegNo),
    IsWordOf (wordR 0x03 0 0 0 a 0) (.setmod a) ∧
    (s.getR a < 2 → RaisesAndChangesNothing (.setmod a) s .illegalOperand) ∧
    (2 ≤ s.getR a → ∃ t, exec (.setmod a) s = .next t ∧ t.mod = s.getR a ∧ (∀ i, t.getE i = 0) ∧ (∀ bk, t.len bk = 0) ∧
      SameInstance s t ∧ SameR s t ∧ SameError s t ∧ SameHost s t ∧ ∀ bk k, t.seqRead bk k = s.seqRead bk k)

/-- R155, R172: GETMOD and SEQLEN copy a register. -/
def Obligations.GetmodAndSeqlenCopyTheRegister : Prop :=
  ∀ (s : State) (d : RegNo) (bk : BankSel),
    IsWordOf (wordR 0x04 0 0 d 0 0) (.getmod d) ∧ IsWordOf (wordR 0x29 0 (bankNo bk) d 0 0) (.seqlen bk d) ∧
    (∃ t, exec (.getmod d) s = .next t ∧ t.getR d = s.mod ∧ OnlyR d s t) ∧
    (∃ t, exec (.seqlen bk d) s = .next t ∧ t.getR d = s.len bk ∧ OnlyR d s t)

/-- R156: RDPP. -/
def Obligations.RdppReadsTheSelectedParameter : Prop :=
  ∀ (s : State) (d : RegNo) (sel : Nat), sel < 65536 →
    IsWordOf (wordI 0x05 d sel) (.rdpp d sel) ∧
    (4 < sel → RaisesAndChangesNothing (.rdpp d sel) s .illegalOperand) ∧
    (∀ v, [s.pp.n, s.pp.k, s.pp.p, s.pp.g, s.pp.base][sel]? = some v →
      ∃ t, exec (.rdpp d sel) s = .next t ∧ t.getR d = v ∧ OnlyR d s t)

/-- R157: ROOT, its two errors in order, its result, and that the result passes the root-order test for `L >= 2`. -/
def Obligations.RootDerivesARootOfTheLength : Prop :=
  ∀ (s : State) (d a : RegNo), s.Inv →
    IsWordOf (wordR 0x06 0 0 d a 0) (.root d a) ∧
    (s.mod ≠ s.pp.p → RaisesAndChangesNothing (.root d a) s .configMismatch) ∧
    (s.mod = s.pp.p → ¬ PowerOfTwo (s.getR a) ∨ 2 ^ s.pp.n < s.getR a →
      RaisesAndChangesNothing (.root d a) s .invalidLength) ∧
    (s.mod = s.pp.p → PowerOfTwo (s.getR a) → s.getR a ≤ 2 ^ s.pp.n →
      ∃ t, exec (.root d a) s = .next t ∧ t.getE d = (s.pp.g % s.mod) ^ (2 ^ s.pp.n / s.getR a) % s.mod ∧ OnlyE d s t ∧
        (2 ≤ s.getR a → ¬ RootOrderWrong s.mod (s.getR a) (t.getE d)))

/-- R158, R220: CLRERR clears ERR and EINFO and restores nothing else. -/
def Obligations.ClrerrClearsTheErrorOnly : Prop :=
  IsWordOf 0x1C000000 .clrerr ∧
  ∀ s : State, ∃ t, exec .clrerr s = .next t ∧ t.err = 0 ∧ t.einfo = 0 ∧ SameInstance s t ∧ SameR s t ∧ SameE s t ∧
    t.mod = s.mod ∧ SameBanks s t ∧ SameHost s t ∧ t.faultO = false ∧ (s.err = 0 → s.einfo = 0 → t = s)

/-! ## Field arithmetic -/

/-- R118, R119: FROMINT reduces, TOINT copies. -/
def Obligations.FromintReducesAndTointCopies : Prop :=
  ∀ (s : State) (d a : RegNo),
    IsWordOf (wordR 0x10 0 0 d a 0) (.fromint d a) ∧ IsWordOf (wordR 0x11 0 0 d a 0) (.toint d a) ∧
    (∃ t, exec (.fromint d a) s = .next t ∧ t.getE d = s.getR a % s.mod ∧ OnlyE d s t) ∧
    (∃ t, exec (.toint d a) s = .next t ∧ t.getR d = s.getE a ∧ OnlyR d s t)

/-- R120 to R125: ADD, SUB and NEG, by the single conditional subtraction the rules give. -/
def Obligations.AddSubNegAreExactModulo : Prop :=
  ∀ (s : State) (d a b : RegNo), s.Inv →
    IsWordOf (wordR 0x12 0 0 d a b) (.add d a b) ∧ IsWordOf (wordR 0x13 0 0 d a b) (.sub d a b) ∧
    IsWordOf (wordR 0x14 0 0 d a 0) (.neg d a) ∧
    (∃ t, exec (.add d a b) s = .next t ∧ OnlyE d s t ∧
      t.getE d = if s.getE a + s.getE b < s.mod then s.getE a + s.getE b else s.getE a + s.getE b - s.mod) ∧
    (∃ t, exec (.sub d a b) s = .next t ∧ OnlyE d s t ∧
      t.getE d = if s.getE b ≤ s.getE a then s.getE a - s.getE b else s.getE a + s.mod - s.getE b) ∧
    (∃ t, exec (.neg d a) s = .next t ∧ OnlyE d s t ∧ t.getE d < s.mod ∧ (s.getE a + t.getE d) % s.mod = 0 ∧
      t.getE d = if s.getE a = 0 then 0 else s.mod - s.getE a)

/-- R127, R139: MUL is the product and POW the power, reduced modulo MOD. -/
def Obligations.MulAndPowAreExactModulo : Prop :=
  ∀ (s : State) (d a b : RegNo), s.Inv →
    IsWordOf (wordR 0x15 0 0 d a b) (.mul d a b) ∧ IsWordOf (wordR 0x18 0 0 d a b) (.pow d a b) ∧
    (∃ t, exec (.mul d a b) s = .next t ∧ t.getE d = s.getE a * s.getE b % s.mod ∧ OnlyE d s t) ∧
    (∃ t, exec (.pow d a b) s = .next t ∧ t.getE d = s.getE a ^ s.getR b % s.mod ∧ OnlyE d s t)

/-- R134: INV.C gives the inverse, or faults if there is none. -/
def Obligations.CheckedInverseInvertsOrFaults : Prop :=
  ∀ (s : State) (d a : RegNo), s.Inv →
    IsWordOf (wordR 0x17 1 0 d a 0) (.invC d a) ∧
    (Nat.gcd (s.getE a) s.mod = 1 → ∃ t, exec (.invC d a) s = .next t ∧ IsInverse s.mod (s.getE a) (t.getE d) ∧ OnlyE d s t) ∧
    (Nat.gcd (s.getE a) s.mod ≠ 1 → RaisesAndChangesNothing (.invC d a) s .nonInvertible)

/-- R135: INV gives what INV.C gives where there is an inverse; where there is none it completes with some reduced value and
no error, whatever the value drawn. -/
def Obligations.UncheckedInverseNeverFaults : Prop :=
  ∀ (s : State) (d a : RegNo), s.Inv →
    IsWordOf (wordR 0x17 0 0 d a 0) (.inv d a) ∧
    (Nat.gcd (s.getE a) s.mod = 1 → exec (.inv d a) s = exec (.invC d a) s ∧
      ∃ t, exec (.inv d a) s = .next t ∧ IsInverse s.mod (s.getE a) (t.getE d) ∧ OnlyE d s t) ∧
    (Nat.gcd (s.getE a) s.mod ≠ 1 → ∃ t, exec (.inv d a) s = .next t ∧ t.getE d < s.mod ∧ OnlyE d s t)

/-- R137: DIV and DIV.C. -/
def Obligations.DivMultipliesByTheInverse : Prop :=
  ∀ (s : State) (c : Bool) (d a b : RegNo), s.Inv →
    IsWordOf (wordR 0x16 (flagNo c) 0 d a b) (.div c d a b) ∧
    (Nat.gcd (s.getE b) s.mod = 1 → ∃ t v, exec (.div c d a b) s = .next t ∧ IsInverse s.mod (s.getE b) v ∧
      t.getE d = s.getE a * v % s.mod ∧ OnlyE d s t) ∧
    (Nat.gcd (s.getE b) s.mod ≠ 1 → c = true → RaisesAndChangesNothing (.div c d a b) s .nonInvertible) ∧
    (Nat.gcd (s.getE b) s.mod ≠ 1 → c = false → ∃ t, exec (.div c d a b) s = .next t ∧ t.getE d < s.mod ∧ OnlyE d s t)

/-- R204, inverse of inverse: INV.C twice restores the element. -/
def Obligations.InverseOfInverseIsTheElement : Prop :=
  ∀ (s : State) (d a k : RegNo), s.Inv → Nat.gcd (s.getE a) s.mod = 1 →
    ∃ t u, exec (.invC d a) s = .next t ∧ exec (.invC k d) t = .next u ∧ u.getE k = s.getE a

/-- R140, R141: EQ and NE. -/
def Obligations.EqAndNeCompareReducedValues : Prop :=
  ∀ (s : State) (d a b : RegNo),
    IsWordOf (wordR 0x19 0 0 d a b) (.eq d a b) ∧ IsWordOf (wordR 0x1A 0 0 d a b) (.ne d a b) ∧
    (∃ t, exec (.eq d a b) s = .next t ∧ t.getR d = (if s.getE a = s.getE b then 1 else 0) ∧ OnlyR d s t) ∧
    (∃ t, exec (.ne d a b) s = .next t ∧ t.getR d = (if s.getE a = s.getE b then 0 else 1) ∧ OnlyR d s t)

/-! ## Numeric utilities -/

/-- R102 with R101: BITREV; outside its domain it faults or completes with some W-bit value, whatever the value drawn. -/
def Obligations.BitrevReversesTheLowBits : Prop :=
  ∀ (s : State) (d a b : RegNo),
    IsWordOf (wordR 0x20 0 0 d a b) (.bitrev d a b) ∧
    (s.cfg.w < s.getR b → RaisesAndChangesNothing (.bitrev d a b) s .illegalOperand) ∧
    (s.getR b ≤ s.cfg.w → s.getR a < 2 ^ s.getR b → ∃ t, exec (.bitrev d a b) s = .next t ∧
      t.getR d < 2 ^ s.getR b ∧
      (∀ i, i < s.getR b → (t.getR d).testBit (s.getR b - 1 - i) = (s.getR a).testBit i) ∧ OnlyR d s t) ∧
    (s.getR b ≤ s.cfg.w → 2 ^ s.getR b ≤ s.getR a → ∃ t, exec (.bitrev d a b) s = .next t ∧
      t.getR d < 2 ^ s.cfg.w ∧ OnlyR d s t)

/-- R101: bit reversal is an involution on `[0, 2^nb)`. -/
def Obligations.BitrevTwiceRestoresTheValue : Prop :=
  ∀ (s : State) (d a b k : RegNo), d ≠ b → s.getR b ≤ s.cfg.w → s.getR a < 2 ^ s.getR b →
    ∃ t u, exec (.bitrev d a b) s = .next t ∧ exec (.bitrev k d b) t = .next u ∧ u.getR k = s.getR a

/-- R104 with R103: CEILLG gives the least `t` with `2^t >= n`, and faults for 0. -/
def Obligations.CeillgIsTheLeastExponent : Prop :=
  ∀ (s : State) (d a : RegNo),
    IsWordOf (wordR 0x21 0 0 d a 0) (.ceillg d a) ∧
    (s.getR a = 0 → RaisesAndChangesNothing (.ceillg d a) s .illegalOperand) ∧
    (s.getR a ≠ 0 → ∃ t, exec (.ceillg d a) s = .next t ∧ s.getR a ≤ 2 ^ t.getR d ∧
      (∀ k, s.getR a ≤ 2 ^ k → t.getR d ≤ k) ∧ OnlyR d s t)

/-- R106 with R105: IS2POW. -/
def Obligations.IsTwoPowerTestsForOneSetBit : Prop :=
  ∀ (s : State) (d a : RegNo),
    IsWordOf (wordR 0x22 0 0 d a 0) (.is2pow d a) ∧
    ∃ t, exec (.is2pow d a) s = .next t ∧ (PowerOfTwo (s.getR a) → t.getR d = 1) ∧
      (¬ PowerOfTwo (s.getR a) → t.getR d = 0) ∧ OnlyR d s t

/-! ## Sequences -/

/-- R171: SEQNEW. That the slots from the new length on read as before is the model's choice (assumption 17): R51 calls their
contents unspecified. -/
def Obligations.SeqnewCreatesAZeroSequence : Prop :=
  ∀ (s : State) (bk : BankSel) (a : RegNo),
    IsWordOf (wordR 0x28 0 (bankNo bk) 0 a 0) (.seqnew bk a) ∧
    (s.cfg.seqMax < s.getR a → RaisesAndChangesNothing (.seqnew bk a) s .illegalOperand) ∧
    (s.getR a ≤ s.cfg.seqMax → ∃ t, exec (.seqnew bk a) s = .next t ∧ t.len bk = s.getR a ∧
      (∀ k, k < s.getR a → t.seqRead bk k = 0) ∧ (∀ k, s.getR a ≤ k → t.seqRead bk k = s.seqRead bk k) ∧
      SameBank (otherBank bk) s t ∧ SameInstance s t ∧ SameR s t ∧ SameE s t ∧ t.mod = s.mod ∧ SameError s t ∧
      SameHost s t)

/-- R174 with R173: SEQLD. -/
def Obligations.SeqldReadsWithinBounds : Prop :=
  ∀ (s : State) (bk : BankSel) (d a : RegNo),
    IsWordOf (wordR 0x2A 0 (bankNo bk) d a 0) (.seqld bk d a) ∧
    (s.len bk ≤ s.getR a → RaisesAndChangesNothing (.seqld bk d a) s .bounds) ∧
    (s.getR a < s.len bk → ∃ t, exec (.seqld bk d a) s = .next t ∧ t.getE d = s.seqRead bk (s.getR a) ∧ OnlyE d s t)

/-- R175 with R173: SEQST stores to the slot `(bk, r[b])` and to no other. -/
def Obligations.SeqstWritesExactlyOneSlot : Prop :=
  ∀ (s : State) (bk : BankSel) (a b : RegNo), s.Inv →
    IsWordOf (wordR 0x2B 0 (bankNo bk) 0 a b) (.seqst bk a b) ∧
    (s.len bk ≤ s.getR b → RaisesAndChangesNothing (.seqst bk a b) s .bounds) ∧
    (s.getR b < s.len bk → ∃ t, exec (.seqst bk a b) s = .next t ∧ t.seqRead bk (s.getR b) = s.getE a ∧
      (∀ c k, c ≠ bk ∨ k ≠ s.getR b → t.seqRead c k = s.seqRead c k) ∧ (∀ c, t.len c = s.len c) ∧
      SameInstance s t ∧ SameR s t ∧ SameE s t ∧ t.mod = s.mod ∧ SameError s t ∧ SameHost s t)

/-! ## The NTT engine -/

/-- R187 with R186: BFLY. -/
def Obligations.BflyCombinesAndReplaces : Prop :=
  ∀ (s : State) (d a b : RegNo), s.Inv →
    IsWordOf (wordR 0x30 0 0 d a b) (.bfly d a b) ∧
    (d = a → RaisesAndChangesNothing (.bfly d a b) s .illegalOperand) ∧
    (d ≠ a → ∃ t, exec (.bfly d a b) s = .next t ∧
      t.getE d = (s.getE d + s.getE b * s.getE a) % s.mod ∧
      (t.getE a + s.getE b * s.getE a) % s.mod = s.getE d ∧ t.getE a < s.mod ∧
      (∀ i, i ≠ d → i ≠ a → t.getE i = s.getE i) ∧ SameInstance s t ∧ SameR s t ∧ t.mod = s.mod ∧ SameBanks s t ∧
      SameError s t ∧ SameHost s t)

/-- R189: PERMUTE. For a length `2^w` new slot `k` holds the old slot whose index is `k` with its `w` bits reversed. That
a fault leaves the slots at or above LEN unchanged is the model's choice (assumption 17). -/
def Obligations.PermuteReversesTheIndexBits : Prop :=
  ∀ (s : State) (bk : BankSel), s.Inv →
    IsWordOf (wordR 0x31 0 (bankNo bk) 0 0 0) (.permute bk) ∧
    (¬ PowerOfTwo (s.len bk) → RaisesAndSpoils (.permute bk) bk s .invalidLength) ∧
    (∀ w, s.len bk = 2 ^ w → ∃ t, exec (.permute bk) s = .next t ∧ OnlySlots bk s t ∧
      ∀ k j, k < 2 ^ w → j < 2 ^ w → (∀ i, i < w → j.testBit i = k.testBit (w - 1 - i)) →
        t.seqRead bk k = s.seqRead bk j)

/-- R204, permutation involution. -/
def Obligations.PermuteTwiceRestoresTheBank : Prop :=
  ∀ (s : State) (bk : BankSel), PowerOfTwo (s.len bk) →
    ∃ t u, exec (.permute bk) s = .next t ∧ exec (.permute bk) t = .next u ∧ ∀ k, u.seqRead bk k = s.seqRead bk k

/-- R191 with R190: CHECK validates the length, then the root order, and changes nothing when both pass. -/
def Obligations.CheckValidatesLengthThenRootOrder : Prop :=
  ∀ (s : State) (bk : BankSel) (a : RegNo), s.Inv →
    IsWordOf (wordR 0x32 0 (bankNo bk) 0 a 0) (.check bk a) ∧
    (¬ PowerOfTwo (s.len bk) → RaisesAndChangesNothing (.check bk a) s .invalidLength) ∧
    (PowerOfTwo (s.len bk) → RootOrderWrong s.mod (s.len bk) (s.getE a) →
      RaisesAndChangesNothing (.check bk a) s .invalidRootOrder) ∧
    (PowerOfTwo (s.len bk) → ¬ RootOrderWrong s.mod (s.len bk) (s.getE a) → exec (.check bk a) s = .next s)

/-- R192: for a power of two `n >= 2` the check passes exactly for the roots of multiplicative order `n`. -/
def Obligations.CheckPassesExactlyForRootsOfThatOrder : Prop :=
  ∀ (s : State) (bk : BankSel) (a : RegNo), s.Inv → s.err = 0 → PowerOfTwo (s.len bk) → 2 ≤ s.len bk →
    (exec (.check bk a) s = .next s ↔ HasOrder s.mod (s.len bk) (s.getE a))

/-- R199, R201, R195: where no test fails, NTTA, NTTB, INTTA and INTTB complete, for every root with the flag clear; they write
the slots of the addressed sequence with reduced values and nothing else. -/
def Obligations.TransformsCompleteAndKeepToTheirBank : Prop :=
  ∀ (s : State) (b v : Bool) (bk : BankSel) (a : RegNo), s.Inv → PowerOfTwo (s.len bk) →
    IsWordOf (wordR (0x34 + flagNo b) (flagNo v) (bankNo bk) 0 a 0) (forwardInstr b v bk a) ∧
    IsWordOf (wordR (0x36 + flagNo b) (flagNo v) (bankNo bk) 0 a 0) (inverseInstr b v bk a) ∧
    ((v = true → ¬ RootOrderWrong s.mod (s.len bk) (s.getE a)) →
      ∃ t, exec (forwardInstr b v bk a) s = .next t ∧ OnlySlots bk s t ∧ ∀ k, k < s.len bk → t.seqRead bk k < s.mod) ∧
    (∀ winv, IsInverse s.mod (s.getE a) winv → (v = true → ¬ RootOrderWrong s.mod (s.len bk) winv) →
      Nat.gcd (s.len bk % s.mod) s.mod = 1 →
      ∃ t, exec (inverseInstr b v bk a) s = .next t ∧ OnlySlots bk s t ∧ ∀ k, k < s.len bk → t.seqRead bk k < s.mod)

/-- R195: the flag only decides whether the root-order test is made. Where the test passes both forms do the same; where it
fails the form with the flag faults (R199), with the effect of R202, and the form without completes. That the fault leaves the slots at
or above LEN unchanged is the model's choice (assumption 17). -/
def Obligations.ValidateFlagOnlyAddsTheRootTest : Prop :=
  ∀ (s : State) (b : Bool) (bk : BankSel) (a : RegNo), s.Inv → PowerOfTwo (s.len bk) →
    (¬ RootOrderWrong s.mod (s.len bk) (s.getE a) →
      exec (forwardInstr b true bk a) s = exec (forwardInstr b false bk a) s) ∧
    (RootOrderWrong s.mod (s.len bk) (s.getE a) →
      RaisesAndSpoils (forwardInstr b true bk a) bk s .invalidRootOrder ∧
      ∃ t, exec (forwardInstr b false bk a) s = .next t ∧ SameError s t)

/-- R199: for a root of order `n` modulo a prime, a forward transform leaves the discrete Fourier transform in natural order. -/
def Obligations.ForwardTransformIsTheFourierTransform : Prop :=
  ∀ (s : State) (b v : Bool) (bk : BankSel) (a : RegNo), s.Inv → s.mod.Prime → PowerOfTwo (s.len bk) → 2 ≤ s.len bk →
    HasOrder s.mod (s.len bk) (s.getE a) →
    ∃ t, exec (forwardInstr b v bk a) s = .next t ∧ ∀ k, k < s.len bk →
      t.seqRead bk k = (∑ i ∈ Finset.range (s.len bk), s.seqRead bk i * s.getE a ^ (i * k)) % s.mod

/-- R198: the variants give identical results for identical input, root and length, whatever they are, and raise the same
error; so do the inverse transforms built on them. -/
def Obligations.VariantsAreEquivalent : Prop :=
  ∀ (s : State) (v : Bool) (bk : BankSel) (a : RegNo), s.err = 0 →
    (∃ t u, exec (.ntta v bk a) s = .next t ∧ exec (.nttb v bk a) s = .next u ∧ u.err = t.err ∧ (t.err = 0 → u = t)) ∧
    (∃ t u, exec (.intta v bk a) s = .next t ∧ exec (.inttb v bk a) s = .next u ∧ u.err = t.err ∧ (t.err = 0 → u = t))

/-- R200: the inverse transform is the forward transform with the inverted root, every element then scaled by the inverse of
the length; with the flag set it is so wherever the inverted root passes the root-order test. -/
def Obligations.InverseTransformIsForwardWithInvertedRootScaled : Prop :=
  ∀ (s t : State) (b v : Bool) (bk : BankSel) (a : RegNo) (winv ninv : Nat), s.Inv → PowerOfTwo (s.len bk) →
    IsInverse s.mod (s.getE a) winv → IsInverse s.mod (s.len bk % s.mod) ninv →
    (v = true → ¬ RootOrderWrong s.mod (s.len bk) winv) →
    exec (forwardInstr b false bk a) (s.setE a winv) = .next t →
    ∃ u, exec (inverseInstr b v bk a) s = .next u ∧ ∀ k, k < s.len bk →
      u.seqRead bk k = t.seqRead bk k * ninv % s.mod

/-- R204, round trip: a forward transform followed by an inverse transform with the same root restores the bank, in any pairing
of variants and flags. -/
def Obligations.RoundTripRestoresTheSequence : Prop :=
  ∀ (s : State) (b c v w : Bool) (bk : BankSel) (a : RegNo), s.Inv → s.mod.Prime → PowerOfTwo (s.len bk) → 2 ≤ s.len bk →
    HasOrder s.mod (s.len bk) (s.getE a) →
    ∃ t u, exec (forwardInstr b v bk a) s = .next t ∧ exec (inverseInstr c w bk a) t = .next u ∧
      (∀ k, u.seqRead bk k = s.seqRead bk k) ∧ SameError s u

/-- R204, convolution theorem: if `x` and `y` are transformed with one root and a third sequence holds the slot-by-slot products
of the results, its inverse transform is the cyclic convolution of `x` and `y`. -/
def Obligations.PointwiseProductGivesCyclicConvolution : Prop :=
  ∀ (sx sy sz tx ty : State) (b c d v w z : Bool) (bk : BankSel) (a : RegNo),
    sx.Inv → sy.Inv → sz.Inv → sx.mod.Prime → sy.mod = sx.mod → sz.mod = sx.mod →
    PowerOfTwo (sx.len bk) → 2 ≤ sx.len bk → sy.len bk = sx.len bk → sz.len bk = sx.len bk →
    HasOrder sx.mod (sx.len bk) (sx.getE a) → sy.getE a = sx.getE a → sz.getE a = sx.getE a →
    exec (forwardInstr b v bk a) sx = .next tx → exec (forwardInstr c w bk a) sy = .next ty →
    (∀ k, k < sx.len bk → sz.seqRead bk k = tx.seqRead bk k * ty.seqRead bk k % sx.mod) →
    ∃ u, exec (inverseInstr d z bk a) sz = .next u ∧ ∀ k, k < sx.len bk →
      u.seqRead bk k = (∑ i ∈ Finset.range (sx.len bk),
        sx.seqRead bk i * sy.seqRead bk ((k + sx.len bk - i) % sx.len bk)) % sx.mod

/-- R196, R197, R195: for every root and every modulus, a forward transform leaves in each slot what the recurrence of its loop nest
gives; with the flag set it does so wherever the root passes the root-order test. -/
def Obligations.ForwardTransformFollowsTheRecurrence : Prop :=
  ∀ (s : State) (b v : Bool) (bk : BankSel) (a : RegNo) (n : Nat), s.Inv → s.len bk = 2 ^ n →
    (v = true → ¬ RootOrderWrong s.mod (s.len bk) (s.getE a)) →
    ∃ t, exec (forwardInstr b v bk a) s = .next t ∧ OnlySlots bk s t ∧ ∀ k, k < s.len bk →
      t.seqRead bk k = transformSlot s.mod n (s.getE a) (s.seqRead bk) k
end

