-- ==== Sys2Proof/Laws/Encode.lean ====
section
/-! SUPPORT. The fields of an encoded word: each field of format R and of format I is read back, and a mask acts field by
field (30_encoding.md R71, R72, R77). -/

namespace Sys2Proof

/-- A word masked field by field, format R. -/
theorem encodeR_and (op f bk : Nat) (d a b : RegNo) (m : CmdWord) : encodeR op f bk d a b &&& m =
    (BitVec.ofNat 32 op <<< 26) &&& m ||| (BitVec.ofNat 32 f <<< 25) &&& m ||| (BitVec.ofNat 32 bk <<< 24) &&& m |||
      (BitVec.ofNat 32 d.val <<< 21) &&& m ||| (BitVec.ofNat 32 a.val <<< 18) &&& m ||| (BitVec.ofNat 32 b.val <<< 15) &&& m := by
  simp only [encodeR, BitVec.and_or_distrib_right]

/-- A word masked field by field, format I. -/
theorem encodeI_and (op : Nat) (d : RegNo) (imm : Nat) (m : CmdWord) : encodeI op d imm &&& m =
    (BitVec.ofNat 32 op <<< 26) &&& m ||| (BitVec.ofNat 32 d.val <<< 21) &&& m ||| BitVec.ofNat 32 imm &&& m := by
  simp only [encodeI, BitVec.and_or_distrib_right]

/-- An immediate has no bit outside `cw[15:0]`. -/
theorem imm_and {imm : Nat} (h : imm < 65536) : BitVec.ofNat 32 imm &&& (0xFF1F0000 : CmdWord) = 0 := by
  have hhigh : ∀ i, 16 ≤ i → imm.testBit i = false := fun i hi =>
    Nat.testBit_lt_two_pow (lt_of_lt_of_le h (show 2 ^ 16 ≤ 2 ^ i from Nat.pow_le_pow_right (by omega) hi))
  have hlow : ∀ i : Fin 16, (0xFF1F0000 : CmdWord).getLsbD i.val = false := by decide
  apply BitVec.eq_of_getLsbD_eq
  intro i hi
  rw [BitVec.getLsbD_and, BitVec.getLsbD_ofNat]
  by_cases h16 : i < 16
  · rw [hlow ⟨i, h16⟩, Bool.and_false]
    simp
  · simp [hhigh i (by omega)]

/-! ## Fields of a word in format R -/

variable {op f bk : Nat} (hop : op < 64) (hf : f < 2) (hbk : bk < 2) (d a b : RegNo)
include hop hf hbk

theorem fieldD_encodeR : fieldD (encodeR op f bk d a b) = d := by
  have h1 := (by decide : ∀ x : Fin 64, (BitVec.ofNat 32 x.val <<< 26).extractLsb' 21 3 = 0) ⟨op, hop⟩
  have h2 := (by decide : ∀ x : Fin 2, (BitVec.ofNat 32 x.val <<< 25).extractLsb' 21 3 = 0) ⟨f, hf⟩
  have h3 := (by decide : ∀ x : Fin 2, (BitVec.ofNat 32 x.val <<< 24).extractLsb' 21 3 = 0) ⟨bk, hbk⟩
  have h4 := (by decide : ∀ x : Fin 8, (BitVec.ofNat 32 x.val <<< 21).extractLsb' 21 3 = BitVec.ofFin x) d
  have h5 := (by decide : ∀ x : Fin 8, (BitVec.ofNat 32 x.val <<< 18).extractLsb' 21 3 = 0) a
  have h6 := (by decide : ∀ x : Fin 8, (BitVec.ofNat 32 x.val <<< 15).extractLsb' 21 3 = 0) b
  simp only [fieldD, encodeR, BitVec.extractLsb'_or, h1, h2, h3, h4, h5, h6]
  simp

theorem fieldA_encodeR : fieldA (encodeR op f bk d a b) = a := by
  have h1 := (by decide : ∀ x : Fin 64, (BitVec.ofNat 32 x.val <<< 26).extractLsb' 18 3 = 0) ⟨op, hop⟩
  have h2 := (by decide : ∀ x : Fin 2, (BitVec.ofNat 32 x.val <<< 25).extractLsb' 18 3 = 0) ⟨f, hf⟩
  have h3 := (by decide : ∀ x : Fin 2, (BitVec.ofNat 32 x.val <<< 24).extractLsb' 18 3 = 0) ⟨bk, hbk⟩
  have h4 := (by decide : ∀ x : Fin 8, (BitVec.ofNat 32 x.val <<< 21).extractLsb' 18 3 = 0) d
  have h5 := (by decide : ∀ x : Fin 8, (BitVec.ofNat 32 x.val <<< 18).extractLsb' 18 3 = BitVec.ofFin x) a
  have h6 := (by decide : ∀ x : Fin 8, (BitVec.ofNat 32 x.val <<< 15).extractLsb' 18 3 = 0) b
  simp only [fieldA, encodeR, BitVec.extractLsb'_or, h1, h2, h3, h4, h5, h6]
  simp

theorem fieldB_encodeR : fieldB (encodeR op f bk d a b) = b := by
  have h1 := (by decide : ∀ x : Fin 64, (BitVec.ofNat 32 x.val <<< 26).extractLsb' 15 3 = 0) ⟨op, hop⟩
  have h2 := (by decide : ∀ x : Fin 2, (BitVec.ofNat 32 x.val <<< 25).extractLsb' 15 3 = 0) ⟨f, hf⟩
  have h3 := (by decide : ∀ x : Fin 2, (BitVec.ofNat 32 x.val <<< 24).extractLsb' 15 3 = 0) ⟨bk, hbk⟩
  have h4 := (by decide : ∀ x : Fin 8, (BitVec.ofNat 32 x.val <<< 21).extractLsb' 15 3 = 0) d
  have h5 := (by decide : ∀ x : Fin 8, (BitVec.ofNat 32 x.val <<< 18).extractLsb' 15 3 = 0) a
  have h6 := (by decide : ∀ x : Fin 8, (BitVec.ofNat 32 x.val <<< 15).extractLsb' 15 3 = BitVec.ofFin x) b
  simp only [fieldB, encodeR, BitVec.extractLsb'_or, h1, h2, h3, h4, h5, h6]
  simp

theorem fieldF_encodeR : fieldF (encodeR op f bk d a b) = decide (f = 1) := by
  have h1 := (by decide : ∀ x : Fin 64, (BitVec.ofNat 32 x.val <<< 26).getLsbD 25 = false) ⟨op, hop⟩
  have h2 := (by decide : ∀ x : Fin 2, (BitVec.ofNat 32 x.val <<< 25).getLsbD 25 = decide (x.val = 1)) ⟨f, hf⟩
  have h3 := (by decide : ∀ x : Fin 2, (BitVec.ofNat 32 x.val <<< 24).getLsbD 25 = false) ⟨bk, hbk⟩
  have h4 := (by decide : ∀ x : Fin 8, (BitVec.ofNat 32 x.val <<< 21).getLsbD 25 = false) d
  have h5 := (by decide : ∀ x : Fin 8, (BitVec.ofNat 32 x.val <<< 18).getLsbD 25 = false) a
  have h6 := (by decide : ∀ x : Fin 8, (BitVec.ofNat 32 x.val <<< 15).getLsbD 25 = false) b
  simp only [fieldF, encodeR, BitVec.getLsbD_or, h1, h2, h3, h4, h5, h6]
  simp

theorem fieldBk_encodeR : fieldBk (encodeR op f bk d a b) = if bk = 1 then .b1 else .b0 := by
  have h1 := (by decide : ∀ x : Fin 64, (BitVec.ofNat 32 x.val <<< 26).getLsbD 24 = false) ⟨op, hop⟩
  have h2 := (by decide : ∀ x : Fin 2, (BitVec.ofNat 32 x.val <<< 25).getLsbD 24 = false) ⟨f, hf⟩
  have h3 := (by decide : ∀ x : Fin 2, (BitVec.ofNat 32 x.val <<< 24).getLsbD 24 = decide (x.val = 1)) ⟨bk, hbk⟩
  have h4 := (by decide : ∀ x : Fin 8, (BitVec.ofNat 32 x.val <<< 21).getLsbD 24 = false) d
  have h5 := (by decide : ∀ x : Fin 8, (BitVec.ofNat 32 x.val <<< 18).getLsbD 24 = false) a
  have h6 := (by decide : ∀ x : Fin 8, (BitVec.ofNat 32 x.val <<< 15).getLsbD 24 = false) b
  simp only [fieldBk, encodeR, BitVec.getLsbD_or, h1, h2, h3, h4, h5, h6]
  simp

omit hf hbk

/-! ## Fields of a word in format I -/

theorem fieldD_encodeI {imm : Nat} (himm : imm < 65536) : fieldD (encodeI op d imm) = d := by
  have h1 := (by decide : ∀ x : Fin 64, (BitVec.ofNat 32 x.val <<< 26).extractLsb' 21 3 = 0) ⟨op, hop⟩
  have h4 := (by decide : ∀ x : Fin 8, (BitVec.ofNat 32 x.val <<< 21).extractLsb' 21 3 = BitVec.ofFin x) d
  have h7 : (BitVec.ofNat 32 imm).extractLsb' 21 3 = 0 := by
    apply BitVec.eq_of_toNat_eq
    have : imm >>> 21 = 0 := by rw [Nat.shiftRight_eq_div_pow]; omega
    simp [BitVec.extractLsb'_toNat, Nat.mod_eq_of_lt (show imm < 4294967296 by omega), this]
  simp only [fieldD, encodeI, BitVec.extractLsb'_or, h1, h4, h7]
  simp

theorem fieldImm_encodeI {imm : Nat} (himm : imm < 65536) : fieldImm (encodeI op d imm) = imm := by
  have h1 := (by decide : ∀ x : Fin 64, (BitVec.ofNat 32 x.val <<< 26).extractLsb' 0 16 = 0) ⟨op, hop⟩
  have h4 := (by decide : ∀ x : Fin 8, (BitVec.ofNat 32 x.val <<< 21).extractLsb' 0 16 = 0) d
  simp only [fieldImm, encodeI, BitVec.extractLsb'_or, h1, h4]
  simp [BitVec.extractLsb'_toNat, Nat.mod_eq_of_lt (show imm < 4294967296 by omega), Nat.mod_eq_of_lt himm]

end Sys2Proof
end

