-- ==== Sys2Proof/Laws/State.lean ====
section
/-! SUPPORT. The small lemmas of the state's updates: one per field or accessor per update, so that no proof unfolds a record
update. -/

namespace Sys2Proof.Machine

variable (s : State)

/-! ## setR -/

@[simp] theorem State.setR_cfg (d : RegNo) (v : Nat) : (s.setR d v).cfg = s.cfg := rfl
@[simp] theorem State.setR_pp (d : RegNo) (v : Nat) : (s.setR d v).pp = s.pp := rfl
@[simp] theorem State.setR_e (d : RegNo) (v : Nat) : (s.setR d v).e = s.e := rfl
@[simp] theorem State.setR_mod (d : RegNo) (v : Nat) : (s.setR d v).mod = s.mod := rfl
@[simp] theorem State.setR_bank0 (d : RegNo) (v : Nat) : (s.setR d v).bank0 = s.bank0 := rfl
@[simp] theorem State.setR_bank1 (d : RegNo) (v : Nat) : (s.setR d v).bank1 = s.bank1 := rfl
@[simp] theorem State.setR_err (d : RegNo) (v : Nat) : (s.setR d v).err = s.err := rfl
@[simp] theorem State.setR_einfo (d : RegNo) (v : Nat) : (s.setR d v).einfo = s.einfo := rfl
@[simp] theorem State.setR_draws (d : RegNo) (v : Nat) : (s.setR d v).draws = s.draws := rfl
@[simp] theorem State.setR_prog (d : RegNo) (v : Nat) : (s.setR d v).prog = s.prog := rfl
@[simp] theorem State.setR_pos (d : RegNo) (v : Nat) : (s.setR d v).pos = s.pos := rfl
@[simp] theorem State.setR_resp (d : RegNo) (v : Nat) : (s.setR d v).resp = s.resp := rfl

/-! ## setE -/

@[simp] theorem State.setE_cfg (d : RegNo) (v : Nat) : (s.setE d v).cfg = s.cfg := rfl
@[simp] theorem State.setE_pp (d : RegNo) (v : Nat) : (s.setE d v).pp = s.pp := rfl
@[simp] theorem State.setE_r (d : RegNo) (v : Nat) : (s.setE d v).r = s.r := rfl
@[simp] theorem State.setE_mod (d : RegNo) (v : Nat) : (s.setE d v).mod = s.mod := rfl
@[simp] theorem State.setE_bank0 (d : RegNo) (v : Nat) : (s.setE d v).bank0 = s.bank0 := rfl
@[simp] theorem State.setE_bank1 (d : RegNo) (v : Nat) : (s.setE d v).bank1 = s.bank1 := rfl
@[simp] theorem State.setE_err (d : RegNo) (v : Nat) : (s.setE d v).err = s.err := rfl
@[simp] theorem State.setE_einfo (d : RegNo) (v : Nat) : (s.setE d v).einfo = s.einfo := rfl
@[simp] theorem State.setE_draws (d : RegNo) (v : Nat) : (s.setE d v).draws = s.draws := rfl
@[simp] theorem State.setE_prog (d : RegNo) (v : Nat) : (s.setE d v).prog = s.prog := rfl
@[simp] theorem State.setE_pos (d : RegNo) (v : Nat) : (s.setE d v).pos = s.pos := rfl
@[simp] theorem State.setE_resp (d : RegNo) (v : Nat) : (s.setE d v).resp = s.resp := rfl

/-! ## useDraws -/

@[simp] theorem State.useDraws_cfg (n : Nat) : (s.useDraws n).cfg = s.cfg := rfl
@[simp] theorem State.useDraws_pp (n : Nat) : (s.useDraws n).pp = s.pp := rfl
@[simp] theorem State.useDraws_r (n : Nat) : (s.useDraws n).r = s.r := rfl
@[simp] theorem State.useDraws_e (n : Nat) : (s.useDraws n).e = s.e := rfl
@[simp] theorem State.useDraws_mod (n : Nat) : (s.useDraws n).mod = s.mod := rfl
@[simp] theorem State.useDraws_bank0 (n : Nat) : (s.useDraws n).bank0 = s.bank0 := rfl
@[simp] theorem State.useDraws_bank1 (n : Nat) : (s.useDraws n).bank1 = s.bank1 := rfl
@[simp] theorem State.useDraws_err (n : Nat) : (s.useDraws n).err = s.err := rfl
@[simp] theorem State.useDraws_einfo (n : Nat) : (s.useDraws n).einfo = s.einfo := rfl
@[simp] theorem State.useDraws_prog (n : Nat) : (s.useDraws n).prog = s.prog := rfl
@[simp] theorem State.useDraws_pos (n : Nat) : (s.useDraws n).pos = s.pos := rfl
@[simp] theorem State.useDraws_resp (n : Nat) : (s.useDraws n).resp = s.resp := rfl

/-! ## clearError -/

@[simp] theorem State.clearError_cfg  : (s.clearError).cfg = s.cfg := rfl
@[simp] theorem State.clearError_pp  : (s.clearError).pp = s.pp := rfl
@[simp] theorem State.clearError_r  : (s.clearError).r = s.r := rfl
@[simp] theorem State.clearError_e  : (s.clearError).e = s.e := rfl
@[simp] theorem State.clearError_mod  : (s.clearError).mod = s.mod := rfl
@[simp] theorem State.clearError_bank0  : (s.clearError).bank0 = s.bank0 := rfl
@[simp] theorem State.clearError_bank1  : (s.clearError).bank1 = s.bank1 := rfl
@[simp] theorem State.clearError_draws  : (s.clearError).draws = s.draws := rfl
@[simp] theorem State.clearError_prog  : (s.clearError).prog = s.prog := rfl
@[simp] theorem State.clearError_pos  : (s.clearError).pos = s.pos := rfl
@[simp] theorem State.clearError_resp  : (s.clearError).resp = s.resp := rfl

/-! ## answer -/

@[simp] theorem State.answer_cfg (a : Response) : (s.answer a).cfg = s.cfg := rfl
@[simp] theorem State.answer_pp (a : Response) : (s.answer a).pp = s.pp := rfl
@[simp] theorem State.answer_r (a : Response) : (s.answer a).r = s.r := rfl
@[simp] theorem State.answer_e (a : Response) : (s.answer a).e = s.e := rfl
@[simp] theorem State.answer_mod (a : Response) : (s.answer a).mod = s.mod := rfl
@[simp] theorem State.answer_bank0 (a : Response) : (s.answer a).bank0 = s.bank0 := rfl
@[simp] theorem State.answer_bank1 (a : Response) : (s.answer a).bank1 = s.bank1 := rfl
@[simp] theorem State.answer_err (a : Response) : (s.answer a).err = s.err := rfl
@[simp] theorem State.answer_einfo (a : Response) : (s.answer a).einfo = s.einfo := rfl
@[simp] theorem State.answer_draws (a : Response) : (s.answer a).draws = s.draws := rfl
@[simp] theorem State.answer_prog (a : Response) : (s.answer a).prog = s.prog := rfl

/-! ## setBank -/

@[simp] theorem State.setBank_cfg (bk : BankSel) (b : Bank) : (s.setBank bk b).cfg = s.cfg := by cases bk <;> rfl
@[simp] theorem State.setBank_pp (bk : BankSel) (b : Bank) : (s.setBank bk b).pp = s.pp := by cases bk <;> rfl
@[simp] theorem State.setBank_r (bk : BankSel) (b : Bank) : (s.setBank bk b).r = s.r := by cases bk <;> rfl
@[simp] theorem State.setBank_e (bk : BankSel) (b : Bank) : (s.setBank bk b).e = s.e := by cases bk <;> rfl
@[simp] theorem State.setBank_mod (bk : BankSel) (b : Bank) : (s.setBank bk b).mod = s.mod := by cases bk <;> rfl
@[simp] theorem State.setBank_err (bk : BankSel) (b : Bank) : (s.setBank bk b).err = s.err := by cases bk <;> rfl
@[simp] theorem State.setBank_einfo (bk : BankSel) (b : Bank) : (s.setBank bk b).einfo = s.einfo := by cases bk <;> rfl
@[simp] theorem State.setBank_draws (bk : BankSel) (b : Bank) : (s.setBank bk b).draws = s.draws := by cases bk <;> rfl
@[simp] theorem State.setBank_prog (bk : BankSel) (b : Bank) : (s.setBank bk b).prog = s.prog := by cases bk <;> rfl
@[simp] theorem State.setBank_pos (bk : BankSel) (b : Bank) : (s.setBank bk b).pos = s.pos := by cases bk <;> rfl
@[simp] theorem State.setBank_resp (bk : BankSel) (b : Bank) : (s.setBank bk b).resp = s.resp := by cases bk <;> rfl

/-! ## setLen -/

@[simp] theorem State.setLen_cfg (bk : BankSel) (n : Nat) : (s.setLen bk n).cfg = s.cfg := by cases bk <;> rfl
@[simp] theorem State.setLen_pp (bk : BankSel) (n : Nat) : (s.setLen bk n).pp = s.pp := by cases bk <;> rfl
@[simp] theorem State.setLen_r (bk : BankSel) (n : Nat) : (s.setLen bk n).r = s.r := by cases bk <;> rfl
@[simp] theorem State.setLen_e (bk : BankSel) (n : Nat) : (s.setLen bk n).e = s.e := by cases bk <;> rfl
@[simp] theorem State.setLen_mod (bk : BankSel) (n : Nat) : (s.setLen bk n).mod = s.mod := by cases bk <;> rfl
@[simp] theorem State.setLen_err (bk : BankSel) (n : Nat) : (s.setLen bk n).err = s.err := by cases bk <;> rfl
@[simp] theorem State.setLen_einfo (bk : BankSel) (n : Nat) : (s.setLen bk n).einfo = s.einfo := by cases bk <;> rfl
@[simp] theorem State.setLen_draws (bk : BankSel) (n : Nat) : (s.setLen bk n).draws = s.draws := by cases bk <;> rfl
@[simp] theorem State.setLen_prog (bk : BankSel) (n : Nat) : (s.setLen bk n).prog = s.prog := by cases bk <;> rfl
@[simp] theorem State.setLen_pos (bk : BankSel) (n : Nat) : (s.setLen bk n).pos = s.pos := by cases bk <;> rfl
@[simp] theorem State.setLen_resp (bk : BankSel) (n : Nat) : (s.setLen bk n).resp = s.resp := by cases bk <;> rfl

/-! ## seqWrite -/

@[simp] theorem State.seqWrite_cfg (bk : BankSel) (i : Nat) (v : Nat) : (s.seqWrite bk i v).cfg = s.cfg := by cases bk <;> rfl
@[simp] theorem State.seqWrite_pp (bk : BankSel) (i : Nat) (v : Nat) : (s.seqWrite bk i v).pp = s.pp := by cases bk <;> rfl
@[simp] theorem State.seqWrite_r (bk : BankSel) (i : Nat) (v : Nat) : (s.seqWrite bk i v).r = s.r := by cases bk <;> rfl
@[simp] theorem State.seqWrite_e (bk : BankSel) (i : Nat) (v : Nat) : (s.seqWrite bk i v).e = s.e := by cases bk <;> rfl
@[simp] theorem State.seqWrite_mod (bk : BankSel) (i : Nat) (v : Nat) : (s.seqWrite bk i v).mod = s.mod := by cases bk <;> rfl
@[simp] theorem State.seqWrite_err (bk : BankSel) (i : Nat) (v : Nat) : (s.seqWrite bk i v).err = s.err := by cases bk <;> rfl
@[simp] theorem State.seqWrite_einfo (bk : BankSel) (i : Nat) (v : Nat) : (s.seqWrite bk i v).einfo = s.einfo := by cases bk <;> rfl
@[simp] theorem State.seqWrite_draws (bk : BankSel) (i : Nat) (v : Nat) : (s.seqWrite bk i v).draws = s.draws := by cases bk <;> rfl
@[simp] theorem State.seqWrite_prog (bk : BankSel) (i : Nat) (v : Nat) : (s.seqWrite bk i v).prog = s.prog := by cases bk <;> rfl
@[simp] theorem State.seqWrite_pos (bk : BankSel) (i : Nat) (v : Nat) : (s.seqWrite bk i v).pos = s.pos := by cases bk <;> rfl
@[simp] theorem State.seqWrite_resp (bk : BankSel) (i : Nat) (v : Nat) : (s.seqWrite bk i v).resp = s.resp := by cases bk <;> rfl

/-! ## putSeq -/

@[simp] theorem State.putSeq_cfg (bk : BankSel) (xs : List Nat) : (s.putSeq bk xs).cfg = s.cfg := by cases bk <;> rfl
@[simp] theorem State.putSeq_pp (bk : BankSel) (xs : List Nat) : (s.putSeq bk xs).pp = s.pp := by cases bk <;> rfl
@[simp] theorem State.putSeq_r (bk : BankSel) (xs : List Nat) : (s.putSeq bk xs).r = s.r := by cases bk <;> rfl
@[simp] theorem State.putSeq_e (bk : BankSel) (xs : List Nat) : (s.putSeq bk xs).e = s.e := by cases bk <;> rfl
@[simp] theorem State.putSeq_mod (bk : BankSel) (xs : List Nat) : (s.putSeq bk xs).mod = s.mod := by cases bk <;> rfl
@[simp] theorem State.putSeq_err (bk : BankSel) (xs : List Nat) : (s.putSeq bk xs).err = s.err := by cases bk <;> rfl
@[simp] theorem State.putSeq_einfo (bk : BankSel) (xs : List Nat) : (s.putSeq bk xs).einfo = s.einfo := by cases bk <;> rfl
@[simp] theorem State.putSeq_draws (bk : BankSel) (xs : List Nat) : (s.putSeq bk xs).draws = s.draws := by cases bk <;> rfl
@[simp] theorem State.putSeq_prog (bk : BankSel) (xs : List Nat) : (s.putSeq bk xs).prog = s.prog := by cases bk <;> rfl
@[simp] theorem State.putSeq_pos (bk : BankSel) (xs : List Nat) : (s.putSeq bk xs).pos = s.pos := by cases bk <;> rfl
@[simp] theorem State.putSeq_resp (bk : BankSel) (xs : List Nat) : (s.putSeq bk xs).resp = s.resp := by cases bk <;> rfl

/-! ## spoil -/

@[simp] theorem State.spoil_cfg (bk : BankSel) : (s.spoil bk).cfg = s.cfg := by cases bk <;> rfl
@[simp] theorem State.spoil_pp (bk : BankSel) : (s.spoil bk).pp = s.pp := by cases bk <;> rfl
@[simp] theorem State.spoil_r (bk : BankSel) : (s.spoil bk).r = s.r := by cases bk <;> rfl
@[simp] theorem State.spoil_e (bk : BankSel) : (s.spoil bk).e = s.e := by cases bk <;> rfl
@[simp] theorem State.spoil_mod (bk : BankSel) : (s.spoil bk).mod = s.mod := by cases bk <;> rfl
@[simp] theorem State.spoil_err (bk : BankSel) : (s.spoil bk).err = s.err := by cases bk <;> rfl
@[simp] theorem State.spoil_einfo (bk : BankSel) : (s.spoil bk).einfo = s.einfo := by cases bk <;> rfl
@[simp] theorem State.spoil_prog (bk : BankSel) : (s.spoil bk).prog = s.prog := by cases bk <;> rfl
@[simp] theorem State.spoil_pos (bk : BankSel) : (s.spoil bk).pos = s.pos := by cases bk <;> rfl
@[simp] theorem State.spoil_resp (bk : BankSel) : (s.spoil bk).resp = s.resp := by cases bk <;> rfl

/-! ## instantiateField -/

@[simp] theorem State.instantiateField_cfg (m : Nat) : (s.instantiateField m).cfg = s.cfg := rfl
@[simp] theorem State.instantiateField_pp (m : Nat) : (s.instantiateField m).pp = s.pp := rfl
@[simp] theorem State.instantiateField_r (m : Nat) : (s.instantiateField m).r = s.r := rfl
@[simp] theorem State.instantiateField_err (m : Nat) : (s.instantiateField m).err = s.err := rfl
@[simp] theorem State.instantiateField_einfo (m : Nat) : (s.instantiateField m).einfo = s.einfo := rfl
@[simp] theorem State.instantiateField_draws (m : Nat) : (s.instantiateField m).draws = s.draws := rfl
@[simp] theorem State.instantiateField_prog (m : Nat) : (s.instantiateField m).prog = s.prog := rfl
@[simp] theorem State.instantiateField_pos (m : Nat) : (s.instantiateField m).pos = s.pos := rfl
@[simp] theorem State.instantiateField_resp (m : Nat) : (s.instantiateField m).resp = s.resp := rfl

/-! ## The updated fields -/

@[simp] theorem State.useDraws_draws (n : Nat) : (s.useDraws n).draws = s.draws + n := rfl
@[simp] theorem State.clearError_err : s.clearError.err = 0 := rfl
@[simp] theorem State.clearError_einfo : s.clearError.einfo = 0 := rfl
@[simp] theorem State.answer_pos (a : Response) : (s.answer a).pos = s.pos + 1 := rfl
@[simp] theorem State.answer_resp (a : Response) : (s.answer a).resp = a := rfl
@[simp] theorem State.spoil_draws (bk : BankSel) : (s.spoil bk).draws = s.draws + s.len bk := by cases bk <;> rfl
@[simp] theorem State.instantiateField_mod (m : Nat) : (s.instantiateField m).mod = m := rfl

/-! ## Registers -/

@[simp] theorem State.getR_setR_self (d : RegNo) (v : Nat) : (s.setR d v).getR d = v := by
  simp [State.getR, State.setR]

theorem State.getR_setR_of_ne {i d : RegNo} (h : i ≠ d) (v : Nat) : (s.setR d v).getR i = s.getR i := by
  have : d.val ≠ i.val := fun e => h (Fin.ext e.symm)
  simp [State.getR, State.setR, this]

theorem State.getR_setR (i d : RegNo) (v : Nat) : (s.setR d v).getR i = if i = d then v else s.getR i := by
  by_cases h : i = d
  · subst h; simp
  · simp [h, s.getR_setR_of_ne h]

@[simp] theorem State.getE_setE_self (d : RegNo) (v : Nat) : (s.setE d v).getE d = v := by
  simp [State.getE, State.setE]

theorem State.getE_setE_of_ne {i d : RegNo} (h : i ≠ d) (v : Nat) : (s.setE d v).getE i = s.getE i := by
  have : d.val ≠ i.val := fun e => h (Fin.ext e.symm)
  simp [State.getE, State.setE, this]

theorem State.getE_setE (i d : RegNo) (v : Nat) : (s.setE d v).getE i = if i = d then v else s.getE i := by
  by_cases h : i = d
  · subst h; simp
  · simp [h, s.getE_setE_of_ne h]

@[simp] theorem State.getE_setR (d : RegNo) (v : Nat) (i : RegNo) : (s.setR d v).getE i = s.getE i := rfl
@[simp] theorem State.getR_setE (d : RegNo) (v : Nat) (i : RegNo) : (s.setE d v).getR i = s.getR i := rfl
@[simp] theorem State.getR_useDraws (n : Nat) (i : RegNo) : (s.useDraws n).getR i = s.getR i := rfl
@[simp] theorem State.getE_useDraws (n : Nat) (i : RegNo) : (s.useDraws n).getE i = s.getE i := rfl
@[simp] theorem State.getR_clearError  (i : RegNo) : (s.clearError).getR i = s.getR i := rfl
@[simp] theorem State.getE_clearError  (i : RegNo) : (s.clearError).getE i = s.getE i := rfl
@[simp] theorem State.getR_answer (a : Response) (i : RegNo) : (s.answer a).getR i = s.getR i := rfl
@[simp] theorem State.getE_answer (a : Response) (i : RegNo) : (s.answer a).getE i = s.getE i := rfl
@[simp] theorem State.getR_setBank (bk : BankSel) (b : Bank) (i : RegNo) : (s.setBank bk b).getR i = s.getR i := by cases bk <;> rfl
@[simp] theorem State.getE_setBank (bk : BankSel) (b : Bank) (i : RegNo) : (s.setBank bk b).getE i = s.getE i := by cases bk <;> rfl
@[simp] theorem State.getR_setLen (bk : BankSel) (n : Nat) (i : RegNo) : (s.setLen bk n).getR i = s.getR i := by cases bk <;> rfl
@[simp] theorem State.getE_setLen (bk : BankSel) (n : Nat) (i : RegNo) : (s.setLen bk n).getE i = s.getE i := by cases bk <;> rfl
@[simp] theorem State.getR_seqWrite (bk : BankSel) (k : Nat) (v : Nat) (i : RegNo) : (s.seqWrite bk k v).getR i = s.getR i := by cases bk <;> rfl
@[simp] theorem State.getE_seqWrite (bk : BankSel) (k : Nat) (v : Nat) (i : RegNo) : (s.seqWrite bk k v).getE i = s.getE i := by cases bk <;> rfl
@[simp] theorem State.getR_putSeq (bk : BankSel) (xs : List Nat) (i : RegNo) : (s.putSeq bk xs).getR i = s.getR i := by cases bk <;> rfl
@[simp] theorem State.getE_putSeq (bk : BankSel) (xs : List Nat) (i : RegNo) : (s.putSeq bk xs).getE i = s.getE i := by cases bk <;> rfl
@[simp] theorem State.getR_spoil (bk : BankSel) (i : RegNo) : (s.spoil bk).getR i = s.getR i := by cases bk <;> rfl
@[simp] theorem State.getE_spoil (bk : BankSel) (i : RegNo) : (s.spoil bk).getE i = s.getE i := by cases bk <;> rfl
@[simp] theorem State.getR_instantiateField (m : Nat) (i : RegNo) : (s.instantiateField m).getR i = s.getR i := rfl

@[simp] theorem State.getE_instantiateField (m : Nat) (i : RegNo) : (s.instantiateField m).getE i = 0 := by
  simp [State.getE, State.instantiateField, State.setLen, State.setBank]

/-! ## Banks -/

@[simp] theorem State.bank_setR (d : RegNo) (v : Nat) (b : BankSel) : (s.setR d v).bank b = s.bank b := by cases b <;> rfl
@[simp] theorem State.len_setR (d : RegNo) (v : Nat) (b : BankSel) : (s.setR d v).len b = s.len b := by cases b <;> rfl
@[simp] theorem State.seqRead_setR (d : RegNo) (v : Nat) (b : BankSel) (i : Nat) : (s.setR d v).seqRead b i = s.seqRead b i := by cases b <;> rfl
@[simp] theorem State.seq_setR (d : RegNo) (v : Nat) (b : BankSel) : (s.setR d v).seq b = s.seq b := by cases b <;> rfl
@[simp] theorem State.bank_setE (d : RegNo) (v : Nat) (b : BankSel) : (s.setE d v).bank b = s.bank b := by cases b <;> rfl
@[simp] theorem State.len_setE (d : RegNo) (v : Nat) (b : BankSel) : (s.setE d v).len b = s.len b := by cases b <;> rfl
@[simp] theorem State.seqRead_setE (d : RegNo) (v : Nat) (b : BankSel) (i : Nat) : (s.setE d v).seqRead b i = s.seqRead b i := by cases b <;> rfl
@[simp] theorem State.seq_setE (d : RegNo) (v : Nat) (b : BankSel) : (s.setE d v).seq b = s.seq b := by cases b <;> rfl
@[simp] theorem State.bank_useDraws (n : Nat) (b : BankSel) : (s.useDraws n).bank b = s.bank b := by cases b <;> rfl
@[simp] theorem State.len_useDraws (n : Nat) (b : BankSel) : (s.useDraws n).len b = s.len b := by cases b <;> rfl
@[simp] theorem State.seqRead_useDraws (n : Nat) (b : BankSel) (i : Nat) : (s.useDraws n).seqRead b i = s.seqRead b i := by cases b <;> rfl
@[simp] theorem State.seq_useDraws (n : Nat) (b : BankSel) : (s.useDraws n).seq b = s.seq b := by cases b <;> rfl
@[simp] theorem State.bank_clearError  (b : BankSel) : (s.clearError).bank b = s.bank b := by cases b <;> rfl
@[simp] theorem State.len_clearError  (b : BankSel) : (s.clearError).len b = s.len b := by cases b <;> rfl
@[simp] theorem State.seqRead_clearError  (b : BankSel) (i : Nat) : (s.clearError).seqRead b i = s.seqRead b i := by cases b <;> rfl
@[simp] theorem State.seq_clearError  (b : BankSel) : (s.clearError).seq b = s.seq b := by cases b <;> rfl
@[simp] theorem State.bank_answer (a : Response) (b : BankSel) : (s.answer a).bank b = s.bank b := by cases b <;> rfl
@[simp] theorem State.len_answer (a : Response) (b : BankSel) : (s.answer a).len b = s.len b := by cases b <;> rfl
@[simp] theorem State.seqRead_answer (a : Response) (b : BankSel) (i : Nat) : (s.answer a).seqRead b i = s.seqRead b i := by cases b <;> rfl
@[simp] theorem State.seq_answer (a : Response) (b : BankSel) : (s.answer a).seq b = s.seq b := by cases b <;> rfl

@[simp] theorem State.bank_setBank_self (bk : BankSel) (b : Bank) : (s.setBank bk b).bank bk = b := by cases bk <;> rfl

theorem State.bank_setBank_of_ne {b bk : BankSel} (h : b ≠ bk) (x : Bank) : (s.setBank bk x).bank b = s.bank b := by
  cases b <;> cases bk <;> first | rfl | exact absurd rfl h

@[simp] theorem State.len_setLen_self (bk : BankSel) (n : Nat) : (s.setLen bk n).len bk = n := by cases bk <;> rfl

theorem State.len_setLen_of_ne {b bk : BankSel} (h : b ≠ bk) (n : Nat) : (s.setLen bk n).len b = s.len b := by
  cases b <;> cases bk <;> first | rfl | exact absurd rfl h

@[simp] theorem State.seqRead_setLen (bk b : BankSel) (n : Nat) (i : Nat) :
    (s.setLen bk n).seqRead b i = s.seqRead b i := by cases b <;> cases bk <;> rfl

@[simp] theorem State.slots_setLen (bk b : BankSel) (n : Nat) :
    ((s.setLen bk n).bank b).slots = (s.bank b).slots := by cases b <;> cases bk <;> rfl

@[simp] theorem State.len_seqWrite (bk b : BankSel) (i : Nat) (v : Nat) : (s.seqWrite bk i v).len b = s.len b := by
  cases b <;> cases bk <;> rfl

@[simp] theorem State.len_putSeq (bk b : BankSel) (xs : List Nat) : (s.putSeq bk xs).len b = s.len b := by
  cases b <;> cases bk <;> rfl

@[simp] theorem State.len_spoil (bk b : BankSel) : (s.spoil bk).len b = s.len b := by cases b <;> cases bk <;> rfl

@[simp] theorem State.len_instantiateField (m : Nat) (b : BankSel) : (s.instantiateField m).len b = 0 := by
  cases b <;> rfl

@[simp] theorem State.seqRead_instantiateField (m : Nat) (b : BankSel) (i : Nat) :
    (s.instantiateField m).seqRead b i = s.seqRead b i := by cases b <;> rfl

@[simp] theorem State.slots_instantiateField (m : Nat) (b : BankSel) :
    ((s.instantiateField m).bank b).slots = (s.bank b).slots := by cases b <;> rfl

@[simp] theorem State.bank_putSeq_self (bk : BankSel) (xs : List Nat) :
    ((s.putSeq bk xs).bank bk).slots = (s.bank bk).slots.store xs := by cases bk <;> rfl

theorem State.bank_putSeq_of_ne {b bk : BankSel} (h : b ≠ bk) (xs : List Nat) :
    (s.putSeq bk xs).bank b = s.bank b := by
  cases b <;> cases bk <;> first | rfl | exact absurd rfl h

@[simp] theorem State.bank_seqWrite_self (bk : BankSel) (i : Nat) (v : Nat) :
    ((s.seqWrite bk i v).bank bk).slots = (s.bank bk).slots.write i v := by cases bk <;> rfl

theorem State.bank_seqWrite_of_ne {b bk : BankSel} (h : b ≠ bk) (i : Nat) (v : Nat) :
    (s.seqWrite bk i v).bank b = s.bank b := by
  cases b <;> cases bk <;> first | rfl | exact absurd rfl h

theorem State.spoil_eq (bk : BankSel) :
    s.spoil bk = (s.putSeq bk ((List.range (s.len bk)).map s.drawnElem)).useDraws (s.len bk) := rfl

@[simp] theorem State.seq_length (bk : BankSel) : (s.seq bk).length = s.len bk := by simp [State.seq]

theorem State.seq_getElem? (bk : BankSel) {i : Nat} (h : i < s.len bk) : (s.seq bk)[i]? = some (s.seqRead bk i) := by
  simp [State.seq, h]

theorem State.seq_getD (bk : BankSel) {i : Nat} (h : i < s.len bk) : (s.seq bk).getD i 0 = s.seqRead bk i := by
  simp [List.getD, s.seq_getElem? bk h]

end Sys2Proof.Machine
end

