-- ==== Sys2Proof/Laws/Memory.lean ====
section
/-! SUPPORT. The slots of a bank: what a read gives after a write, that every operation keeps the canonical form, and that
equal contents are equal data. -/

namespace Sys2Proof.Machine

/-! ## One slot -/

theorem Memory.wfFrom_mono {lo lo' : Nat} (h : lo ≤ lo') : ∀ {m : Memory}, wfFrom lo' m = true → wfFrom lo m = true
  | [], _ => rfl
  | (i, v) :: m, hm => by
    simp only [wfFrom, Bool.and_eq_true, decide_eq_true_eq] at hm ⊢
    exact ⟨⟨h.trans hm.1.1, hm.1.2⟩, hm.2⟩

/-- Below the first listed index a canonical list reads as unlisted. -/
theorem Memory.read_of_lt : ∀ {m : Memory} {lo i : Nat}, wfFrom lo m = true → i < lo → m.read i = unlisted
  | [], _, _, _, _ => rfl
  | (j, v) :: m, lo, i, hm, hi => by
    simp only [wfFrom, Bool.and_eq_true, decide_eq_true_eq] at hm
    have hij : i ≠ j := by omega
    simp only [read, if_neg hij]
    exact read_of_lt hm.2 (by omega)

theorem Memory.read_write_self : ∀ {m : Memory} {lo : Nat}, wfFrom lo m = true → ∀ (i : Nat) (v : Nat),
    (m.write i v).read i = v
  | [], _, _, i, v => by
    by_cases hv : v = unlisted <;> simp [write, read, hv]
  | (j, x) :: m, lo, hm, i, v => by
    simp only [wfFrom, Bool.and_eq_true, decide_eq_true_eq] at hm
    by_cases hlt : i < j
    · by_cases hv : v = unlisted
      · have hij : i ≠ j := by omega
        simp only [write, if_pos hlt, if_pos hv, read, if_neg hij]
        rw [hv]
        exact read_of_lt hm.2 (by omega)
      · simp [write, hlt, hv, read]
    · by_cases hij : i = j
      · subst hij
        by_cases hv : v = unlisted
        · simp only [write, if_neg hlt, if_pos trivial, if_pos hv]
          rw [hv]
          exact read_of_lt hm.2 (by omega)
        · simp [write, hv, read]
      · simp only [write, if_neg hlt, if_neg hij, read]
        exact read_write_self hm.2 i v

theorem Memory.read_write_of_ne : ∀ (m : Memory) {i k : Nat}, k ≠ i → ∀ v : Nat, (m.write i v).read k = m.read k
  | [], i, k, h, v => by
    by_cases hv : v = unlisted <;> simp [write, read, hv, h]
  | (j, x) :: m, i, k, h, v => by
    have ih := read_write_of_ne m h v
    by_cases hlt : i < j
    · by_cases hv : v = unlisted <;> simp [write, hlt, hv, read, h]
    · by_cases hij : i = j
      · subst hij
        by_cases hv : v = unlisted <;> simp [write, hv, read, h]
      · simp only [write, if_neg hlt, if_neg hij, read, ih]

theorem Memory.wfFrom_write : ∀ {m : Memory} {lo i : Nat}, wfFrom lo m = true → lo ≤ i → ∀ v : Nat,
    wfFrom lo (m.write i v) = true
  | [], lo, i, _, hi, v => by
    by_cases hv : v = unlisted <;> simp [write, wfFrom, hv, hi]
  | (j, x) :: m, lo, i, hm, hi, v => by
    have hm' := hm
    simp only [wfFrom, Bool.and_eq_true, decide_eq_true_eq] at hm
    by_cases hlt : i < j
    · by_cases hv : v = unlisted
      · simpa [write, hlt, hv] using hm'
      · simp only [write, if_pos hlt, if_neg hv, wfFrom, Bool.and_eq_true, decide_eq_true_eq]
        exact ⟨⟨hi, hv⟩, ⟨⟨by omega, hm.1.2⟩, hm.2⟩⟩
    · by_cases hij : i = j
      · subst hij
        by_cases hv : v = unlisted
        · simp only [write, if_neg hlt, if_pos trivial, if_pos hv]
          exact wfFrom_mono (by omega) hm.2
        · simp only [write, if_neg hlt, if_pos trivial, if_neg hv, wfFrom, Bool.and_eq_true, decide_eq_true_eq]
          exact ⟨⟨hi, hv⟩, hm.2⟩
      · simp only [write, if_neg hlt, if_neg hij, wfFrom, Bool.and_eq_true, decide_eq_true_eq]
        exact ⟨hm.1, wfFrom_write hm.2 (by omega) v⟩

/-- A write keeps the canonical form. -/
theorem Memory.wf_write {m : Memory} (h : m.wf = true) (i : Nat) (v : Nat) : (m.write i v).wf = true :=
  wfFrom_write h (Nat.zero_le i) v

/-- A cell of a written list is an old cell or the written one. -/
theorem Memory.mem_write : ∀ {m : Memory} {i : Nat} {v : Nat} {c : Nat × Nat}, c ∈ m.write i v → c ∈ m ∨ c = (i, v)
  | [], i, v, c, h => by
    by_cases hv : v = unlisted <;> simp_all [write]
  | (j, x) :: m, i, v, c, h => by
    by_cases hlt : i < j
    · by_cases hv : v = unlisted <;> simp [write, hlt, hv] at h ⊢ <;> tauto
    · by_cases hij : i = j
      · subst hij
        by_cases hv : v = unlisted <;> simp [write, hv] at h ⊢ <;> tauto
      · simp only [write, if_neg hlt, if_neg hij, List.mem_cons] at h ⊢
        rcases h with h | h
        · exact .inl (.inl h)
        · exact (mem_write h).imp .inr id

/-! ## A whole sequence -/

theorem Memory.read_filter_ge : ∀ (m : Memory) (n i : Nat), n ≤ i →
    Memory.read (m.filter fun c => decide (n ≤ c.1)) i = m.read i
  | [], _, _, _ => rfl
  | (j, v) :: m, n, i, h => by
    have ih := read_filter_ge m n i h
    by_cases hj : n ≤ j
    · simp [hj, read, ih]
    · have hij : i ≠ j := by omega
      simp [hj, read, ih, hij]

theorem Memory.read_filter_lt : ∀ (m : Memory) (n i : Nat), i < n →
    Memory.read (m.filter fun c => decide (n ≤ c.1)) i = unlisted
  | [], _, _, _ => rfl
  | (j, v) :: m, n, i, h => by
    have ih := read_filter_lt m n i h
    by_cases hj : n ≤ j
    · have hij : i ≠ j := by omega
      simp [hj, read, ih, hij]
    · simp [hj, ih]

theorem Memory.read_cellsFrom_append : ∀ (xs : List Nat) (j i : Nat) (m : Memory),
    Memory.read (cellsFrom j xs ++ m) i =
      if h : j ≤ i ∧ i < j + xs.length then
        (if xs[i - j]'(by omega) = unlisted then m.read i else xs[i - j]'(by omega)) else m.read i
  | [], j, i, m => by
    have h : ¬ (j ≤ i ∧ i < j) := by omega
    simp [cellsFrom, h]
  | x :: xs, j, i, m => by
    have ih := read_cellsFrom_append xs (j + 1) i m
    by_cases hij : i = j
    · subst hij
      have h1 : ¬ (i + 1 ≤ i ∧ i < i + 1 + xs.length) := by omega
      rw [dif_neg h1] at ih
      by_cases hx : x = unlisted <;> simp [cellsFrom, hx, ih, read]
    · have h1 : (j ≤ i ∧ i < j + (x :: xs).length) ↔ (j + 1 ≤ i ∧ i < j + 1 + xs.length) := by
        simp only [List.length_cons]; omega
      have h2 : Memory.read (cellsFrom j (x :: xs) ++ m) i = Memory.read (cellsFrom (j + 1) xs ++ m) i := by
        by_cases hx : x = unlisted <;> simp [cellsFrom, hx, read, hij]
      rw [h2, ih]
      by_cases hb : j + 1 ≤ i ∧ i < j + 1 + xs.length
      · rw [dif_pos hb, dif_pos (h1.mpr hb)]
        have h3 : i - j = (i - (j + 1)) + 1 := by omega
        simp [h3]
      · rw [dif_neg hb, dif_neg (h1.not.mpr hb)]

/-- What a read gives after a sequence is stored: its element, or what stood there above it. -/
theorem Memory.read_store (m : Memory) (xs : List Nat) (i : Nat) :
    (m.store xs).read i = if i < xs.length then xs.getD i 0 else m.read i := by
  rw [store, read_cellsFrom_append]
  by_cases h : i < xs.length
  · have h' : 0 ≤ i ∧ i < 0 + xs.length := by omega
    rw [dif_pos h', if_pos h]
    simp only [Nat.sub_zero, List.getD_eq_getElem?_getD, List.getElem?_eq_getElem h, Option.getD_some]
    by_cases hx : xs[i] = unlisted
    · rw [if_pos hx, read_filter_lt m _ _ h, hx]
    · rw [if_neg hx]
  · have h' : ¬ (0 ≤ i ∧ i < 0 + xs.length) := by omega
    rw [dif_neg h', if_neg h, read_filter_ge m _ _ (by omega)]

theorem Memory.wfFrom_filter_ge : ∀ {m : Memory} {lo : Nat} (n : Nat), wfFrom lo m = true →
    wfFrom n (m.filter fun c => decide (n ≤ c.1)) = true
  | [], _, _, _ => rfl
  | (j, v) :: m, lo, n, h => by
    simp only [wfFrom, Bool.and_eq_true, decide_eq_true_eq] at h
    by_cases hj : n ≤ j
    · have h2 : m.filter (fun c => decide (n ≤ c.1)) = m.filter (fun c => decide (j + 1 ≤ c.1)) := by
        refine List.filter_congr fun c hc => ?_
        have hge : ∀ {m : Memory} {lo : Nat}, wfFrom lo m = true → ∀ c ∈ m, lo ≤ c.1 := by
          intro m
          induction m with
          | nil => simp
          | cons a m ih =>
            intro lo hm c hc
            simp only [wfFrom, Bool.and_eq_true, decide_eq_true_eq] at hm
            rcases List.mem_cons.mp hc with rfl | hc
            · exact hm.1.1
            · have := ih hm.2 c hc; omega
        have := hge h.2 c hc
        simp only [decide_eq_decide]; omega
      have ih := wfFrom_filter_ge (m := m) (j + 1) h.2
      simp only [hj, decide_true, List.filter_cons_of_pos, wfFrom, Bool.and_eq_true, decide_eq_true_eq]
      exact ⟨⟨trivial, h.1.2⟩, by rw [h2]; exact ih⟩
    · simpa [hj] using wfFrom_filter_ge n h.2

theorem Memory.wfFrom_cellsFrom_append : ∀ (xs : List Nat) (j : Nat) (m : Memory),
    wfFrom (j + xs.length) m = true → wfFrom j (cellsFrom j xs ++ m) = true
  | [], _, _, h => by simpa [cellsFrom] using h
  | x :: xs, j, m, h => by
    have ih := wfFrom_cellsFrom_append xs (j + 1) m (by
      have e : j + 1 + xs.length = j + (x :: xs).length := by simp only [List.length_cons]; omega
      rw [e]; exact h)
    by_cases hx : x = unlisted
    · simp only [cellsFrom, if_pos hx]
      exact wfFrom_mono (by omega) ih
    · simp only [cellsFrom, if_neg hx, List.cons_append, wfFrom, Bool.and_eq_true, decide_eq_true_eq]
      exact ⟨⟨le_rfl, hx⟩, ih⟩

/-- Storing a sequence keeps the canonical form. -/
theorem Memory.wf_store {m : Memory} (h : m.wf = true) (xs : List Nat) : (m.store xs).wf = true :=
  wfFrom_cellsFrom_append xs 0 _ (by simpa using wfFrom_filter_ge xs.length h)

theorem Memory.mem_cellsFrom : ∀ {xs : List Nat} {j : Nat} {c : Nat × Nat}, c ∈ cellsFrom j xs →
    c.1 < j + xs.length ∧ c.2 ∈ xs
  | [], _, _, h => by simp [cellsFrom] at h
  | x :: xs, j, c, h => by
    have step : c ∈ cellsFrom (j + 1) xs → c.1 < j + (x :: xs).length ∧ c.2 ∈ x :: xs := fun h => by
      have := mem_cellsFrom h
      exact ⟨by simp only [List.length_cons]; omega, List.mem_cons_of_mem _ this.2⟩
    by_cases hx : x = unlisted
    · simp only [cellsFrom, if_pos hx] at h
      exact step h
    · simp only [cellsFrom, if_neg hx, List.mem_cons] at h
      rcases h with rfl | h
      · simp
      · exact step h

/-- A cell after a sequence is stored is an old cell above it or holds one of its elements. -/
theorem Memory.mem_store {m : Memory} {xs : List Nat} {c : Nat × Nat} (h : c ∈ m.store xs) :
    c ∈ m ∨ (c.1 < xs.length ∧ c.2 ∈ xs) := by
  rcases List.mem_append.mp h with h | h
  · exact .inr (by simpa using mem_cellsFrom h)
  · exact .inl (List.mem_of_mem_filter h)

/-! ## Equal contents are equal data -/

theorem Memory.eq_of_read_eq : ∀ {m m' : Memory} {lo : Nat}, wfFrom lo m = true → wfFrom lo m' = true →
    (∀ i, m.read i = m'.read i) → m = m'
  | [], [], _, _, _, _ => rfl
  | [], (j, v) :: m', _, _, h', he => by
    simp only [wfFrom, Bool.and_eq_true, decide_eq_true_eq] at h'
    have := he j
    simp [read] at this
    exact absurd this.symm h'.1.2
  | (j, v) :: m, [], _, h, _, he => by
    simp only [wfFrom, Bool.and_eq_true, decide_eq_true_eq] at h
    have := he j
    simp [read] at this
    exact absurd this h.1.2
  | (j, v) :: m, (k, u) :: m', _, h, h', he => by
    simp only [wfFrom, Bool.and_eq_true, decide_eq_true_eq] at h h'
    have hj := he j
    have hk := he k
    by_cases hjk : j = k
    · subst hjk
      simp only [read, if_true] at hj
      subst hj
      have : m = m' := eq_of_read_eq h.2 h'.2 fun i => by
        by_cases hi : i = j
        · subst hi
          rw [read_of_lt h.2 (by omega), read_of_lt h'.2 (by omega)]
        · simpa [read, hi] using he i
      rw [this]
    · rcases Nat.lt_or_gt_of_ne hjk with hlt | hgt
      · have h0 : Memory.read m' j = unlisted := read_of_lt h'.2 (by omega)
        simp [read, hjk, h0] at hj
        exact absurd hj h.1.2
      · have h0 : Memory.read m k = unlisted := read_of_lt h.2 (by omega)
        have hkj : k ≠ j := fun e => hjk e.symm
        simp [read, hkj, h0] at hk
        exact absurd hk.symm h'.1.2

end Sys2Proof.Machine
end

