-- ==== Sys2Proof/Laws/Field.lean ====
section
/-! SUPPORT. The field functions against the mathematics of 41_field_arithmetic.md: results are reduced, `egcd` finds the
greatest common divisor and a coefficient, `finv` is the inverse, `fpow` is the power. -/

namespace Sys2Proof.Machine

/-! ## Results are reduced -/

theorem fromInteger_lt {m : Nat} (hm : 0 < m) (v : Nat) : fromInteger m v < m := Nat.mod_lt _ hm
theorem fadd_lt {m : Nat} (hm : 0 < m) (a b : Nat) : fadd m a b < m := Nat.mod_lt _ hm
theorem fsub_lt {m : Nat} (hm : 0 < m) (a b : Nat) : fsub m a b < m := Nat.mod_lt _ hm
theorem fmul_lt {m : Nat} (hm : 0 < m) (a b : Nat) : fmul m a b < m := Nat.mod_lt _ hm

theorem fneg_lt {m : Nat} (hm : 0 < m) (a : Nat) : fneg m a < m := by
  unfold fneg
  split <;> omega

/-! ## egcd -/

/-- The invariants of R133 at the head of an iteration. -/
structure EgcdInv (m a r0 r1 : Nat) (t0 t1 : Int) : Prop where
  gt : r1 < r0
  r0_eq : (m : Int) ∣ r0 - t0 * a
  r1_eq : (m : Int) ∣ r1 - t1 * a
  sum : |t1| * r0 + |t0| * r1 = m
  signs : t0 * t1 ≤ 0
  bound : 2 * |t0| ≤ m

theorem EgcdInv.start {m a : Nat} (h : a < m) : EgcdInv m a m a 0 1 where
  gt := h
  r0_eq := by simp
  r1_eq := by simp
  sum := by simp
  signs := by simp
  bound := by simp

theorem EgcdInv.next {m a r0 r1 : Nat} {t0 t1 : Int} (h : EgcdInv m a r0 r1 t0 t1) (hr : r1 ≠ 0) :
    EgcdInv m a r1 (r0 - r0 / r1 * r1) t1 (t0 - ((r0 / r1 : Nat) : Int) * t1) := by
  have hmod : r0 - r0 / r1 * r1 = r0 % r1 := by
    have := Nat.div_add_mod' r0 r1
    omega
  have hcast : ((r0 - r0 / r1 * r1 : Nat) : Int) = (r0 : Int) - ((r0 / r1 : Nat) : Int) * r1 := by
    have : r0 / r1 * r1 ≤ r0 := Nat.div_mul_le_self r0 r1
    push_cast [this]
    ring
  have habs : |t0 - ((r0 / r1 : Nat) : Int) * t1| = |t0| + ((r0 / r1 : Nat) : Int) * |t1| := by
    have hq : (0 : Int) ≤ ((r0 / r1 : Nat) : Int) := Int.natCast_nonneg _
    rcases le_total 0 t0 with h0 | h0 <;> rcases le_total 0 t1 with h1 | h1
    · have hz : t0 * t1 = 0 := le_antisymm h.signs (mul_nonneg h0 h1)
      rcases mul_eq_zero.mp hz with hz | hz
      · subst hz
        simp only [zero_sub, abs_neg, abs_zero, zero_add, abs_mul, abs_of_nonneg hq]
      · subst hz; simp
    · rw [abs_of_nonneg h0, abs_of_nonpos h1, abs_of_nonneg] <;> nlinarith
    · rw [abs_of_nonpos h0, abs_of_nonneg h1, abs_of_nonpos] <;> nlinarith
    · have hz : t0 * t1 = 0 := le_antisymm h.signs (mul_nonneg_of_nonpos_of_nonpos h0 h1)
      rcases mul_eq_zero.mp hz with hz | hz
      · subst hz
        simp only [zero_sub, abs_neg, abs_zero, zero_add, abs_mul, abs_of_nonneg hq]
      · subst hz; simp
  refine ⟨?_, h.r1_eq, ?_, ?_, ?_, ?_⟩
  · rw [hmod]; exact Nat.mod_lt _ (Nat.pos_of_ne_zero hr)
  · rw [hcast]
    have e : (r0 : Int) - ((r0 / r1 : Nat) : Int) * r1 - (t0 - ((r0 / r1 : Nat) : Int) * t1) * a
        = ((r0 : Int) - t0 * a) - ((r0 / r1 : Nat) : Int) * ((r1 : Int) - t1 * a) := by ring
    rw [e]
    exact dvd_sub h.r0_eq (Dvd.dvd.mul_left h.r1_eq _)
  · rw [hcast, habs, ← h.sum]; ring
  · have h1 : 0 ≤ t1 * t1 := mul_self_nonneg t1
    have hq : (0 : Int) ≤ ((r0 / r1 : Nat) : Int) := Int.natCast_nonneg _
    have hs := h.signs
    nlinarith [mul_nonneg hq h1]
  · have h2 : (2 : Int) ≤ r0 := by have := h.gt; omega
    have hs := h.sum
    have : 0 ≤ |t0| * (r1 : Int) := by positivity
    nlinarith [abs_nonneg t1]

theorem egcdLoop_spec {m a : Nat} : ∀ {fuel r0 r1 : Nat} {t0 t1 : Int}, r1 < fuel → EgcdInv m a r0 r1 t0 t1 →
    (egcdLoop fuel r0 r1 t0 t1).1 = Nat.gcd r0 r1 ∧
    (m : Int) ∣ (egcdLoop fuel r0 r1 t0 t1).1 - (egcdLoop fuel r0 r1 t0 t1).2 * a ∧
    2 * |(egcdLoop fuel r0 r1 t0 t1).2| ≤ m
  | 0, _, _, _, _, hf, _ => absurd hf (Nat.not_lt_zero _)
  | fuel + 1, r0, r1, t0, t1, hf, h => by
    by_cases hr : r1 = 0
    · subst hr
      simp only [egcdLoop, if_true, Nat.gcd_zero_right]
      exact ⟨trivial, h.r0_eq, h.bound⟩
    · have hmod : r0 - r0 / r1 * r1 = r0 % r1 := by
        have := Nat.div_add_mod' r0 r1
        omega
      have hlt := Nat.mod_lt r0 (Nat.pos_of_ne_zero hr)
      have ih := egcdLoop_spec (fuel := fuel) (by rw [hmod]; omega) (h.next hr)
      simp only [egcdLoop, if_neg hr]
      refine ⟨?_, ih.2⟩
      rw [ih.1, hmod, Nat.gcd_comm r1, ← Nat.gcd_rec, Nat.gcd_comm]

/-- What `egcd` returns (R133): `g = gcd(a, MOD)` and `t*a ≡ g (mod MOD)` with `2|t| <= MOD`. -/
theorem egcd_spec {m a : Nat} (h : a < m) :
    (egcd m a).1 = Nat.gcd a m ∧ (m : Int) ∣ (egcd m a).1 - (egcd m a).2 * a ∧ 2 * |(egcd m a).2| ≤ m := by
  have := egcdLoop_spec (fuel := a + 1) (Nat.lt_succ_self a) (EgcdInv.start h)
  rw [Nat.gcd_comm m a] at this
  exact this

theorem invertible_iff {m a : Nat} (h : a < m) : invertible m a = true ↔ Nat.gcd a m = 1 := by
  simp [invertible, (egcd_spec h).1]

theorem invertible_eq_false_iff {m a : Nat} (h : a < m) : invertible m a = false ↔ Nat.gcd a m ≠ 1 := by
  rw [← Bool.not_eq_true, invertible_iff h]

theorem normalise_lt {m : Nat} {t : Int} (hm : 0 < m) (h : 2 * |t| ≤ m) : normalise m t < m := by
  unfold normalise
  have h1 := abs_le.mp (show |t| ≤ (m : Int) / 2 by omega)
  split <;> omega

theorem normalise_cast {m : Nat} {t : Int} (h : 2 * |t| ≤ m) : (m : Int) ∣ (normalise m t : Int) - t := by
  unfold normalise
  have h1 := abs_le.mp (show |t| ≤ (m : Int) / 2 by omega)
  split
  · rw [Int.toNat_of_nonneg (by omega)]
    exact ⟨1, by ring⟩
  · rw [Int.toNat_of_nonneg (by omega)]
    exact ⟨0, by ring⟩

theorem finv_lt {m a : Nat} (h : a < m) : finv m a < m := normalise_lt (by omega) (egcd_spec h).2.2

/-- `finv` is the inverse where there is one (R130). -/
theorem mul_finv {m a : Nat} (h : a < m) (hg : Nat.gcd a m = 1) : a * finv m a % m = 1 % m := by
  have hs := egcd_spec h
  rw [hg] at hs
  have hd : (m : Int) ∣ ((a * finv m a : Nat) : Int) - (1 : Nat) := by
    have h1 := normalise_cast hs.2.2
    have h2 := hs.2.1
    rw [hs.1] at h2
    have e : ((a * finv m a : Nat) : Int) - (1 : Nat)
        = a * ((normalise m (egcd m a).2 : Int) - (egcd m a).2) - (((1 : Nat) : Int) - (egcd m a).2 * a) := by
      simp only [finv]; push_cast; ring
    rw [e]
    exact dvd_sub (Dvd.dvd.mul_left h1 _) h2
  exact ((Nat.modEq_iff_dvd.mpr (by simpa using hd)).symm)

theorem isInverse_finv {m a : Nat} (h : a < m) (hg : Nat.gcd a m = 1) : IsInverse m a (finv m a) :=
  ⟨finv_lt h, mul_finv h hg⟩

theorem IsInverse.coprime {m a v : Nat} (h : IsInverse m a v) : Nat.gcd a m = 1 := by
  have hd := (Nat.modEq_iff_dvd.mp (show a * v ≡ 1 [MOD m] from h.2))
  have hg1 : (Nat.gcd a m : Int) ∣ (m : Int) := by exact_mod_cast Nat.gcd_dvd_right a m
  have hg2 : (Nat.gcd a m : Int) ∣ ((a * v : Nat) : Int) := by
    exact_mod_cast (Nat.gcd_dvd_left a m).mul_right v
  have h1 : (Nat.gcd a m : Int) ∣ 1 := by
    have := (hg1.trans hd).add hg2
    simpa using this
  have := Int.eq_one_of_dvd_one (Int.natCast_nonneg _) h1
  exact_mod_cast this

/-- The inverse is unique (R130). -/
theorem IsInverse.unique {m a v u : Nat} (hv : IsInverse m a v) (hu : IsInverse m a u) : v = u := by
  have h1 : a * v ≡ a * u [MOD m] := hv.2.trans hu.2.symm
  have hc : Nat.gcd m a = 1 := by rw [Nat.gcd_comm]; exact hv.coprime
  have h2 : v ≡ u [MOD m] := Nat.ModEq.cancel_left_of_coprime hc h1
  exact Nat.ModEq.eq_of_lt_of_lt h2 hv.1 hu.1

/-! ## fpow -/

theorem fpowLoop_spec {m : Nat} : ∀ (fuel res base n : Nat), n < 2 ^ fuel →
    fpowLoop m fuel res base n % m = res * base ^ n % m
  | 0, res, base, n, h => by
    have : n = 0 := by simpa using h
    simp [fpowLoop, this]
  | fuel + 1, res, base, n, h => by
    by_cases hn : n = 0
    · simp [fpowLoop, hn]
    · have hlt : n / 2 < 2 ^ fuel := by rw [pow_succ] at h; omega
      have ih := fpowLoop_spec (m := m) fuel (if n % 2 = 1 then fmul m res base else res) (fmul m base base) (n / 2) hlt
      simp only [fpowLoop, if_neg hn]
      rw [ih]
      have hsq : (fmul m base base) ^ (n / 2) ≡ (base * base) ^ (n / 2) [MOD m] := (Nat.mod_modEq _ _).pow _
      rcases Nat.mod_two_eq_zero_or_one n with h2 | h2
      · have e : base ^ n = (base * base) ^ (n / 2) := by
          rw [← pow_two, ← pow_mul]; congr 1; omega
        rw [if_neg (by omega), e]
        exact (Nat.ModEq.refl res).mul hsq
      · have e : base ^ n = base * (base * base) ^ (n / 2) := by
          rw [← pow_two, ← pow_mul, ← pow_succ']; congr 1; omega
        rw [if_pos h2, e, ← mul_assoc]
        exact (Nat.mod_modEq _ _).mul hsq

theorem fpowLoop_lt {m : Nat} (hm : 0 < m) : ∀ (fuel res base n : Nat), res < m → fpowLoop m fuel res base n < m
  | 0, _, _, _, h => h
  | fuel + 1, res, base, n, h => by
    simp only [fpowLoop]
    split
    · exact h
    · refine fpowLoop_lt hm fuel _ _ _ ?_
      split
      · exact fmul_lt hm _ _
      · exact h

/-- `fpow(a, n)` equals `a^n mod MOD` (R138). -/
theorem fpow_eq {m : Nat} (hm : 2 ≤ m) (a n : Nat) : fpow m a n = a ^ n % m := by
  have h1 := fpowLoop_spec (m := m) (Nat.log2 n + 1) 1 a n Nat.lt_log2_self
  have h2 := fpowLoop_lt (m := m) (by omega) (Nat.log2 n + 1) 1 a n (by omega)
  rw [Nat.mod_eq_of_lt h2, one_mul] at h1
  exact h1

theorem fpow_lt {m : Nat} (hm : 2 ≤ m) (a n : Nat) : fpow m a n < m := by
  rw [fpow_eq hm]; exact Nat.mod_lt _ (by omega)

end Sys2Proof.Machine
end

