-- ==== Sys2Proof/Laws/Numeric.lean ====
section
/-! SUPPORT. The numeric utilities against the mathematics of 40_numeric_utilities.md. -/

namespace Sys2Proof.Machine

/-! ## is2pow and ceilLg -/

theorem testBit_of_log2 {n h : Nat} (h1 : 2 ^ h ≤ n) (h2 : n < 2 ^ (h + 1)) : n.testBit h = true := by
  have : n / 2 ^ h = 1 := Nat.div_eq_of_lt_le (by omega) (by rw [pow_succ] at h2; omega)
  simp [Nat.testBit_eq_decide_div_mod_eq, this]

/-- `is2pow` tests for a power of two (R105). -/
theorem is2pow_iff (n : Nat) : is2pow n = true ↔ PowerOfTwo n := by
  simp only [is2pow, Bool.and_eq_true, bne_iff_ne, ne_eq, beq_iff_eq, PowerOfTwo]
  constructor
  · rintro ⟨hn, hand⟩
    refine ⟨Nat.log2 n, Classical.byContradiction fun hne => ?_⟩
    have h1 : 2 ^ Nat.log2 n ≤ n := Nat.log2_self_le hn
    have h2 : n < 2 ^ (Nat.log2 n + 1) := Nat.lt_log2_self
    have ht := testBit_of_log2 h1 h2
    have ht' := testBit_of_log2 (n := n - 1) (h := Nat.log2 n) (by omega) (by omega)
    have : (n &&& (n - 1)).testBit (Nat.log2 n) = true := by rw [Nat.testBit_and, ht, ht']; rfl
    rw [hand] at this
    simp at this
  · rintro ⟨k, rfl⟩
    refine ⟨by positivity, ?_⟩
    rw [Nat.and_two_pow_sub_one_eq_mod, Nat.mod_self]

theorem is2pow_eq_false_iff (n : Nat) : is2pow n = false ↔ ¬ PowerOfTwo n := by
  rw [← is2pow_iff, Bool.not_eq_true]

theorem PowerOfTwo.pos {n : Nat} (h : PowerOfTwo n) : 0 < n := by
  obtain ⟨k, rfl⟩ := h
  positivity

theorem ceilLg_two_pow (k : Nat) : ceilLg (2 ^ k) = k := by
  simp [ceilLg, Nat.log2_two_pow]

theorem PowerOfTwo.eq_ceilLg {n : Nat} (h : PowerOfTwo n) : n = 2 ^ ceilLg n := by
  obtain ⟨k, rfl⟩ := h
  rw [ceilLg_two_pow]

/-- `ceilLg(n)` is the least `t` with `2^t >= n` (R103). -/
theorem ceilLg_le_iff {n : Nat} (hn : n ≠ 0) (t : Nat) : ceilLg n ≤ t ↔ n ≤ 2 ^ t := by
  have h1 : 2 ^ Nat.log2 n ≤ n := Nat.log2_self_le hn
  have h2 : n < 2 ^ (Nat.log2 n + 1) := Nat.lt_log2_self
  unfold ceilLg
  split
  · next h =>
    constructor
    · intro ht
      exact h.le.trans (Nat.pow_le_pow_right (by norm_num) ht)
    · intro ht
      exact (Nat.pow_le_pow_iff_right (by norm_num)).mp (h1.trans ht)
  · next h =>
    constructor
    · intro ht
      exact h2.le.trans (Nat.pow_le_pow_right (by norm_num) ht)
    · intro ht
      have : 2 ^ Nat.log2 n < 2 ^ t := lt_of_lt_of_le (lt_of_le_of_ne h1 (Ne.symm h)) ht
      exact (Nat.pow_lt_pow_iff_right (by norm_num)).mp this

/-! ## bitReverse -/

@[simp] theorem bitReverse_zero (v : Nat) : bitReverse v 0 = 0 := rfl

/-- Bit 0 goes to the top, the rest is reversed below it. -/
theorem bitReverse_succ (v nb : Nat) : bitReverse v (nb + 1) = 2 ^ nb * (v % 2) + bitReverse (v / 2) nb := by
  have h0 : (v.testBit 0).toNat = v % 2 := by
    rcases Nat.mod_two_eq_zero_or_one v with h | h <;> simp [Nat.testBit_zero, h]
  unfold bitReverse
  rw [List.range_succ_eq_map, List.map_cons, List.sum_cons, List.map_map, h0, mul_comm]
  congr 2
  refine List.map_congr_left fun i hi => ?_
  have hi := List.mem_range.mp hi
  have e : nb - (i + 1) = nb - 1 - i := by omega
  simp [Nat.testBit_succ, e]

theorem bitReverse_lt : ∀ (nb v : Nat), bitReverse v nb < 2 ^ nb
  | 0, _ => by simp
  | nb + 1, v => by
    have ih := bitReverse_lt nb (v / 2)
    rw [bitReverse_succ, pow_succ]
    rcases Nat.mod_two_eq_zero_or_one v with h | h <;> rw [h] <;> omega

/-- Bit `i` of the input becomes bit `nb-1-i` of the output (R101). -/
theorem testBit_bitReverse : ∀ (nb v i : Nat),
    (bitReverse v nb).testBit i = (decide (i < nb) && v.testBit (nb - 1 - i))
  | 0, v, i => by simp
  | nb + 1, v, i => by
    have ih := testBit_bitReverse nb (v / 2)
    rw [bitReverse_succ, Nat.testBit_two_pow_mul_add _ (bitReverse_lt nb _)]
    by_cases h : i < nb
    · have e : nb - i = (nb - 1 - i) + 1 := by omega
      have h' : i < nb + 1 := by omega
      simp [h, h', ih, e, Nat.testBit_succ]
    · by_cases h2 : i = nb
      · subst h2
        simp
      · have h3 : ¬ i < nb + 1 := by omega
        have h4 : i - nb ≠ 0 := by omega
        simp only [h, h3, if_false, decide_false, Bool.false_and]
        rcases Nat.mod_two_eq_zero_or_one v with hv | hv <;> rw [hv]
        · simp
        · exact Nat.testBit_lt_two_pow (by
            calc 1 = 2 ^ 0 := rfl
              _ < 2 ^ (i - nb) := Nat.pow_lt_pow_right (by norm_num) (by omega))

end Sys2Proof.Machine
end

