-- ==== Sys2Proof/Laws/Transform.lean ====
section
/-! SUPPORT. What the loops of the NTT engine compute, on lists: the permutation slot by slot, a stage slot by slot, the equality
of the two variants, and the sum a network computes for a root with `w^(n/2) = -1`. -/

namespace Sys2Proof.Machine

/-! ## Loops and slots -/

/-- Induction along a loop over `0..n-1`. -/
theorem forLoop_induct {α : Type} {f : Nat → α → α} {x : α} {P : Nat → α → Prop} :
    ∀ {n : Nat}, P 0 x → (∀ k, k < n → ∀ y, P k y → P (k + 1) (f k y)) → P n (forLoop n f x)
  | 0, h0, _ => h0
  | n + 1, h0, hs => hs n (Nat.lt_succ_self n) _ (forLoop_induct h0 fun k hk => hs k (Nat.lt_succ_of_lt hk))

/-- Two loops with the same body on the range give the same result. -/
theorem forLoop_congr {α : Type} {f g : Nat → α → α} {x : α} {P : α → Prop} (n : Nat) (h0 : P x)
    (hf : ∀ k, k < n → ∀ y, P y → P (f k y)) (h : ∀ k, k < n → ∀ y, P y → f k y = g k y) :
    forLoop n f x = forLoop n g x :=
  (forLoop_induct (P := fun k y => P y ∧ y = forLoop k g x) ⟨h0, rfl⟩ fun k hk y hy =>
    ⟨hf k hk y hy.1, by rw [forLoop, ← hy.2, h k hk y hy.1]⟩).2

theorem getD_set (xs : List Nat) (i k v : Nat) :
    (xs.set i v).getD k 0 = if k = i ∧ i < xs.length then v else xs.getD k 0 := by
  simp only [List.getD_eq_getElem?_getD, List.getElem?_set]
  by_cases h : i = k
  · subst h
    by_cases hl : i < xs.length <;> simp [hl]
  · simp [h, Ne.symm h]

theorem ext_getD {xs ys : List Nat} (hl : xs.length = ys.length) (h : ∀ i, i < xs.length → xs.getD i 0 = ys.getD i 0) :
    xs = ys :=
  List.ext_getElem hl fun i h1 h2 => by simpa [List.getD_eq_getElem?_getD, h1, h2] using h i h1

theorem forall_mem_iff_getD {xs : List Nat} {P : Nat → Prop} : (∀ x ∈ xs, P x) ↔ ∀ i, i < xs.length → P (xs.getD i 0) := by
  constructor
  · intro h i hi
    exact h _ (by simp [List.getD_eq_getElem?_getD, hi])
  · intro h x hx
    obtain ⟨i, hi, rfl⟩ := List.mem_iff_getElem.mp hx
    simpa [List.getD_eq_getElem?_getD, hi] using h i hi

/-! ## The permutation -/

@[simp] theorem swapSlots_length (xs : List Nat) (i j : Nat) : (swapSlots xs i j).length = xs.length := by
  simp [swapSlots]

theorem swapSlots_getD {xs : List Nat} {i j : Nat} (hi : i < xs.length) (hj : j < xs.length) (k : Nat) :
    (swapSlots xs i j).getD k 0 = if k = j then xs.getD i 0 else if k = i then xs.getD j 0 else xs.getD k 0 := by
  simp only [swapSlots, getD_set, List.length_set, hi, hj, and_true]

/-- Bit reversal is an involution below `2^t` (R101). -/
theorem bitReverse_bitReverse {t v : Nat} (h : v < 2 ^ t) : bitReverse (bitReverse v t) t = v := by
  apply Nat.eq_of_testBit_eq
  intro i
  rw [testBit_bitReverse, testBit_bitReverse]
  by_cases hi : i < t
  · have h1 : t - 1 - i < t := by omega
    have h2 : t - 1 - (t - 1 - i) = i := by omega
    simp [hi, h1, h2]
  · have : v.testBit i = false := Nat.testBit_lt_two_pow (lt_of_lt_of_le h (Nat.pow_le_pow_right (by omega) (by omega)))
    simp [hi, this]

/-- `permute` on a length `2^t`: new slot `i` holds old slot `bitReverse(i, t)` (R189). -/
theorem permuteSeq_spec {xs : List Nat} {t : Nat} (hl : xs.length = 2 ^ t) :
    (permuteSeq xs).length = xs.length ∧ ∀ i, i < xs.length → (permuteSeq xs).getD i 0 = xs.getD (bitReverse i t) 0 := by
  have hrev : ∀ k, bitReverse k t < 2 ^ t := bitReverse_lt t
  have h := forLoop_induct (n := xs.length) (x := xs)
    (f := fun k ys => if k < bitReverse k (ceilLg xs.length) then swapSlots ys k (bitReverse k (ceilLg xs.length)) else ys)
    (P := fun k ys => ys.length = xs.length ∧ ∀ i, i < xs.length →
      ys.getD i 0 = if i < k ∨ bitReverse i t < k then xs.getD (bitReverse i t) 0 else xs.getD i 0)
    ⟨rfl, fun i _ => by simp⟩ (by
      intro k hk ys ⟨hlen, hy⟩
      rw [show ceilLg xs.length = t by rw [hl, ceilLg_two_pow]]
      have hk' : k < 2 ^ t := hl ▸ hk
      have hkk := bitReverse_bitReverse hk'
      split
      · rename_i hlt
        refine ⟨by simpa using hlen, fun i hi => ?_⟩
        have hi' : i < 2 ^ t := hl ▸ hi
        have hii := bitReverse_bitReverse hi'
        rw [swapSlots_getD (by omega) (by rw [hlen, hl]; exact hrev k)]
        by_cases h1 : i = bitReverse k t
        · subst h1
          have : ys.getD k 0 = xs.getD k 0 := by rw [hy k hk]; simp; omega
          rw [if_pos rfl, this, hkk, if_pos (Or.inr (Nat.lt_succ_self k))]
        · rw [if_neg h1]
          by_cases h2 : i = k
          · subst h2
            have : ys.getD (bitReverse i t) 0 = xs.getD (bitReverse i t) 0 := by
              rw [hy _ (by rw [hl]; exact hrev i), hkk]; simp; omega
            rw [if_pos rfl, this, if_pos (Or.inl (Nat.lt_succ_self i))]
          · have h3 : bitReverse i t ≠ k := fun h => h1 (by rw [← h, hii])
            rw [if_neg h2, hy i hi]
            congr 1
            apply propext
            omega
      · rename_i hge
        refine ⟨hlen, fun i hi => ?_⟩
        have hi' : i < 2 ^ t := hl ▸ hi
        have hii := bitReverse_bitReverse hi'
        rw [hy i hi]
        by_cases h2 : i = k
        · subst h2
          by_cases h3 : bitReverse i t = i
          · rw [h3]; simp
          · rw [if_pos (by omega), if_pos (by omega)]
        · by_cases h3 : bitReverse i t = k
          · have h4 : i < k := by
              have : i = bitReverse k t := by rw [← h3, hii]
              omega
            rw [if_pos (by omega), if_pos (by omega)]
          · congr 1
            apply propext
            omega)
  refine ⟨h.1, fun i hi => ?_⟩
  have := h.2 i hi
  rwa [if_pos (Or.inl hi)] at this

/-! ## One stage -/

/-- The twiddle factor of position `j`: 1 multiplied `j` times by `step` (R193). -/
def twiddle (m step : Nat) : Nat → Nat
  | 0 => 1
  | j + 1 => fmul m (twiddle m step j) step

/-- The value a stage with half-length `half` leaves in slot `p`. -/
def stageAt (m step half : Nat) (xs : List Nat) (p : Nat) : Nat :=
  if p % (2 * half) < half then
    fadd m (xs.getD p 0) (fmul m (twiddle m step (p % (2 * half))) (xs.getD (p + half) 0))
  else fsub m (xs.getD (p - half) 0) (fmul m (twiddle m step (p % (2 * half) - half)) (xs.getD p 0))

@[simp] theorem butterflySlots_length (m w lo hi : Nat) (xs : List Nat) :
    (butterflySlots m w lo hi xs).length = xs.length := by
  simp [butterflySlots]

theorem butterflySlots_getD {m w lo hi : Nat} {xs : List Nat} (hlo : lo < xs.length) (hhi : hi < xs.length) (k : Nat) :
    (butterflySlots m w lo hi xs).getD k 0 =
      if k = hi then fsub m (xs.getD lo 0) (fmul m w (xs.getD hi 0))
      else if k = lo then fadd m (xs.getD lo 0) (fmul m w (xs.getD hi 0)) else xs.getD k 0 := by
  simp only [butterflySlots, butterfly, getD_set, List.length_set, hlo, hhi, and_true]

/-- Part of a stage is done: the slots that `D` names hold their new values, the others their old ones. -/
def StagePart (m step half : Nat) (xs : List Nat) (D : Nat → Prop) (ys : List Nat) : Prop :=
  ys.length = xs.length ∧ ∀ p, p < xs.length → (D p → ys.getD p 0 = stageAt m step half xs p) ∧
    (¬ D p → ys.getD p 0 = xs.getD p 0)

/-- A slot is `k*L + j` or `k*L + j + L/2`, and those are its block and position. -/
theorem block_position {half k j : Nat} (hj : j < half) :
    (k * (2 * half) + j) % (2 * half) = j ∧ (k * (2 * half) + j) / (2 * half) = k ∧
    (k * (2 * half) + j + half) % (2 * half) = j + half ∧ (k * (2 * half) + j + half) / (2 * half) = k := by
  refine ⟨?_, ?_, ?_, ?_⟩
  · rw [Nat.mul_add_mod_of_lt (by omega)]
  · rw [Nat.mul_comm, Nat.mul_add_div (by omega), Nat.div_eq_of_lt (by omega), Nat.add_zero]
  · rw [Nat.add_assoc, Nat.mul_add_mod_of_lt (by omega)]
  · rw [Nat.add_assoc, Nat.mul_comm, Nat.mul_add_div (by omega), Nat.div_eq_of_lt (by omega), Nat.add_zero]

/-- The butterfly of block `k` and position `j` completes exactly the two slots with that block and position. -/
theorem StagePart.next {m step half r k j : Nat} {xs ys : List Nat} {D E : Nat → Prop}
    (hl : xs.length = r * (2 * half)) (hk : k < r) (hj : j < half) (h : StagePart m step half xs D ys)
    (hD : ∀ p, p < xs.length → p / (2 * half) = k → p % (2 * half) % half = j → ¬ D p)
    (hE : ∀ p, p < xs.length → (E p ↔ D p ∨ (p / (2 * half) = k ∧ p % (2 * half) % half = j))) :
    StagePart m step half xs E
      (butterflySlots m (twiddle m step j) (k * (2 * half) + j) (k * (2 * half) + j + half) ys) := by
  obtain ⟨hlo1, hlo2, hhi1, hhi2⟩ := block_position (half := half) (k := k) hj
  have hbound : k * (2 * half) + j + half < xs.length := by
    have : (k + 1) * (2 * half) ≤ r * (2 * half) := Nat.mul_le_mul_right _ hk
    rw [hl]
    have h2 : (k + 1) * (2 * half) = k * (2 * half) + 2 * half := by ring
    omega
  have hjlo : (k * (2 * half) + j) % (2 * half) % half = j := by rw [hlo1, Nat.mod_eq_of_lt hj]
  have hjhi : (k * (2 * half) + j + half) % (2 * half) % half = j := by
    rw [hhi1, Nat.add_mod_right, Nat.mod_eq_of_lt hj]
  have old : ∀ p, p < xs.length → ¬ D p → ys.getD p 0 = xs.getD p 0 := fun p hp => (h.2 p hp).2
  have olo := old _ (by omega) (hD _ (by omega) hlo2 hjlo)
  have ohi := old _ hbound (hD _ hbound hhi2 hjhi)
  refine ⟨by simpa using h.1, fun p hp => ?_⟩
  rw [butterflySlots_getD (by rw [h.1]; omega) (by rw [h.1]; omega), olo, ohi, hE p hp]
  by_cases h1 : p = k * (2 * half) + j + half
  · subst h1
    refine ⟨fun _ => ?_, fun hn => absurd (Or.inr ⟨hhi2, hjhi⟩) hn⟩
    rw [if_pos rfl, stageAt, hhi1, if_neg (by omega), Nat.add_sub_cancel, Nat.add_sub_cancel]
  · rw [if_neg h1]
    by_cases h2 : p = k * (2 * half) + j
    · subst h2
      refine ⟨fun _ => ?_, fun hn => absurd (Or.inr ⟨hlo2, hjlo⟩) hn⟩
      rw [if_pos rfl, stageAt, hlo1, if_pos hj]
    · rw [if_neg h2]
      have hnot : ¬ (p / (2 * half) = k ∧ p % (2 * half) % half = j) := by
        rintro ⟨hpk, hpj⟩
        have hdm := Nat.div_add_mod' p (2 * half)
        have hlt : p % (2 * half) < 2 * half := Nat.mod_lt _ (by omega)
        rw [hpk] at hdm
        by_cases hh : p % (2 * half) < half
        · rw [Nat.mod_eq_of_lt hh] at hpj
          omega
        · have : p % (2 * half) % half = p % (2 * half) - half := by
            rw [Nat.mod_eq_sub_mod (by omega), Nat.mod_eq_of_lt (by omega)]
          omega
      exact ⟨fun hd => (h.2 p hp).1 (hd.resolve_right hnot), fun hn => (h.2 p hp).2 fun hd => hn (Or.inl hd)⟩

/-- Stage `q` of variant A, slot by slot (R196). -/
theorem stageA_spec {m w t q : Nat} {xs : List Nat} (hl : xs.length = 2 ^ t) (hq : q < t) :
    (stageA m w (q + 1) xs).length = xs.length ∧ ∀ p, p < xs.length → (stageA m w (q + 1) xs).getD p 0 =
      stageAt m (fpow m w (2 ^ (t - q - 1))) (2 ^ q) xs p := by
  have hpow : 2 ^ (q + 1) = 2 * 2 ^ q := by rw [pow_succ, Nat.mul_comm]
  have hr : xs.length / (2 * 2 ^ q) = 2 ^ (t - q - 1) := by
    rw [← hpow, hl, Nat.pow_div (by omega) (by omega)]; congr 1
  have hl' : xs.length = 2 ^ (t - q - 1) * (2 * 2 ^ q) := by
    rw [hl, ← hpow, ← pow_add]; congr 1; omega
  have hpos : 0 < 2 ^ q := by positivity
  simp only [stageA, hpow, hr, Nat.mul_div_cancel_left (2 ^ q) (show 0 < 2 by omega)]
  generalize hS : fpow m w (2 ^ (t - q - 1)) = step
  generalize 2 ^ (t - q - 1) = r at *
  generalize 2 ^ q = half at *
  have main := forLoop_induct (n := half) (x := (xs, 1))
    (f := fun j (p : List Nat × Nat) =>
      (forLoop r (fun k ys => butterflySlots m p.2 (k * (2 * half) + j) (k * (2 * half) + j + half) ys) p.1, fmul m p.2 step))
    (P := fun j p => p.2 = twiddle m step j ∧ StagePart m step half xs (fun s => s % (2 * half) % half < j) p.1)
    ⟨rfl, rfl, fun p _ => ⟨fun h => absurd h (by simp), fun _ => rfl⟩⟩ (by
      rintro j hj ⟨ys, tw⟩ ⟨htw, hpart⟩
      subst htw
      refine ⟨rfl, ?_⟩
      have inner := forLoop_induct (n := r) (x := ys)
        (f := fun k zs => butterflySlots m (twiddle m step j) (k * (2 * half) + j) (k * (2 * half) + j + half) zs)
        (P := fun k zs => StagePart m step half xs
          (fun s => s % (2 * half) % half < j ∨ (s % (2 * half) % half = j ∧ s / (2 * half) < k)) zs)
        (by simpa using hpart) (by
          intro k hk zs hz
          exact StagePart.next hl' hk hj hz (fun p _ h1 h2 => by omega) (fun p _ => by omega))
      refine ⟨inner.1, fun p hp => ?_⟩
      have hb : p / (2 * half) < r := Nat.div_lt_of_lt_mul (by rw [Nat.mul_comm, ← hl']; exact hp)
      refine ⟨fun h => (inner.2 p hp).1 (by omega), fun h => (inner.2 p hp).2 (by omega)⟩)
  exact ⟨main.2.1, fun p hp => (main.2.2 p hp).1 (Nat.mod_lt _ hpos)⟩

/-- Stage `q` of variant B, slot by slot (R197). -/
theorem stageB_spec {m w t q : Nat} {xs : List Nat} (hl : xs.length = 2 ^ t) (hq : q < t) :
    (stageB m w (q + 1) xs).length = xs.length ∧ ∀ p, p < xs.length → (stageB m w (q + 1) xs).getD p 0 =
      stageAt m (fpow m w (2 ^ (t - q - 1))) (2 ^ q) xs p := by
  have hpow : 2 ^ (q + 1) = 2 * 2 ^ q := by rw [pow_succ, Nat.mul_comm]
  have hr : xs.length / (2 * 2 ^ q) = 2 ^ (t - q - 1) := by
    rw [← hpow, hl, Nat.pow_div (by omega) (by omega)]; congr 1
  have hl' : xs.length = 2 ^ (t - q - 1) * (2 * 2 ^ q) := by
    rw [hl, ← hpow, ← pow_add]; congr 1; omega
  have hpos : 0 < 2 ^ q := by positivity
  simp only [stageB, hpow, hr, Nat.mul_div_cancel_left (2 ^ q) (show 0 < 2 by omega)]
  generalize hS : fpow m w (2 ^ (t - q - 1)) = step
  generalize 2 ^ (t - q - 1) = r at *
  generalize 2 ^ q = half at *
  have main := forLoop_induct (n := r) (x := xs)
    (f := fun k ys => (forLoop half (fun j (p : List Nat × Nat) =>
      (butterflySlots m p.2 (k * (2 * half) + j) (k * (2 * half) + j + half) p.1, fmul m p.2 step)) (ys, 1)).1)
    (P := fun k ys => StagePart m step half xs (fun s => s / (2 * half) < k) ys)
    ⟨rfl, fun p _ => ⟨fun h => absurd h (by simp), fun _ => rfl⟩⟩ (by
      intro k hk ys hpart
      have inner := forLoop_induct (n := half) (x := (ys, 1))
        (f := fun j (p : List Nat × Nat) =>
          (butterflySlots m p.2 (k * (2 * half) + j) (k * (2 * half) + j + half) p.1, fmul m p.2 step))
        (P := fun j p => p.2 = twiddle m step j ∧ StagePart m step half xs
          (fun s => s / (2 * half) < k ∨ (s / (2 * half) = k ∧ s % (2 * half) % half < j)) p.1)
        ⟨rfl, by simpa using hpart⟩ (by
          rintro j hj ⟨zs, tw⟩ ⟨htw, hz⟩
          subst htw
          exact ⟨rfl, StagePart.next hl' hk hj hz (fun p _ h1 h2 => by omega) (fun p _ => by omega)⟩)
      refine ⟨inner.2.1, fun p hp => ?_⟩
      have hb : p % (2 * half) % half < half := Nat.mod_lt _ hpos
      refine ⟨fun h => (inner.2.2 p hp).1 (by omega), fun h => (inner.2.2 p hp).2 (by omega)⟩)
  exact ⟨main.1, fun p hp => (main.2 p hp).1 (Nat.div_lt_of_lt_mul (by rw [Nat.mul_comm, ← hl']; exact hp))⟩

/-! ## The whole network -/

/-- The slots after stages `1..q`. -/
def networkAt (m w t : Nat) (xs : List Nat) : Nat → Nat → Nat
  | 0, p => xs.getD (bitReverse p t) 0
  | q + 1, p =>
    if p % (2 * 2 ^ q) < 2 ^ q then
      fadd m (networkAt m w t xs q p)
        (fmul m (twiddle m (fpow m w (2 ^ (t - q - 1))) (p % (2 * 2 ^ q))) (networkAt m w t xs q (p + 2 ^ q)))
    else
      fsub m (networkAt m w t xs q (p - 2 ^ q))
        (fmul m (twiddle m (fpow m w (2 ^ (t - q - 1))) (p % (2 * 2 ^ q) - 2 ^ q)) (networkAt m w t xs q p))

/-- The partner slots of a butterfly of stage `q + 1` lie in the sequence. -/
theorem partner_lt {t q p : Nat} (hq : q < t) (hp : p < 2 ^ t) :
    (p % (2 * 2 ^ q) < 2 ^ q → p + 2 ^ q < 2 ^ t) ∧ (¬ p % (2 * 2 ^ q) < 2 ^ q → 2 ^ q ≤ p) := by
  have hl : 2 ^ t = 2 ^ (t - q - 1) * (2 * 2 ^ q) := by
    rw [← pow_succ', ← pow_add]; congr 1; omega
  have hdm := Nat.div_add_mod' p (2 * 2 ^ q)
  have hk : p / (2 * 2 ^ q) < 2 ^ (t - q - 1) := Nat.div_lt_of_lt_mul (by rw [Nat.mul_comm, ← hl]; exact hp)
  have hmul : (p / (2 * 2 ^ q) + 1) * (2 * 2 ^ q) ≤ 2 ^ (t - q - 1) * (2 * 2 ^ q) := Nat.mul_le_mul_right _ hk
  rw [add_mul, one_mul] at hmul
  constructor <;> intro h <;> omega

/-- A loop of stages, each of which acts slot by slot, computes `networkAt`. -/
theorem network_spec {m w t : Nat} {xs : List Nat} {stage : Nat → List Nat → List Nat} (hl : xs.length = 2 ^ t)
    (hs : ∀ q, q < t → ∀ ys : List Nat, ys.length = 2 ^ t → (stage q ys).length = ys.length ∧
      ∀ p, p < ys.length → (stage q ys).getD p 0 = stageAt m (fpow m w (2 ^ (t - q - 1))) (2 ^ q) ys p) :
    (forLoop t stage (permuteSeq xs)).length = xs.length ∧
      ∀ p, p < xs.length → (forLoop t stage (permuteSeq xs)).getD p 0 = networkAt m w t xs t p := by
  have h0 := permuteSeq_spec hl
  refine forLoop_induct (P := fun q (ys : List Nat) => ys.length = xs.length ∧
    ∀ p, p < xs.length → ys.getD p 0 = networkAt m w t xs q p)
    h0 ?_
  intro q hq ys ⟨hlen, hy⟩
  obtain ⟨h1, h2⟩ := hs q hq ys (hlen.trans hl)
  refine ⟨h1.trans hlen, fun p hp => ?_⟩
  rw [h2 p (by omega), stageAt, networkAt]
  have hpart := partner_lt hq (hl ▸ hp)
  split
  · rename_i h
    rw [hy p hp, hy _ (by rw [hl]; exact hpart.1 h)]
  · rw [hy p hp, hy _ (lt_of_le_of_lt (Nat.sub_le p (2 ^ q)) hp)]

/-- Variant A, slot by slot. -/
theorem forwardA_spec {m w t : Nat} {xs : List Nat} (hl : xs.length = 2 ^ t) :
    (forwardA m w xs).length = xs.length ∧ ∀ p, p < xs.length → (forwardA m w xs).getD p 0 = networkAt m w t xs t p := by
  rw [forwardA, hl, ceilLg_two_pow, ← hl]
  exact network_spec hl fun q hq ys hy => stageA_spec hy hq

/-- Variant B, slot by slot. -/
theorem forwardB_spec {m w t : Nat} {xs : List Nat} (hl : xs.length = 2 ^ t) :
    (forwardB m w xs).length = xs.length ∧ ∀ p, p < xs.length → (forwardB m w xs).getD p 0 = networkAt m w t xs t p := by
  rw [forwardB, hl, ceilLg_two_pow, ← hl]
  exact network_spec hl fun q hq ys hy => stageB_spec hy hq

/-- The two loop orders compute the same list (R198). -/
theorem forwardB_eq_forwardA {m w : Nat} {xs : List Nat} (h : PowerOfTwo xs.length) : forwardB m w xs = forwardA m w xs := by
  obtain ⟨t, hl⟩ := h
  have hA := forwardA_spec (m := m) (w := w) hl
  have hB := forwardB_spec (m := m) (w := w) hl
  exact ext_getD (hB.1.trans hA.1.symm) fun i hi => by
    rw [hB.2 i (by omega), hA.2 i (by omega)]

/-- Every slot a network leaves is reduced. -/
theorem networkAt_lt {m w t : Nat} {xs : List Nat} (hm : 0 < m) (hx : ∀ i, i < 2 ^ t → xs.getD i 0 < m) :
    ∀ q p, networkAt m w t xs q p < m
  | 0, p => hx _ (bitReverse_lt t p)
  | q + 1, p => by
    unfold networkAt
    split
    · exact fadd_lt hm _ _
    · exact fsub_lt hm _ _

/-! ## The recurrence a network follows -/

theorem twiddle_mod (m step : Nat) : ∀ j, twiddle m step j % m = step ^ j % m
  | 0 => rfl
  | j + 1 => by rw [twiddle, fmul, Nat.mod_mod, Nat.mul_mod, twiddle_mod m step j, ← Nat.mul_mod, pow_succ]

/-- The elements of `xs` with the indices `c`, `c + 2`, ..., as many as `n`. -/
def everyOther (xs : List Nat) (c n : Nat) : List Nat := (List.range n).map fun i => xs.getD (2 * i + c) 0

theorem everyOther_getD (xs : List Nat) (c : Nat) {n i : Nat} (h : i < n) :
    (everyOther xs c n).getD i 0 = xs.getD (2 * i + c) 0 := by
  simp [everyOther, List.getD_eq_getElem?_getD, h]

/-- Up to the last stage the two halves of a network are the networks of the even-indexed and of the odd-indexed elements, with the
squared root. -/
theorem networkAt_half {m w t c : Nat} {xs : List Nat} (hm : 2 ≤ m) (hc : c < 2) :
    ∀ q, q ≤ t → ∀ p, p < 2 ^ t → networkAt m w (t + 1) xs q (c * 2 ^ t + p) =
      networkAt m (w ^ 2 % m) t (everyOther xs c (2 ^ t)) q p
  | 0, _, p, hp => by
    have h1 : bitReverse (c * 2 ^ t + p) (t + 1) = 2 * bitReverse p t + c := by
      apply Nat.eq_of_testBit_eq
      intro i
      rw [testBit_bitReverse]
      rcases i with _ | i
      · rcases (by omega : c = 0 ∨ c = 1) with rfl | rfl
        · simp [Nat.testBit_lt_two_pow hp]
        · simp [Nat.testBit_two_pow_add_eq, Nat.testBit_lt_two_pow hp]
      · have h2 : (2 * bitReverse p t + c) / 2 = bitReverse p t := by omega
        rw [Nat.testBit_succ, h2, testBit_bitReverse]
        by_cases hi : i < t
        · have h3 : t + 1 - 1 - (i + 1) = t - 1 - i := by omega
          rw [h3, Nat.mul_comm, Nat.testBit_two_pow_mul_add _ hp]
          simp [hi, show t - 1 - i < t by omega]
        · simp [hi]
    rw [networkAt, networkAt, h1, everyOther_getD _ _ (bitReverse_lt t p)]
  | q + 1, hq, p, hp => by
    have ih := networkAt_half (w := w) (t := t) (xs := xs) hm hc q (by omega)
    have hmod : (c * 2 ^ t + p) % (2 * 2 ^ q) = p % (2 * 2 ^ q) := by
      have h2 : c * 2 ^ t = 2 * 2 ^ q * (c * 2 ^ (t - q - 1)) := by
        rw [← pow_succ', Nat.mul_left_comm, ← pow_add]; congr 2; omega
      rw [h2, Nat.mul_add_mod]
    have hstep : fpow m w (2 ^ (t + 1 - q - 1)) = fpow m (w ^ 2 % m) (2 ^ (t - q - 1)) := by
      rw [fpow_eq hm, fpow_eq hm, ← Nat.pow_mod, ← pow_mul, ← pow_succ', show t + 1 - q - 1 = t - q - 1 + 1 by omega]
    have hpart := partner_lt (show q < t by omega) hp
    rw [networkAt, networkAt, hmod, hstep]
    split
    · rename_i h
      rw [ih p hp, Nat.add_assoc, ih _ (hpart.1 h)]
    · rename_i h
      rw [ih p hp, Nat.add_sub_assoc (hpart.2 h), ih (p - 2 ^ q) (lt_of_le_of_lt (Nat.sub_le _ _) hp)]

theorem transformSlot_congr (m : Nat) : ∀ (t w : Nat) {x y : Nat → Nat}, (∀ i, i < 2 ^ t → x i = y i) → ∀ k,
    transformSlot m t w x k = transformSlot m t w y k
  | 0, _, _, _, h, _ => h 0 (by simp)
  | t + 1, w, x, y, h, k => by
    have hp : 2 ^ (t + 1) = 2 * 2 ^ t := pow_succ' 2 t
    have he := transformSlot_congr m t (w ^ 2 % m) (x := fun i => x (2 * i)) (y := fun i => y (2 * i)) fun i hi => h _ (by omega)
    have ho := transformSlot_congr m t (w ^ 2 % m) (x := fun i => x (2 * i + 1)) (y := fun i => y (2 * i + 1)) fun i hi => h _ (by omega)
    simp only [transformSlot, he, ho]

/-- The whole network, slot by slot, for every root and modulus. -/
theorem networkAt_eq_transformSlot {m : Nat} (hm : 2 ≤ m) : ∀ {t w : Nat} {xs : List Nat} {k : Nat}, k < 2 ^ t →
    networkAt m w t xs t k = transformSlot m t w (fun i => xs.getD i 0) k
  | 0, w, xs, k, hk => by simp [networkAt, transformSlot]
  | t + 1, w, xs, k, hk => by
    have hp : 2 ^ (t + 1) = 2 * 2 ^ t := pow_succ' 2 t
    have half : ∀ c, c < 2 → ∀ p, p < 2 ^ t → networkAt m w (t + 1) xs t (c * 2 ^ t + p) =
        transformSlot m t (w ^ 2 % m) (fun i => xs.getD (2 * i + c) 0) p := fun c hc p hlt => by
      rw [networkAt_half hm hc t le_rfl p hlt, networkAt_eq_transformSlot hm hlt]
      exact transformSlot_congr m t _ (fun i hi => everyOther_getD xs c hi) p
    have htw : ∀ j z, fmul m (twiddle m (fpow m w (2 ^ (t + 1 - t - 1))) j) z = w ^ j * z % m := fun j z => by
      rw [show t + 1 - t - 1 = 0 by omega, fpow_eq hm, fmul, Nat.mul_mod, twiddle_mod, pow_zero, pow_one, ← Nat.pow_mod, ← Nat.mul_mod]
    have even := half 0 (by omega)
    have odd := half 1 (by omega)
    simp only [zero_mul, one_mul, zero_add, add_zero] at even odd
    rw [networkAt, transformSlot, Nat.mod_eq_of_lt (show k < 2 * 2 ^ t by omega), htw, htw]
    by_cases hk2 : k < 2 ^ t
    · rw [if_pos hk2, if_pos hk2, even k hk2, Nat.add_comm k, odd k hk2, fadd, Nat.add_mod_mod]
    · obtain ⟨j, rfl⟩ := Nat.exists_eq_add_of_le (Nat.not_lt.mp hk2)
      rw [if_neg hk2, if_neg hk2, Nat.add_sub_cancel_left, even j (by omega), odd j (by omega), fsub]

/-! ## The sum a network computes -/

theorem fadd_cast (m a b : Nat) : ((fadd m a b : Nat) : ZMod m) = a + b := by
  rw [fadd, ZMod.natCast_mod]; push_cast; rfl

theorem fmul_cast (m a b : Nat) : ((fmul m a b : Nat) : ZMod m) = a * b := by
  rw [fmul, ZMod.natCast_mod]; push_cast; rfl

theorem fsub_cast {m b : Nat} (a : Nat) (h : b ≤ m) : ((fsub m a b : Nat) : ZMod m) = a - b := by
  rw [fsub, ZMod.natCast_mod, Nat.cast_sub (by omega)]; push_cast; simp

theorem fpow_cast {m : Nat} (hm : 2 ≤ m) (a n : Nat) : ((fpow m a n : Nat) : ZMod m) = (a : ZMod m) ^ n := by
  rw [fpow_eq hm, ZMod.natCast_mod]; push_cast; rfl

theorem twiddle_cast (m step : Nat) : ∀ j, ((twiddle m step j : Nat) : ZMod m) = (step : ZMod m) ^ j
  | 0 => by simp [twiddle]
  | j + 1 => by rw [twiddle, fmul_cast, twiddle_cast m step j, pow_succ]

/-- A sum over `0..2n-1` is the sum over its even and odd terms. -/
theorem sum_even_odd {R : Type} [CommRing R] (f : Nat → R) (n : Nat) :
    ∑ i ∈ Finset.range (2 * n), f i = ∑ i ∈ Finset.range n, f (2 * i) + ∑ i ∈ Finset.range n, f (2 * i + 1) := by
  induction n with
  | zero => simp
  | succ n ih =>
    rw [show 2 * (n + 1) = 2 * n + 1 + 1 by ring, Finset.sum_range_succ, Finset.sum_range_succ, ih,
      Finset.sum_range_succ, Finset.sum_range_succ]
    ring

/-- After stage `q`, block `k` holds the transform of length `2^q` of every `2^(t-q)`-th element of `xs`, starting at the
reversal of `k`. -/
theorem networkAt_cast {m w t : Nat} {xs : List Nat} (hm : 2 ≤ m) (hw : 1 ≤ t → (w : ZMod m) ^ 2 ^ (t - 1) = -1) :
    ∀ q, q ≤ t → ∀ k o, k < 2 ^ (t - q) → o < 2 ^ q → ((networkAt m w t xs q (k * 2 ^ q + o) : Nat) : ZMod m) =
      ∑ i ∈ Finset.range (2 ^ q),
        ((xs.getD (bitReverse k (t - q) + i * 2 ^ (t - q)) 0 : Nat) : ZMod m) * ((w : ZMod m) ^ 2 ^ (t - q)) ^ (i * o)
  | 0, _, k, o, _, ho => by
    have : o = 0 := by simpa using ho
    simp [this, networkAt]
  | q + 1, hq, k, o, hk, ho => by
    have ih := networkAt_cast (xs := xs) hm hw q (by omega)
    have htq : t - q = (t - (q + 1)) + 1 := by omega
    have hhalf : 2 ^ (q + 1) = 2 * 2 ^ q := pow_succ' 2 q
    have hkq : k < 2 ^ (t - (q + 1)) := hk
    have hkq2 : 2 * k + 1 < 2 ^ (t - q) := by rw [htq, pow_succ]; omega
    set W := (w : ZMod m) ^ 2 ^ (t - (q + 1)) with hWdef
    have hW : (w : ZMod m) ^ 2 ^ (t - q) = W ^ 2 := by rw [hWdef, ← pow_mul, ← pow_succ, ← htq]
    have hWhalf : W ^ 2 ^ q = -1 := by
      rw [hWdef, ← pow_mul, ← pow_add, ← hw (by omega)]
      congr 2; omega
    have hrev0 : bitReverse (2 * k) (t - q) = bitReverse k (t - (q + 1)) := by
      rw [htq, bitReverse_succ, Nat.mul_mod_right, Nat.mul_div_cancel_left k (by omega)]; simp
    have hrev1 : bitReverse (2 * k + 1) (t - q) = 2 ^ (t - (q + 1)) + bitReverse k (t - (q + 1)) := by
      rw [htq, bitReverse_succ]
      have h1 : (2 * k + 1) % 2 = 1 := by omega
      have h2 : (2 * k + 1) / 2 = k := by omega
      rw [h1, h2, Nat.mul_one]
    have hstep : ((fpow m w (2 ^ (t - q - 1)) : Nat) : ZMod m) = W := by
      rw [fpow_cast hm, hWdef]; congr 2
    -- the two half-length transforms a butterfly of this stage combines
    have hE : ∀ j, j < 2 ^ q → ((networkAt m w t xs q (k * 2 ^ (q + 1) + j) : Nat) : ZMod m) =
        ∑ i ∈ Finset.range (2 ^ q),
          ((xs.getD (bitReverse k (t - (q + 1)) + (2 * i) * 2 ^ (t - (q + 1))) 0 : Nat) : ZMod m) * W ^ (2 * i * j) := by
      intro j hj
      have := ih (2 * k) j (by omega) hj
      rw [show 2 * k * 2 ^ q + j = k * 2 ^ (q + 1) + j by rw [hhalf]; ring] at this
      rw [this, hrev0, hW]
      refine Finset.sum_congr rfl fun i _ => ?_
      rw [show i * 2 ^ (t - q) = 2 * i * 2 ^ (t - (q + 1)) by rw [htq, pow_succ]; ring, ← pow_mul, show 2 * (i * j) = 2 * i * j by ring]
    have hO : ∀ j, j < 2 ^ q → ((networkAt m w t xs q (k * 2 ^ (q + 1) + j + 2 ^ q) : Nat) : ZMod m) =
        ∑ i ∈ Finset.range (2 ^ q),
          ((xs.getD (bitReverse k (t - (q + 1)) + (2 * i + 1) * 2 ^ (t - (q + 1))) 0 : Nat) : ZMod m) * W ^ (2 * i * j) := by
      intro j hj
      have := ih (2 * k + 1) j hkq2 hj
      rw [show (2 * k + 1) * 2 ^ q + j = k * 2 ^ (q + 1) + j + 2 ^ q by rw [hhalf]; ring] at this
      rw [this, hrev1, hW]
      refine Finset.sum_congr rfl fun i _ => ?_
      rw [show 2 ^ (t - (q + 1)) + bitReverse k (t - (q + 1)) + i * 2 ^ (t - q) =
        bitReverse k (t - (q + 1)) + (2 * i + 1) * 2 ^ (t - (q + 1)) by rw [htq, pow_succ]; ring, ← pow_mul, show 2 * (i * j) = 2 * i * j by ring]
    have hmod : (k * 2 ^ (q + 1) + o) % (2 * 2 ^ q) = o := by
      rw [← hhalf, Nat.mul_add_mod_of_lt ho]
    rw [hhalf, sum_even_odd, ← hhalf, networkAt, hmod]
    by_cases hlow : o < 2 ^ q
    · rw [if_pos hlow, fadd_cast, fmul_cast, twiddle_cast, hstep, hE o hlow, hO o hlow, Finset.mul_sum]
      congr 1
      refine Finset.sum_congr rfl fun i _ => ?_
      rw [show (2 * i + 1) * o = 2 * i * o + o by ring, pow_add]
      ring
    · obtain ⟨j, rfl⟩ : ∃ j, o = j + 2 ^ q := ⟨o - 2 ^ q, by omega⟩
      have hj : j < 2 ^ q := by omega
      have hper : ∀ i, W ^ (2 * i * (j + 2 ^ q)) = W ^ (2 * i * j) := by
        intro i
        rw [show 2 * i * (j + 2 ^ q) = 2 * i * j + 2 ^ q * (2 * i) by ring, pow_add, pow_mul W (2 ^ q), hWhalf]
        simp
      have hle : ∀ a b, fmul m a b ≤ m := fun a b => (fmul_lt (by omega) a b).le
      rw [if_neg hlow, Nat.add_sub_cancel, show k * 2 ^ (q + 1) + (j + 2 ^ q) - 2 ^ q = k * 2 ^ (q + 1) + j by omega,
        fsub_cast _ (hle _ _), fmul_cast, twiddle_cast, hstep, hE j hj,
        show k * 2 ^ (q + 1) + (j + 2 ^ q) = k * 2 ^ (q + 1) + j + 2 ^ q by ring, hO j hj, sub_eq_add_neg, Finset.mul_sum,
        ← Finset.sum_neg_distrib]
      congr 1
      · exact Finset.sum_congr rfl fun i _ => by rw [hper i]
      · refine Finset.sum_congr rfl fun i _ => ?_
        rw [show (2 * i + 1) * (j + 2 ^ q) = 2 * i * (j + 2 ^ q) + j + 2 ^ q by ring, pow_add, pow_add, hper i, hWhalf]
        ring

/-- The whole network: for a root with `w^(n/2) = -1`, slot `k` holds the sum of `x[i] * w^(i*k)` (R199). -/
theorem networkAt_eq_sum {m w t : Nat} {xs : List Nat} (hm : 2 ≤ m) (hw : 1 ≤ t → (w : ZMod m) ^ 2 ^ (t - 1) = -1) {k : Nat}
    (hk : k < 2 ^ t) : ((networkAt m w t xs t k : Nat) : ZMod m) =
      ∑ i ∈ Finset.range (2 ^ t), ((xs.getD i 0 : Nat) : ZMod m) * (w : ZMod m) ^ (i * k) := by
  have := networkAt_cast (xs := xs) hm hw t le_rfl 0 k (by positivity) hk
  simpa [bitReverse_zero] using this

/-! ## The inverse sum -/

/-- The powers of an `n`-th root of unity other than 1 add up to 0 in a field. -/
theorem sum_pow_eq_zero {F : Type} [Field F] {z : F} {n : Nat} (hn : z ^ n = 1) (h1 : z ≠ 1) :
    ∑ k ∈ Finset.range n, z ^ k = 0 := by
  rw [geom_sum_eq h1, hn, sub_self, zero_div]

/-- The transform with the inverse root undoes the transform up to the factor `n`. -/
theorem inverse_sum {F : Type} [Field F] {w v : F} {n : Nat} (hwv : w * v = 1) (hn : w ^ n = 1)
    (hord : ∀ k, 0 < k → k < n → w ^ k ≠ 1) (x : Nat → F) {j : Nat} (hj : j < n) :
    ∑ k ∈ Finset.range n, (∑ i ∈ Finset.range n, x i * w ^ (i * k)) * v ^ (k * j) = n * x j := by
  have hinner : ∀ i ∈ Finset.range n, (∑ k ∈ Finset.range n, w ^ (i * k) * v ^ (k * j)) = if i = j then (n : F) else 0 := by
    intro i hi
    have hi' := Finset.mem_range.mp hi
    have hz : ∀ k, w ^ (i * k) * v ^ (k * j) = (w ^ i * v ^ j) ^ k := fun k => by
      rw [mul_pow, ← pow_mul, ← pow_mul, Nat.mul_comm k j]
    simp only [hz]
    by_cases h : i = j
    · subst h
      simp [← mul_pow, hwv]
    · rw [if_neg h]
      refine sum_pow_eq_zero ?_ fun hone => ?_
      · have hv : v ^ n = 1 := by
          have : (w * v) ^ n = 1 := by rw [hwv, one_pow]
          rwa [mul_pow, hn, one_mul] at this
        rw [mul_pow, ← pow_mul, ← pow_mul, Nat.mul_comm i n, Nat.mul_comm j n, pow_mul, pow_mul, hn, hv]
        simp
      · rcases lt_or_gt_of_ne h with hlt | hlt
        · refine hord (j - i) (by omega) (by omega) ?_
          have h2 : w ^ (j - i) * (w ^ i * v ^ j) = 1 := by
            rw [← mul_assoc, ← pow_add, Nat.sub_add_cancel hlt.le, ← mul_pow, hwv, one_pow]
          rwa [hone, mul_one] at h2
        · refine hord (i - j) (by omega) (by omega) ?_
          have h2 : w ^ i * v ^ j = w ^ (i - j) := by
            conv_lhs => rw [← Nat.sub_add_cancel hlt.le]
            rw [pow_add, mul_assoc, ← mul_pow, hwv, one_pow, mul_one]
          rw [← h2, hone]
  calc ∑ k ∈ Finset.range n, (∑ i ∈ Finset.range n, x i * w ^ (i * k)) * v ^ (k * j)
      = ∑ i ∈ Finset.range n, x i * ∑ k ∈ Finset.range n, w ^ (i * k) * v ^ (k * j) := by
        simp only [Finset.sum_mul, Finset.mul_sum]
        rw [Finset.sum_comm]
        exact Finset.sum_congr rfl fun i _ => Finset.sum_congr rfl fun k _ => by ring
    _ = ∑ i ∈ Finset.range n, x i * (if i = j then (n : F) else 0) :=
        Finset.sum_congr rfl fun i hi => by rw [hinner i hi]
    _ = n * x j := by
        simp [mul_comm, hj]

/-- The transform of a cyclic convolution is the product of the transforms. -/
theorem convolution_sum {R : Type} [CommRing R] {w : R} {n : Nat} (hn : w ^ n = 1) (x y : Nat → R) (k : Nat) :
    ∑ l ∈ Finset.range n, (∑ i ∈ Finset.range n, x i * y ((l + n - i) % n)) * w ^ (l * k) =
      (∑ i ∈ Finset.range n, x i * w ^ (i * k)) * ∑ j ∈ Finset.range n, y j * w ^ (j * k) := by
  have hshift : ∀ i, i < n → ∑ l ∈ Finset.range n, y ((l + n - i) % n) * w ^ (l * k) =
      w ^ (i * k) * ∑ j ∈ Finset.range n, y j * w ^ (j * k) := by
    intro i hi
    rw [Finset.mul_sum]
    refine Finset.sum_bij (fun l _ => (l + n - i) % n) ?_ ?_ ?_ ?_
    · intro l _
      exact Finset.mem_range.mpr (Nat.mod_lt _ (by omega))
    · intro l hl l' hl' h
      have hl := Finset.mem_range.mp hl
      have hl' := Finset.mem_range.mp hl'
      have e : ∀ a, a < n → (a + n - i) % n = if i ≤ a then a - i else a + n - i := by
        intro a ha
        split
        · rw [show a + n - i = (a - i) + n by omega, Nat.add_mod_right, Nat.mod_eq_of_lt (by omega)]
        · exact Nat.mod_eq_of_lt (by omega)
      simp only [e l hl, e l' hl'] at h
      split at h <;> split at h <;> omega
    · intro j hj
      have hj := Finset.mem_range.mp hj
      refine ⟨(j + i) % n, Finset.mem_range.mpr (Nat.mod_lt _ (by omega)), ?_⟩
      by_cases h : j + i < n
      · rw [Nat.mod_eq_of_lt h, show j + i + n - i = j + n by omega, Nat.add_mod_right, Nat.mod_eq_of_lt hj]
      · have he : (j + i) % n = j + i - n := by
          rw [Nat.mod_eq_sub_mod (by omega), Nat.mod_eq_of_lt (by omega)]
        rw [he, show j + i - n + n - i = j by omega, Nat.mod_eq_of_lt hj]
    · intro l hl
      have hl := Finset.mem_range.mp hl
      have hw : w ^ (l * k) = w ^ (i * k) * w ^ ((l + n - i) % n * k) := by
        rw [← pow_add, ← add_mul]
        by_cases h : i ≤ l
        · rw [show l + n - i = (l - i) + n by omega, Nat.add_mod_right, Nat.mod_eq_of_lt (show l - i < n by omega),
            Nat.add_sub_cancel' h]
        · rw [Nat.mod_eq_of_lt (show l + n - i < n by omega), show i + (l + n - i) = l + n by omega, add_mul, pow_add,
            pow_mul w n, hn, one_pow, mul_one]
      rw [hw]
      ring
  simp only [Finset.sum_mul]
  rw [Finset.sum_comm]
  refine Finset.sum_congr rfl fun i hi => ?_
  have := hshift i (Finset.mem_range.mp hi)
  simp only [mul_assoc, ← Finset.mul_sum, this]

end Sys2Proof.Machine
end

