-- ==== Sys2Proof/Laws/Machine.lean ====
section
/-! SUPPORT. What each shared operation can do, said once: the slots a bank write leaves, the fault entries, the ways a command
ends, the two transform commands. -/

namespace Sys2Proof.Machine

/-! ## Slots after an update -/

theorem State.seqRead_putSeq (s : State) (bk b : BankSel) (xs : List Nat) (i : Nat) :
    (s.putSeq bk xs).seqRead b i = if b = bk ∧ i < xs.length then xs.getD i 0 else s.seqRead b i := by
  by_cases h : b = bk
  · subst h
    simp [State.seqRead, Memory.read_store]
  · simp [State.seqRead, h, s.bank_putSeq_of_ne h]

theorem State.seqRead_seqWrite (s : State) (bk b : BankSel) (i k v : Nat) (hwf : (s.bank bk).slots.wf = true) :
    (s.seqWrite bk i v).seqRead b k = if b = bk ∧ k = i then v else s.seqRead b k := by
  by_cases h : b = bk
  · subst h
    by_cases hk : k = i
    · subst hk
      simp [State.seqRead, Memory.read_write_self hwf]
    · simp [State.seqRead, hk, Memory.read_write_of_ne _ hk]
  · simp [State.seqRead, h, s.bank_seqWrite_of_ne h]

theorem State.seqRead_spoil (s : State) (bk b : BankSel) (i : Nat) :
    (s.spoil bk).seqRead b i = if b = bk ∧ i < s.len bk then s.drawnElem i else s.seqRead b i := by
  rw [State.spoil_eq, State.seqRead_useDraws, State.seqRead_putSeq]
  simp only [List.length_map, List.length_range]
  split
  · rename_i h
    simp [List.getD_eq_getElem?_getD, h.2]
  · rfl

/-! ## Frames -/

theorem SameInstance.rfl' (s : State) : SameInstance s s := ⟨rfl, rfl⟩

theorem onlyR_setR (s : State) (d : RegNo) (v : Nat) : OnlyR d s (s.setR d v) :=
  ⟨⟨rfl, rfl⟩, fun _ h => s.getR_setR_of_ne h v, fun _ => rfl, rfl, fun _ => ⟨by simp, by simp⟩, ⟨rfl, rfl⟩, rfl, rfl, rfl⟩

theorem onlyR_setR_useDraws (s : State) (d : RegNo) (v n : Nat) : OnlyR d s ((s.setR d v).useDraws n) :=
  ⟨⟨rfl, rfl⟩, fun _ h => s.getR_setR_of_ne h v, fun _ => rfl, rfl, fun _ => ⟨by simp, by simp⟩, ⟨rfl, rfl⟩, rfl, rfl, rfl⟩

theorem onlyE_setE (s : State) (d : RegNo) (v : Nat) : OnlyE d s (s.setE d v) :=
  ⟨⟨rfl, rfl⟩, fun _ => rfl, fun _ h => s.getE_setE_of_ne h v, rfl, fun _ => ⟨by simp, by simp⟩, ⟨rfl, rfl⟩, rfl, rfl, rfl⟩

theorem onlyE_setE_useDraws (s : State) (d : RegNo) (v n : Nat) : OnlyE d s ((s.setE d v).useDraws n) :=
  ⟨⟨rfl, rfl⟩, fun _ => rfl, fun _ h => s.getE_setE_of_ne h v, rfl, fun _ => ⟨by simp, by simp⟩, ⟨rfl, rfl⟩, rfl, rfl, rfl⟩

theorem onlySlots_putSeq (s : State) (bk : BankSel) {xs : List Nat} (h : xs.length = s.len bk) :
    OnlySlots bk s (s.putSeq bk xs) := by
  refine ⟨⟨by simp, by simp⟩, fun _ => by simp, fun _ => by simp, by simp, fun _ => by simp, fun b i hb => ?_,
    ⟨by simp, by simp⟩, by simp, by simp, by simp⟩
  rw [State.seqRead_putSeq, if_neg]
  rintro ⟨h1, h2⟩
  rcases hb with hb | hb
  · exact hb h1
  · omega

/-! ## The ways a command ends -/

/-- `doneR` writes `r[d]` and changes nothing else. -/
theorem doneR_spec (s : State) (d : RegNo) (v : Nat) :
    ∃ t, doneR d v s = .next t ∧ t.getR d = v ∧ OnlyR d s t :=
  ⟨_, rfl, s.getR_setR_self d v, onlyR_setR s d v⟩

/-- `doneE` writes `e[d]` and changes nothing else. -/
theorem doneE_spec (s : State) (d : RegNo) (v : Nat) :
    ∃ t, doneE d v s = .next t ∧ t.getE d = v ∧ OnlyE d s t :=
  ⟨_, rfl, s.getE_setE_self d v, onlyE_setE s d v⟩

/-- `doneAnyW` writes some W-bit value to `r[d]` and changes nothing else. -/
theorem doneAnyW_spec (s : State) (d : RegNo) :
    ∃ t, doneAnyW d s = .next t ∧ t.getR d < 2 ^ s.cfg.w ∧ OnlyR d s t :=
  ⟨_, rfl, by simpa [State.drawnW] using Nat.mod_lt _ (by positivity), onlyR_setR_useDraws s d _ 1⟩

/-- `doneAnyElem` writes some reduced value to `e[d]` and changes nothing else. -/
theorem doneAnyElem_spec (s : State) (d : RegNo) (hm : 0 < s.mod) :
    ∃ t, doneAnyElem d s = .next t ∧ t.getE d < s.mod ∧ OnlyE d s t :=
  ⟨_, rfl, by simpa [State.drawnElem] using Nat.mod_lt _ hm, onlyE_setE_useDraws s d _ 1⟩

/-! ## Fault entries -/

theorem ErrorKind.code_ne_zero : ∀ x : ErrorKind, x.code ≠ 0 := by
  intro x; cases x <;> decide

theorem ErrorKind.code_injective : ∀ {x y : ErrorKind}, x.code = y.code → x = y := by
  intro x y; cases x <;> cases y <;> decide

/-- The fault entry writes ERR and EINFO and nothing else (R218). -/
theorem raise_spec (x : ErrorKind) (cw : CmdWord) (s : State) : ∃ t, raise x cw s = .next t ∧ OnlyRaised x cw s t :=
  ⟨_, rfl, rfl, rfl, ⟨rfl, rfl⟩, fun _ => rfl, fun _ => rfl, rfl, fun b => by cases b <;> exact ⟨rfl, fun _ => rfl⟩, rfl, rfl, rfl⟩

/-- The fault entry of the five commands that leave free values behind (R202). -/
theorem raiseSpoiled_spec (x : ErrorKind) (bk : BankSel) (cw : CmdWord) (s : State) (hm : 0 < s.mod) :
    ∃ t, raiseSpoiled x bk cw s = .next t ∧ t.err = x.code ∧ t.einfo = cw ∧ SameInstance s t ∧ SameR s t ∧ SameE s t ∧
      t.mod = s.mod ∧ (∀ b, t.len b = s.len b) ∧ (∀ k, k < s.len bk → t.seqRead bk k < s.mod) ∧
      (∀ b k, b ≠ bk ∨ s.len bk ≤ k → t.seqRead b k = s.seqRead b k) ∧ SameHost s t := by
  have hlen : ∀ b, ({ s.spoil bk with err := x.code, einfo := cw } : State).len b = s.len b := by
    intro b; cases b <;> cases bk <;> rfl
  have hread : ∀ b k, ({ s.spoil bk with err := x.code, einfo := cw } : State).seqRead b k = (s.spoil bk).seqRead b k := by
    intro b k; cases b <;> rfl
  refine ⟨_, rfl, rfl, rfl, ⟨by simp, by simp⟩, fun i => ?_, fun i => ?_, by simp, hlen, fun k hk => ?_, fun b k h => ?_,
    by simp, by simp, by simp⟩
  · exact s.getR_spoil bk i
  · exact s.getE_spoil bk i
  · rw [hread, State.seqRead_spoil, if_pos ⟨rfl, hk⟩]
    exact Nat.mod_lt _ hm
  · rw [hread, State.seqRead_spoil, if_neg]
    rintro ⟨h1, h2⟩
    rcases h with h | h
    · exact h h1
    · omega

/-! ## The transform commands -/

/-- The sequence of a bank has the length the bank's length register says, and a network keeps it. -/
theorem forward_length {m w : Nat} {xs : List Nat} (h : PowerOfTwo xs.length) :
    (forwardA m w xs).length = xs.length ∧ (forwardB m w xs).length = xs.length := by
  obtain ⟨t, ht⟩ := h
  exact ⟨(forwardA_spec ht).1, (forwardB_spec ht).1⟩

theorem rootOrderFails_iff {m : Nat} (hm : 2 ≤ m) (n w : Nat) : rootOrderFails m n w = true ↔ RootOrderWrong m n w := by
  simp only [rootOrderFails, Bool.or_eq_true, beq_iff_eq, bne_iff_ne, ne_eq, fpow_eq hm, fmul, RootOrderWrong, pow_two]

/-! ## Roots of unity -/

theorem two_pow_half {k : Nat} (hk : 1 ≤ k) : 2 ^ k / 2 = 2 ^ (k - 1) := by
  conv_lhs => rw [← Nat.sub_add_cancel hk, pow_succ, Nat.mul_div_cancel _ (by omega : 0 < 2)]

theorem one_le_of_two_le_two_pow {k : Nat} (h : 2 ≤ 2 ^ k) : 1 ≤ k := by
  rcases Nat.eq_zero_or_pos k with h0 | h0
  · simp [h0] at h
  · exact h0

/-- A power is 1 modulo `m` as a number exactly if it is 1 in the ring. -/
theorem pow_mod_eq_one_iff (m w j : Nat) : w ^ j % m = 1 % m ↔ (w : ZMod m) ^ j = 1 := by
  rw [← ZMod.natCast_eq_natCast_iff' (w ^ j) 1 m]
  push_cast
  rfl

/-- For a power of two the root-order test passes exactly for the order `n`: its order divides `n` and not `n/2`. -/
theorem not_rootOrderWrong_iff {m n w : Nat} (hm : 2 ≤ m) (hn : PowerOfTwo n) (h2 : 2 ≤ n) :
    ¬ RootOrderWrong m n w ↔ HasOrder m n w := by
  obtain ⟨k, rfl⟩ := hn
  have hk := one_le_of_two_le_two_pow h2
  have h1m : 1 % m = 1 := Nat.mod_eq_of_lt (by omega)
  have key : ∀ j, w ^ j % m = 1 ↔ (w : ZMod m) ^ j = 1 := fun j => by
    have := pow_mod_eq_one_iff m w j
    rwa [h1m] at this
  have hsq : (w ^ (2 ^ k / 2) % m) ^ 2 % m = w ^ 2 ^ k % m := by
    rw [← Nat.pow_mod, ← pow_mul, two_pow_half hk, ← pow_succ, Nat.sub_add_cancel hk]
  unfold RootOrderWrong HasOrder
  rw [hsq, h1m, two_pow_half hk]
  simp only [not_or, not_not, key, ne_eq]
  constructor
  · rintro ⟨ha, hb⟩
    refine ⟨hb, fun j hj0 hj1 hj => ?_⟩
    have hd : orderOf (w : ZMod m) = 2 ^ k := by
      rw [← Nat.sub_add_cancel hk]
      exact orderOf_eq_prime_pow (by simpa using ha) (by rw [Nat.sub_add_cancel hk]; exact hb)
    have hdvd := orderOf_dvd_of_pow_eq_one hj
    rw [hd] at hdvd
    exact absurd (Nat.le_of_dvd hj0 hdvd) (by omega)
  · rintro ⟨ha, hb⟩
    exact ⟨hb _ (by positivity) (Nat.pow_lt_pow_right (by omega) (by omega)), ha⟩

/-- Modulo a prime, `w^(n/2) = -1` for a root of order `n`. -/
theorem HasOrder.half {m n w : Nat} (hpr : m.Prime) (hn : PowerOfTwo n) (h2 : 2 ≤ n) (ho : HasOrder m n w) :
    (w : ZMod m) ^ (n / 2) = -1 := by
  have := Fact.mk hpr
  obtain ⟨k, rfl⟩ := hn
  have hk := one_le_of_two_le_two_pow h2
  have hne : (w : ZMod m) ^ 2 ^ (k - 1) ≠ 1 := fun h =>
    ho.2 (2 ^ (k - 1)) (by positivity) (Nat.pow_lt_pow_right (by omega) (by omega)) ((pow_mod_eq_one_iff m w _).mpr h)
  have hs : ((w : ZMod m) ^ 2 ^ (k - 1)) ^ 2 = 1 := by
    rw [← pow_mul, ← pow_succ, Nat.sub_add_cancel hk]
    exact (pow_mod_eq_one_iff m w _).mp ho.1
  rw [two_pow_half hk]
  have hz : ((w : ZMod m) ^ 2 ^ (k - 1) - 1) * ((w : ZMod m) ^ 2 ^ (k - 1) + 1) = 0 := by linear_combination hs
  rcases mul_eq_zero.mp hz with h | h
  · exact absurd (sub_eq_zero.mp h) hne
  · exact eq_neg_of_add_eq_zero_left h

/-! ## What the transform commands do where no test fails -/

theorem flag_and_false {m n w : Nat} {v : Bool} (hm : 2 ≤ m) (h : v = true → ¬ RootOrderWrong m n w) :
    (v && rootOrderFails m n w) = false := by
  cases v
  · rfl
  · rw [Bool.true_and, ← Bool.not_eq_true, rootOrderFails_iff hm]
    exact h rfl

/-- The forward command of either variant puts `forwardA` of the sequence back. -/
theorem forwardCommand_eq {s : State} {net : Nat → Nat → List Nat → List Nat} {v : Bool} {bk : BankSel} {w : Nat} (cw : CmdWord)
    (hm : 2 ≤ s.mod) (hp : PowerOfTwo (s.len bk)) (h : v = true → ¬ RootOrderWrong s.mod (s.len bk) w) :
    forwardCommand net v bk w cw s = .next (s.putSeq bk (net s.mod w (s.seq bk))) := by
  rw [forwardCommand, (is2pow_iff _).mpr hp, flag_and_false hm h]
  rfl

/-- The inverse command of either variant puts the scaled network with the inverted root back. -/
theorem inverseCommand_eq {s : State} {net : Nat → Nat → List Nat → List Nat} {v : Bool} {bk : BankSel} {w winv ninv : Nat}
    (cw : CmdWord) (hm : 2 ≤ s.mod) (hw : w < s.mod) (hp : PowerOfTwo (s.len bk)) (hwi : IsInverse s.mod w winv)
    (hni : IsInverse s.mod (s.len bk % s.mod) ninv) (h : v = true → ¬ RootOrderWrong s.mod (s.len bk) winv) :
    inverseCommand net v bk w cw s = .next (s.putSeq bk (scaleSeq s.mod ninv (net s.mod winv (s.seq bk)))) := by
  have hn : s.len bk % s.mod < s.mod := Nat.mod_lt _ (by omega)
  have e1 : finv s.mod w = winv := (isInverse_finv hw hwi.coprime).unique hwi
  have e2 : finv s.mod (fromInteger s.mod (s.len bk)) = ninv := (isInverse_finv hn hni.coprime).unique hni
  have i2 : invertible s.mod (fromInteger s.mod (s.len bk)) = true := (invertible_iff hn).mpr hni.coprime
  rw [inverseCommand, (invertible_iff hw).mpr hwi.coprime, (is2pow_iff _).mpr hp, e1, flag_and_false hm h, i2, e2]
  rfl

/-- A slot of the scaled sequence. -/
theorem scaleSeq_getD (m c : Nat) (xs : List Nat) {i : Nat} (h : i < xs.length) :
    (scaleSeq m c xs).getD i 0 = fmul m (xs.getD i 0) c := by
  simp [scaleSeq, List.getD_eq_getElem?_getD, h]

end Sys2Proof.Machine
end

