-- ==== Sys2Proof/Laws/Exec.lean ====
section
/-! SUPPORT. The inversion of `exec`, said once: the forms a command's next state can have. -/

namespace Sys2Proof.Machine

/-- The forms of a next state. The bounds are those an invariant proof needs. -/
inductive ExecForm (i : Instr) (s : State) : State → Prop where
  /-- An integer result. -/
  | writesR (d : RegNo) (v : Nat) (hv : s.Inv → i.wellFormed = true → v < 2 ^ s.cfg.w) : ExecForm i s (s.setR d v)
  /-- A free integer result. -/
  | drawsR (d : RegNo) : ExecForm i s ((s.setR d s.drawnW).useDraws 1)
  /-- An element result. -/
  | writesE (d : RegNo) (v : Nat) (hv : s.Inv → v < s.mod) : ExecForm i s (s.setE d v)
  /-- A free element result. -/
  | drawsE (d : RegNo) : ExecForm i s ((s.setE d (s.drawnElem 0)).useDraws 1)
  /-- The two element results of BFLY. -/
  | writesE2 (d a : RegNo) (v u : Nat) (hv : s.Inv → v < s.mod) (hu : s.Inv → u < s.mod) :
    ExecForm i s ((s.setE d v).setE a u)
  /-- SETMOD. -/
  | instantiates (a : RegNo) (hi : i = .setmod a) (hm : 2 ≤ s.getR a) : ExecForm i s (s.instantiateField (s.getR a))
  /-- CLRERR. -/
  | clears (hi : i = .clrerr) : ExecForm i s s.clearError
  /-- SEQNEW. -/
  | creates (bk : BankSel) (a : RegNo) (hi : i = .seqnew bk a) (hn : s.getR a ≤ s.cfg.seqMax) :
    ExecForm i s ((s.setLen bk (s.getR a)).putSeq bk (List.replicate (s.getR a) 0))
  /-- SEQST. -/
  | stores (bk : BankSel) (a b : RegNo) (hi : i = .seqst bk a b) (hb : s.getR b < s.len bk) :
    ExecForm i s (s.seqWrite bk (s.getR b) (s.getE a))
  /-- PERMUTE or a transform. -/
  | transforms (bk : BankSel) (xs : List Nat) (hi : spoiledBank i = some bk) (hl : xs.length = s.len bk)
    (hx : s.Inv → ∀ x ∈ xs, x < s.mod) : ExecForm i s (s.putSeq bk xs)
  /-- CHECK that passes. -/
  | unchanged : ExecForm i s s
  /-- A fault that changes nothing else. -/
  | raises (x : ErrorKind) (hi : spoiledBank i = none) : ExecForm i s { s with err := x.code, einfo := encode i }
  /-- A fault of PERMUTE or a transform. -/
  | spoils (x : ErrorKind) (bk : BankSel) (hi : spoiledBank i = some bk) :
    ExecForm i s { s.spoil bk with err := x.code, einfo := encode i }

theorem bitReverse_lt_of_le {v nb w : Nat} (h : nb ≤ w) : bitReverse v nb < 2 ^ w :=
  lt_of_lt_of_le (bitReverse_lt nb v) (Nat.pow_le_pow_right (by omega) h)

theorem ceilLg_lt_two_pow {n w : Nat} (hn : n ≠ 0) (h : n < 2 ^ w) : ceilLg n < 2 ^ w :=
  lt_of_le_of_lt ((ceilLg_le_iff hn w).mpr h.le) (Nat.lt_two_pow_self)

theorem boolVal_lt {b : Bool} {w : Nat} (hw : 1 ≤ w) : boolVal b < 2 ^ w := by
  have : 2 ^ 1 ≤ 2 ^ w := Nat.pow_le_pow_right (by omega) hw
  unfold boolVal
  split <;> omega

/-- The parameters of a legal instance fit their registers (R13, R27). -/
theorem ppSelect_lt {s : State} (h : s.Inv) {sel v : Nat} (hv : ppSelect s.pp sel = some v) : v < 2 ^ s.cfg.w := by
  have hl := h.legal
  have hp1 : 1 ≤ 2 ^ s.pp.n := Nat.one_le_two_pow
  have hkp : s.pp.k * 1 ≤ s.pp.k * 2 ^ s.pp.n := Nat.mul_le_mul_left _ hp1
  have hk0 : 1 ≤ s.pp.k := by
    rcases Nat.eq_zero_or_pos s.pp.k with h0 | h0
    · have := hl.cofactor
      rw [h0, Nat.zero_mul, Nat.zero_add] at this
      exact absurd this hl.prime.one_lt.ne'
    · exact h0
  have hnp : 1 * 2 ^ s.pp.n ≤ s.pp.k * 2 ^ s.pp.n := Nat.mul_le_mul_right _ hk0
  have hn : s.pp.n < 2 ^ s.pp.n := Nat.lt_two_pow_self
  have := hl.cofactor
  have := hl.fits
  have := hl.g_lt
  match sel with
  | 0 | 1 | 2 | 3 => simp only [ppSelect, Option.some.injEq] at hv; omega
  | 4 => simp only [ppSelect, Option.some.injEq] at hv; exact hv ▸ hl.base_fits
  | n + 5 => simp [ppSelect] at hv

/-- A slot of the sequence of a bank is reduced. -/
theorem seq_reduced {s : State} (h : s.Inv) (bk : BankSel) : ∀ i, i < (s.seq bk).length → (s.seq bk).getD i 0 < s.mod := by
  intro i hi
  have hi' : i < s.len bk := by simpa using hi
  rw [s.seq_getD bk hi']
  exact h.slot_lt bk i hi'

theorem permuteSeq_reduced {s : State} (h : s.Inv) {bk : BankSel} (hp : PowerOfTwo (s.len bk)) :
    ∀ x ∈ permuteSeq (s.seq bk), x < s.mod := by
  obtain ⟨t, ht⟩ := hp
  have hs := permuteSeq_spec (xs := s.seq bk) (t := t) (by simpa using ht)
  refine forall_mem_iff_getD.mpr fun i hi => ?_
  rw [hs.2 i (by omega)]
  exact seq_reduced h bk _ (by simpa [ht] using bitReverse_lt t i)

/-- Both networks keep the elements reduced. -/
theorem forward_reduced {s : State} (h : s.Inv) {bk : BankSel} (hp : PowerOfTwo (s.len bk)) (w : Nat) :
    (∀ x ∈ forwardA s.mod w (s.seq bk), x < s.mod) ∧ ∀ x ∈ forwardB s.mod w (s.seq bk), x < s.mod := by
  have hm := h.mod_ge
  have hA : ∀ x ∈ forwardA s.mod w (s.seq bk), x < s.mod := by
    obtain ⟨t, ht⟩ := hp
    have hl : (s.seq bk).length = 2 ^ t := by simpa using ht
    refine forall_mem_iff_getD.mpr fun i hi => ?_
    rw [(forwardA_spec hl).2 i (by rw [(forwardA_spec hl).1] at hi; exact hi)]
    exact networkAt_lt (by omega) (fun j hj => seq_reduced h bk j (by omega)) _ _
  exact ⟨hA, by rw [forwardB_eq_forwardA (by simpa using hp)]; exact hA⟩

/-- A forward command transforms the bank or spoils it. -/
theorem forwardCommand_cases {net : Nat → Nat → List Nat → List Nat} (v : Bool) (bk : BankSel) (w : Nat) (cw : CmdWord) (s : State) :
    (PowerOfTwo (s.len bk) ∧ forwardCommand net v bk w cw s = .next (s.putSeq bk (net s.mod w (s.seq bk)))) ∨
      ∃ x, forwardCommand net v bk w cw s = raiseSpoiled x bk cw s := by
  unfold forwardCommand
  split
  · exact .inr ⟨_, rfl⟩
  · rename_i h
    split
    · exact .inr ⟨_, rfl⟩
    · exact .inl ⟨(is2pow_iff _).mp (by simpa using h), rfl⟩

/-- An inverse command transforms the bank or spoils it. -/
theorem inverseCommand_cases {net : Nat → Nat → List Nat → List Nat} (v : Bool) (bk : BankSel) (w : Nat) (cw : CmdWord) (s : State) :
    (PowerOfTwo (s.len bk) ∧ ∃ winv ninv, inverseCommand net v bk w cw s =
        .next (s.putSeq bk (scaleSeq s.mod ninv (net s.mod winv (s.seq bk))))) ∨
      ∃ x, inverseCommand net v bk w cw s = raiseSpoiled x bk cw s := by
  unfold inverseCommand
  split
  · exact .inr ⟨_, rfl⟩
  · split
    · exact .inr ⟨_, rfl⟩
    · rename_i h
      split
      · exact .inr ⟨_, rfl⟩
      · split
        · exact .inr ⟨_, rfl⟩
        · exact .inl ⟨(is2pow_iff _).mp (by simpa using h), _, _, rfl⟩

theorem scaleSeq_reduced {m : Nat} (hm : 0 < m) (c : Nat) (xs : List Nat) : ∀ x ∈ scaleSeq m c xs, x < m := by
  intro x hx
  obtain ⟨y, _, rfl⟩ := List.mem_map.mp hx
  exact fmul_lt hm _ _

theorem ExecForm.ofForward {i : Instr} {s t : State} {net : Nat → Nat → List Nat → List Nat} {v : Bool} {bk : BankSel} {w : Nat}
    (hb : spoiledBank i = some bk) (hnet : PowerOfTwo (s.len bk) → (net s.mod w (s.seq bk)).length = s.len bk ∧
      (s.Inv → ∀ x ∈ net s.mod w (s.seq bk), x < s.mod))
    (h : forwardCommand net v bk w (encode i) s = .next t) : ExecForm i s t := by
  rcases forwardCommand_cases (net := net) v bk w (encode i) s with ⟨hp, he⟩ | ⟨x, he⟩
  · rw [he] at h
    cases h
    exact .transforms bk _ hb (hnet hp).1 (hnet hp).2
  · rw [he] at h
    cases h
    exact .spoils x bk hb

theorem ExecForm.ofInverse {i : Instr} {s t : State} {net : Nat → Nat → List Nat → List Nat} {v : Bool} {bk : BankSel} {w : Nat}
    (hb : spoiledBank i = some bk) (hnet : ∀ u, PowerOfTwo (s.len bk) → (net s.mod u (s.seq bk)).length = s.len bk)
    (h : inverseCommand net v bk w (encode i) s = .next t) : ExecForm i s t := by
  rcases inverseCommand_cases (net := net) v bk w (encode i) s with ⟨hp, u, c, he⟩ | ⟨x, he⟩
  · rw [he] at h
    cases h
    exact .transforms bk _ hb (by simpa [scaleSeq] using hnet u hp)
      fun hI => scaleSeq_reduced (by have := hI.mod_ge; omega) _ _
  · rw [he] at h
    cases h
    exact .spoils x bk hb

/-- Every next state of a command has one of the forms. -/
theorem exec_form {i : Instr} {s t : State} (h : exec i s = .next t) : ExecForm i s t := by
  have hA : ∀ bk w, PowerOfTwo (s.len bk) → (forwardA s.mod w (s.seq bk)).length = s.len bk :=
    fun bk w hp => (forward_length (by simpa using hp)).1.trans (by simp)
  have hB : ∀ bk w, PowerOfTwo (s.len bk) → (forwardB s.mod w (s.seq bk)).length = s.len bk :=
    fun bk w hp => (forward_length (by simpa using hp)).2.trans (by simp)
  have hw : s.Inv → 1 ≤ s.cfg.w := fun hI => by have := hI.legal.width; omega
  have hm : s.Inv → 0 < s.mod := fun hI => by have := hI.mod_ge; omega
  cases i with
  | ldi d imm =>
    cases h
    refine .writesR d _ fun hI hf => ?_
    have : 2 ^ 16 ≤ 2 ^ s.cfg.w := Nat.pow_le_pow_right (by omega) hI.legal.width
    simp only [Instr.wellFormed, immFits, decide_eq_true_eq] at hf
    exact lt_of_lt_of_le hf this
  | ldis d imm => cases h; exact .writesR d _ fun _ _ => Nat.mod_lt _ (by positivity)
  | setmod a =>
    simp only [exec, execSetmod] at h
    split at h
    · cases h; exact .raises _ rfl
    · cases h; exact .instantiates a rfl (by omega)
  | getmod d => cases h; exact .writesR d _ fun hI _ => hI.mod_lt
  | rdpp d sel =>
    simp only [exec, execRdpp] at h
    split at h
    · rename_i v hv
      cases h; exact .writesR d _ fun hI _ => ppSelect_lt hI hv
    · cases h; exact .raises _ rfl
  | root d a =>
    simp only [exec, execRoot] at h
    split at h
    · cases h; exact .raises _ rfl
    · split at h
      · cases h; exact .raises _ rfl
      · cases h; exact .writesE d _ fun hI => fpow_lt hI.mod_ge _ _
  | clrerr => cases h; exact .clears rfl
  | fromint d a => cases h; exact .writesE d _ fun hI => fromInteger_lt (hm hI) _
  | toint d a => cases h; exact .writesR d _ fun hI _ => (hI.e_lt a).trans hI.mod_lt
  | add d a b => cases h; exact .writesE d _ fun hI => fadd_lt (hm hI) _ _
  | sub d a b => cases h; exact .writesE d _ fun hI => fsub_lt (hm hI) _ _
  | neg d a => cases h; exact .writesE d _ fun hI => fneg_lt (hm hI) _
  | mul d a b => cases h; exact .writesE d _ fun hI => fmul_lt (hm hI) _ _
  | div c d a b =>
    simp only [exec, execDiv] at h
    split at h
    · cases h; exact .writesE d _ fun hI => fmul_lt (hm hI) _ _
    · split at h
      · cases h; exact .raises _ rfl
      · cases h; exact .drawsE d
  | inv d a =>
    simp only [exec, execInv] at h
    split at h
    · cases h; exact .writesE d _ fun hI => finv_lt (hI.e_lt a)
    · cases h; exact .drawsE d
  | invC d a =>
    simp only [exec, execInvC] at h
    split at h
    · cases h; exact .writesE d _ fun hI => finv_lt (hI.e_lt a)
    · cases h; exact .raises _ rfl
  | pow d a b => cases h; exact .writesE d _ fun hI => fpow_lt hI.mod_ge _ _
  | eq d a b => cases h; exact .writesR d _ fun hI _ => boolVal_lt (hw hI)
  | ne d a b => cases h; exact .writesR d _ fun hI _ => boolVal_lt (hw hI)
  | bitrev d a b =>
    simp only [exec, execBitrev] at h
    split at h
    · cases h; exact .raises _ rfl
    · split at h
      · cases h; exact .drawsR d
      · cases h; exact .writesR d _ fun _ _ => bitReverse_lt_of_le (by omega)
  | ceillg d a =>
    simp only [exec, execCeillg] at h
    split at h
    · cases h; exact .raises _ rfl
    · rename_i hne
      cases h; exact .writesR d _ fun hI _ => ceilLg_lt_two_pow hne (hI.r_lt a)
  | is2pow d a => cases h; exact .writesR d _ fun hI _ => boolVal_lt (hw hI)
  | seqnew bk a =>
    simp only [exec, execSeqnew] at h
    split at h
    · cases h; exact .raises _ rfl
    · cases h; exact .creates bk a rfl (by omega)
  | seqlen bk d =>
    cases h
    refine .writesR d _ fun hI _ => ?_
    have h1 := hI.len_le bk
    have h2 := hI.legal.seqMax_le
    have h3 : 2 ^ (s.cfg.w - 1) < 2 ^ s.cfg.w := Nat.pow_lt_pow_right (by omega) (by have := hw hI; omega)
    omega
  | seqld bk d a =>
    simp only [exec, execSeqld] at h
    split at h
    · rename_i hb
      cases h; exact .writesE d _ fun hI => hI.slot_lt bk _ (by simpa [inBounds] using hb)
    · cases h; exact .raises _ rfl
  | seqst bk a b =>
    simp only [exec, execSeqst] at h
    split at h
    · rename_i hb
      cases h; exact .stores bk a b rfl (by simpa [inBounds] using hb)
    · cases h; exact .raises _ rfl
  | bfly d a b =>
    simp only [exec, execBfly] at h
    split at h
    · cases h; exact .raises _ rfl
    · cases h; exact .writesE2 d a _ _ (fun hI => fadd_lt (hm hI) _ _) fun hI => fsub_lt (hm hI) _ _
  | permute bk =>
    simp only [exec, execPermute] at h
    split at h
    · cases h; exact .spoils _ bk rfl
    · rename_i hp
      have hp : PowerOfTwo (s.len bk) := (is2pow_iff _).mp (by simpa using hp)
      cases h
      obtain ⟨t, ht⟩ := hp
      exact .transforms bk _ rfl ((permuteSeq_spec (t := t) (by simpa using ht)).1.trans (by simp))
        fun hI => permuteSeq_reduced hI ⟨t, ht⟩
  | check bk a =>
    simp only [exec, execCheck] at h
    split at h
    · cases h; exact .raises _ rfl
    · cases h; exact .unchanged
  | ntta v bk a => exact .ofForward rfl (fun hp => ⟨hA bk _ hp, fun hI => (forward_reduced hI hp _).1⟩) h
  | nttb v bk a => exact .ofForward rfl (fun hp => ⟨hB bk _ hp, fun hI => (forward_reduced hI hp _).2⟩) h
  | intta v bk a => exact .ofInverse rfl (hA bk) h
  | inttb v bk a => exact .ofInverse rfl (hB bk) h

end Sys2Proof.Machine
end

