-- ==== Sys2Proof/Laws/Invariant.lean ====
section
/-! SUPPORT. How the invariant passes from one state to another: where the banks are the same, where a bank is rewritten, where a
slot is written. -/

namespace Sys2Proof.Machine

/-- A state with the same instance, modulus and banks, and with registers in range, meets the invariant. -/
theorem State.Inv.of_same_banks {s t : State} (h : s.Inv) (hi : SameInstance s t) (hm : t.mod = s.mod)
    (hr : ∀ i, t.getR i < 2 ^ s.cfg.w) (he : ∀ i, t.getE i < s.mod) (hb : ∀ b, t.bank b = s.bank b)
    (hz : t.err = 0 → t.einfo = 0) : t.Inv := by
  obtain ⟨hc, hp⟩ := hi
  have hlen : ∀ b, t.len b = s.len b := fun b => by rw [State.len, hb, State.len]
  have hread : ∀ b i, t.seqRead b i = s.seqRead b i := fun b i => by rw [State.seqRead, hb, State.seqRead]
  constructor
  · rw [hc, hp]; exact h.legal
  · rw [hm]; exact h.mod_ge
  · rw [hm, hc]; exact h.mod_lt
  · rw [hc]; exact hr
  · rw [hm]; exact he
  · intro b; rw [hlen, hc]; exact h.len_le b
  · intro b i; rw [hlen, hread, hm]; exact h.slot_lt b i
  · intro b; rw [hb]; exact h.slots_wf b
  · intro b; rw [hb, hc]; exact h.slots_in b
  · exact hz

/-- A bank given a length within its capacity and that many reduced elements meets the invariant. -/
theorem State.Inv.setLen_putSeq {s : State} (h : s.Inv) (bk : BankSel) {n : Nat} {xs : List Nat} (hn : n ≤ s.cfg.seqMax)
    (hl : xs.length = n) (hx : ∀ x ∈ xs, x < s.mod) : ((s.setLen bk n).putSeq bk xs).Inv := by
  constructor
  · simpa using h.legal
  · simpa using h.mod_ge
  · simpa using h.mod_lt
  · simpa using h.r_lt
  · simpa using h.e_lt
  · intro b
    by_cases hb : b = bk
    · subst hb; simpa using hn
    · simpa [State.len_setLen_of_ne _ hb] using h.len_le b
  · intro b i hi
    rw [State.seqRead_putSeq]
    by_cases hb : b = bk
    · subst hb
      have hi : i < n := by simpa using hi
      rw [if_pos ⟨rfl, by omega⟩]
      simpa using (forall_mem_iff_getD (P := (· < s.mod))).mp hx i (by omega)
    · rw [if_neg (by simp [hb])]
      simpa using h.slot_lt b i (by simpa [State.len_setLen_of_ne _ hb] using hi)
  · intro b
    by_cases hb : b = bk
    · subst hb; rw [State.bank_putSeq_self]; exact Memory.wf_store (by simpa using h.slots_wf _) _
    · rw [State.bank_putSeq_of_ne _ hb]; simpa using h.slots_wf b
  · intro b c hc
    have hm := h.mod_lt
    by_cases hb : b = bk
    · subst hb
      rw [State.bank_putSeq_self] at hc
      rcases Memory.mem_store hc with h1 | ⟨h1, h2⟩
      · simpa using h.slots_in _ c (by simpa using h1)
      · have := hx _ h2
        simp only [State.putSeq_cfg, State.setLen_cfg]
        omega
    · rw [State.bank_putSeq_of_ne _ hb] at hc
      simpa using h.slots_in b c (by simpa using hc)
  · simpa using h.einfo_zero

@[simp] theorem State.setLen_len (s : State) (bk : BankSel) : s.setLen bk (s.len bk) = s := by cases bk <;> rfl

/-- A bank whose sequence is replaced by as many reduced elements meets the invariant. -/
theorem State.Inv.putSeq {s : State} (h : s.Inv) (bk : BankSel) {xs : List Nat} (hl : xs.length = s.len bk)
    (hx : ∀ x ∈ xs, x < s.mod) : (s.putSeq bk xs).Inv := by
  simpa using h.setLen_putSeq bk (h.len_le bk) hl hx

/-- A reduced element stored within the bounds of a bank keeps the invariant. -/
theorem State.Inv.seqWrite {s : State} (h : s.Inv) (bk : BankSel) {i v : Nat} (hi : i < s.len bk) (hv : v < s.mod) :
    (s.seqWrite bk i v).Inv := by
  have hw := h.slots_wf bk
  constructor
  · simpa using h.legal
  · simpa using h.mod_ge
  · simpa using h.mod_lt
  · simpa using h.r_lt
  · simpa using h.e_lt
  · simpa using h.len_le
  · intro b k hk
    rw [State.seqRead_seqWrite _ _ _ _ _ _ hw]
    split
    · simpa using hv
    · simpa using h.slot_lt b k (by simpa using hk)
  · intro b
    by_cases hb : b = bk
    · subst hb; rw [State.bank_seqWrite_self]; exact Memory.wf_write hw _ _
    · rw [State.bank_seqWrite_of_ne _ hb]; exact h.slots_wf b
  · intro b c hc
    have h1 := h.mod_lt
    have h2 := h.len_le bk
    by_cases hb : b = bk
    · subst hb
      rw [State.bank_seqWrite_self] at hc
      rcases Memory.mem_write hc with h3 | h3
      · simpa using h.slots_in _ c h3
      · subst h3
        simp only [State.seqWrite_cfg]
        omega
    · rw [State.bank_seqWrite_of_ne _ hb] at hc
      simpa using h.slots_in b c hc
  · simpa using h.einfo_zero

end Sys2Proof.Machine
end

