-- ==== Sys2Proof/Laws/PerInstr.lean ====
section
/-! SUPPORT. The statements made per instruction: the encoding of a command is a word of the command's own row of the opcode
map, and the row reads every field back (30_encoding.md R75, R77). -/

namespace Sys2Proof.Laws

open Sys2Proof

namespace EncodeMatchesTable

/-- The word a well-formed command is encoded as matches a row of the opcode map, and that row builds the command. -/
def Statement (i : Instr) : Prop :=
  i.wellFormed = true → ∃ row ∈ opRows, row.accepts (encode i) = true ∧ row.build (encode i) = i

/-- The `n`-th row of the map is a row of it. -/
theorem row_mem {n : Nat} {row : OpRow} (h : opRows[n]? = some row) : row ∈ opRows := List.mem_of_getElem? h

theorem ldi (d : RegNo) (imm : Nat) : Statement (.ldi d imm) := by
  intro h
  have himm : imm < 65536 := by simpa [Instr.wellFormed, immFits] using h
  refine ⟨_, row_mem (n := 0) rfl, ?_, ?_⟩
  · have h1 := (by decide : ∀ x : Fin 8, (BitVec.ofNat 32 x.val <<< 21) &&& (0xFF1F0000 : CmdWord) = 0) d
    simp only [OpRow.accepts, encode, encodeI_and, imm_and himm, h1]
    decide
  · simp only [encode, fieldD_encodeI (op := 0x01) (by decide) d himm, fieldImm_encodeI (op := 0x01) (by decide) d himm]

theorem ldis (d : RegNo) (imm : Nat) : Statement (.ldis d imm) := by
  intro h
  have himm : imm < 65536 := by simpa [Instr.wellFormed, immFits] using h
  refine ⟨_, row_mem (n := 1) rfl, ?_, ?_⟩
  · have h1 := (by decide : ∀ x : Fin 8, (BitVec.ofNat 32 x.val <<< 21) &&& (0xFF1F0000 : CmdWord) = 0) d
    simp only [OpRow.accepts, encode, encodeI_and, imm_and himm, h1]
    decide
  · simp only [encode, fieldD_encodeI (op := 0x02) (by decide) d himm, fieldImm_encodeI (op := 0x02) (by decide) d himm]

theorem setmod (a : RegNo) : Statement (.setmod a) := by
  refine fun _ => ⟨_, row_mem (n := 2) rfl, ?_, ?_⟩
  · revert a; decide
  · revert a; decide

theorem getmod (d : RegNo) : Statement (.getmod d) := by
  refine fun _ => ⟨_, row_mem (n := 3) rfl, ?_, ?_⟩
  · revert d; decide
  · revert d; decide

theorem rdpp (d : RegNo) (sel : Nat) : Statement (.rdpp d sel) := by
  intro h
  have himm : sel < 65536 := by simpa [Instr.wellFormed, immFits] using h
  refine ⟨_, row_mem (n := 4) rfl, ?_, ?_⟩
  · have h1 := (by decide : ∀ x : Fin 8, (BitVec.ofNat 32 x.val <<< 21) &&& (0xFF1F0000 : CmdWord) = 0) d
    simp only [OpRow.accepts, encode, encodeI_and, imm_and himm, h1]
    decide
  · simp only [encode, fieldD_encodeI (op := 0x05) (by decide) d himm, fieldImm_encodeI (op := 0x05) (by decide) d himm]

theorem root (d : RegNo) (a : RegNo) : Statement (.root d a) := by
  refine fun _ => ⟨_, row_mem (n := 5) rfl, ?_, ?_⟩
  · revert d a; decide
  · revert d a; decide

theorem clrerr : Statement (.clrerr) := by
  refine fun _ => ⟨_, row_mem (n := 6) rfl, ?_, ?_⟩
  · decide
  · decide

theorem fromint (d : RegNo) (a : RegNo) : Statement (.fromint d a) := by
  refine fun _ => ⟨_, row_mem (n := 7) rfl, ?_, ?_⟩
  · revert d a; decide
  · revert d a; decide

theorem toint (d : RegNo) (a : RegNo) : Statement (.toint d a) := by
  refine fun _ => ⟨_, row_mem (n := 8) rfl, ?_, ?_⟩
  · revert d a; decide
  · revert d a; decide

theorem add (d : RegNo) (a : RegNo) (b : RegNo) : Statement (.add d a b) := by
  intro _
  refine ⟨_, row_mem (n := 9) rfl, ?_, ?_⟩
  · have h1 := (by decide : ∀ x : Fin 8, (BitVec.ofNat 32 x.val <<< 21) &&& (0xFF007FFF : CmdWord) = 0) d
    have h2 := (by decide : ∀ x : Fin 8, (BitVec.ofNat 32 x.val <<< 18) &&& (0xFF007FFF : CmdWord) = 0) a
    have h3 := (by decide : ∀ x : Fin 8, (BitVec.ofNat 32 x.val <<< 15) &&& (0xFF007FFF : CmdWord) = 0) b
    simp only [OpRow.accepts, encode, encodeR_and, h1, h2, h3]
    decide
  · simp (disch := decide) only [encode, fieldD_encodeR, fieldA_encodeR, fieldB_encodeR]

theorem sub (d : RegNo) (a : RegNo) (b : RegNo) : Statement (.sub d a b) := by
  intro _
  refine ⟨_, row_mem (n := 10) rfl, ?_, ?_⟩
  · have h1 := (by decide : ∀ x : Fin 8, (BitVec.ofNat 32 x.val <<< 21) &&& (0xFF007FFF : CmdWord) = 0) d
    have h2 := (by decide : ∀ x : Fin 8, (BitVec.ofNat 32 x.val <<< 18) &&& (0xFF007FFF : CmdWord) = 0) a
    have h3 := (by decide : ∀ x : Fin 8, (BitVec.ofNat 32 x.val <<< 15) &&& (0xFF007FFF : CmdWord) = 0) b
    simp only [OpRow.accepts, encode, encodeR_and, h1, h2, h3]
    decide
  · simp (disch := decide) only [encode, fieldD_encodeR, fieldA_encodeR, fieldB_encodeR]

theorem neg (d : RegNo) (a : RegNo) : Statement (.neg d a) := by
  refine fun _ => ⟨_, row_mem (n := 11) rfl, ?_, ?_⟩
  · revert d a; decide
  · revert d a; decide

theorem mul (d : RegNo) (a : RegNo) (b : RegNo) : Statement (.mul d a b) := by
  intro _
  refine ⟨_, row_mem (n := 12) rfl, ?_, ?_⟩
  · have h1 := (by decide : ∀ x : Fin 8, (BitVec.ofNat 32 x.val <<< 21) &&& (0xFF007FFF : CmdWord) = 0) d
    have h2 := (by decide : ∀ x : Fin 8, (BitVec.ofNat 32 x.val <<< 18) &&& (0xFF007FFF : CmdWord) = 0) a
    have h3 := (by decide : ∀ x : Fin 8, (BitVec.ofNat 32 x.val <<< 15) &&& (0xFF007FFF : CmdWord) = 0) b
    simp only [OpRow.accepts, encode, encodeR_and, h1, h2, h3]
    decide
  · simp (disch := decide) only [encode, fieldD_encodeR, fieldA_encodeR, fieldB_encodeR]

theorem div (c : Bool) (d : RegNo) (a : RegNo) (b : RegNo) : Statement (.div c d a b) := by
  intro _
  refine ⟨_, row_mem (n := 13) rfl, ?_, ?_⟩
  · have h1 := (by decide : ∀ x : Fin 8, (BitVec.ofNat 32 x.val <<< 21) &&& (0xFD007FFF : CmdWord) = 0) d
    have h2 := (by decide : ∀ x : Fin 8, (BitVec.ofNat 32 x.val <<< 18) &&& (0xFD007FFF : CmdWord) = 0) a
    have h3 := (by decide : ∀ x : Fin 8, (BitVec.ofNat 32 x.val <<< 15) &&& (0xFD007FFF : CmdWord) = 0) b
    simp only [OpRow.accepts, encode, encodeR_and, h1, h2, h3]
    cases c <;> decide
  · cases c <;> simp (disch := decide) only [encode, flagBit, fieldD_encodeR, fieldA_encodeR, fieldB_encodeR, fieldF_encodeR] <;>
      rfl

theorem inv (d : RegNo) (a : RegNo) : Statement (.inv d a) := by
  refine fun _ => ⟨_, row_mem (n := 14) rfl, ?_, ?_⟩
  · revert d a; decide
  · revert d a; decide

theorem invC (d : RegNo) (a : RegNo) : Statement (.invC d a) := by
  refine fun _ => ⟨_, row_mem (n := 15) rfl, ?_, ?_⟩
  · revert d a; decide
  · revert d a; decide

theorem pow (d : RegNo) (a : RegNo) (b : RegNo) : Statement (.pow d a b) := by
  intro _
  refine ⟨_, row_mem (n := 16) rfl, ?_, ?_⟩
  · have h1 := (by decide : ∀ x : Fin 8, (BitVec.ofNat 32 x.val <<< 21) &&& (0xFF007FFF : CmdWord) = 0) d
    have h2 := (by decide : ∀ x : Fin 8, (BitVec.ofNat 32 x.val <<< 18) &&& (0xFF007FFF : CmdWord) = 0) a
    have h3 := (by decide : ∀ x : Fin 8, (BitVec.ofNat 32 x.val <<< 15) &&& (0xFF007FFF : CmdWord) = 0) b
    simp only [OpRow.accepts, encode, encodeR_and, h1, h2, h3]
    decide
  · simp (disch := decide) only [encode, fieldD_encodeR, fieldA_encodeR, fieldB_encodeR]

theorem eq (d : RegNo) (a : RegNo) (b : RegNo) : Statement (.eq d a b) := by
  intro _
  refine ⟨_, row_mem (n := 17) rfl, ?_, ?_⟩
  · have h1 := (by decide : ∀ x : Fin 8, (BitVec.ofNat 32 x.val <<< 21) &&& (0xFF007FFF : CmdWord) = 0) d
    have h2 := (by decide : ∀ x : Fin 8, (BitVec.ofNat 32 x.val <<< 18) &&& (0xFF007FFF : CmdWord) = 0) a
    have h3 := (by decide : ∀ x : Fin 8, (BitVec.ofNat 32 x.val <<< 15) &&& (0xFF007FFF : CmdWord) = 0) b
    simp only [OpRow.accepts, encode, encodeR_and, h1, h2, h3]
    decide
  · simp (disch := decide) only [encode, fieldD_encodeR, fieldA_encodeR, fieldB_encodeR]

theorem ne (d : RegNo) (a : RegNo) (b : RegNo) : Statement (.ne d a b) := by
  intro _
  refine ⟨_, row_mem (n := 18) rfl, ?_, ?_⟩
  · have h1 := (by decide : ∀ x : Fin 8, (BitVec.ofNat 32 x.val <<< 21) &&& (0xFF007FFF : CmdWord) = 0) d
    have h2 := (by decide : ∀ x : Fin 8, (BitVec.ofNat 32 x.val <<< 18) &&& (0xFF007FFF : CmdWord) = 0) a
    have h3 := (by decide : ∀ x : Fin 8, (BitVec.ofNat 32 x.val <<< 15) &&& (0xFF007FFF : CmdWord) = 0) b
    simp only [OpRow.accepts, encode, encodeR_and, h1, h2, h3]
    decide
  · simp (disch := decide) only [encode, fieldD_encodeR, fieldA_encodeR, fieldB_encodeR]

theorem bitrev (d : RegNo) (a : RegNo) (b : RegNo) : Statement (.bitrev d a b) := by
  intro _
  refine ⟨_, row_mem (n := 19) rfl, ?_, ?_⟩
  · have h1 := (by decide : ∀ x : Fin 8, (BitVec.ofNat 32 x.val <<< 21) &&& (0xFF007FFF : CmdWord) = 0) d
    have h2 := (by decide : ∀ x : Fin 8, (BitVec.ofNat 32 x.val <<< 18) &&& (0xFF007FFF : CmdWord) = 0) a
    have h3 := (by decide : ∀ x : Fin 8, (BitVec.ofNat 32 x.val <<< 15) &&& (0xFF007FFF : CmdWord) = 0) b
    simp only [OpRow.accepts, encode, encodeR_and, h1, h2, h3]
    decide
  · simp (disch := decide) only [encode, fieldD_encodeR, fieldA_encodeR, fieldB_encodeR]

theorem ceillg (d : RegNo) (a : RegNo) : Statement (.ceillg d a) := by
  refine fun _ => ⟨_, row_mem (n := 20) rfl, ?_, ?_⟩
  · revert d a; decide
  · revert d a; decide

theorem is2pow (d : RegNo) (a : RegNo) : Statement (.is2pow d a) := by
  refine fun _ => ⟨_, row_mem (n := 21) rfl, ?_, ?_⟩
  · revert d a; decide
  · revert d a; decide

theorem seqnew (bk : BankSel) (a : RegNo) : Statement (.seqnew bk a) := by
  refine fun _ => ⟨_, row_mem (n := 22) rfl, ?_, ?_⟩
  · cases bk <;> (revert a; decide)
  · cases bk <;> (revert a; decide)

theorem seqlen (bk : BankSel) (d : RegNo) : Statement (.seqlen bk d) := by
  refine fun _ => ⟨_, row_mem (n := 23) rfl, ?_, ?_⟩
  · cases bk <;> (revert d; decide)
  · cases bk <;> (revert d; decide)

theorem seqld (bk : BankSel) (d : RegNo) (a : RegNo) : Statement (.seqld bk d a) := by
  refine fun _ => ⟨_, row_mem (n := 24) rfl, ?_, ?_⟩
  · cases bk <;> (revert d a; decide)
  · cases bk <;> (revert d a; decide)

theorem seqst (bk : BankSel) (a : RegNo) (b : RegNo) : Statement (.seqst bk a b) := by
  refine fun _ => ⟨_, row_mem (n := 25) rfl, ?_, ?_⟩
  · cases bk <;> (revert a b; decide)
  · cases bk <;> (revert a b; decide)

theorem bfly (d : RegNo) (a : RegNo) (b : RegNo) : Statement (.bfly d a b) := by
  intro _
  refine ⟨_, row_mem (n := 26) rfl, ?_, ?_⟩
  · have h1 := (by decide : ∀ x : Fin 8, (BitVec.ofNat 32 x.val <<< 21) &&& (0xFF007FFF : CmdWord) = 0) d
    have h2 := (by decide : ∀ x : Fin 8, (BitVec.ofNat 32 x.val <<< 18) &&& (0xFF007FFF : CmdWord) = 0) a
    have h3 := (by decide : ∀ x : Fin 8, (BitVec.ofNat 32 x.val <<< 15) &&& (0xFF007FFF : CmdWord) = 0) b
    simp only [OpRow.accepts, encode, encodeR_and, h1, h2, h3]
    decide
  · simp (disch := decide) only [encode, fieldD_encodeR, fieldA_encodeR, fieldB_encodeR]

theorem permute (bk : BankSel) : Statement (.permute bk) := by
  refine fun _ => ⟨_, row_mem (n := 27) rfl, ?_, ?_⟩
  · cases bk <;> decide
  · cases bk <;> decide

theorem check (bk : BankSel) (a : RegNo) : Statement (.check bk a) := by
  refine fun _ => ⟨_, row_mem (n := 28) rfl, ?_, ?_⟩
  · cases bk <;> (revert a; decide)
  · cases bk <;> (revert a; decide)

theorem ntta (v : Bool) (bk : BankSel) (a : RegNo) : Statement (.ntta v bk a) := by
  refine fun _ => ⟨_, row_mem (n := 29) rfl, ?_, ?_⟩
  · cases v <;> cases bk <;> (revert a; decide)
  · cases v <;> cases bk <;> (revert a; decide)

theorem nttb (v : Bool) (bk : BankSel) (a : RegNo) : Statement (.nttb v bk a) := by
  refine fun _ => ⟨_, row_mem (n := 30) rfl, ?_, ?_⟩
  · cases v <;> cases bk <;> (revert a; decide)
  · cases v <;> cases bk <;> (revert a; decide)

theorem intta (v : Bool) (bk : BankSel) (a : RegNo) : Statement (.intta v bk a) := by
  refine fun _ => ⟨_, row_mem (n := 31) rfl, ?_, ?_⟩
  · cases v <;> cases bk <;> (revert a; decide)
  · cases v <;> cases bk <;> (revert a; decide)

theorem inttb (v : Bool) (bk : BankSel) (a : RegNo) : Statement (.inttb v bk a) := by
  refine fun _ => ⟨_, row_mem (n := 32) rfl, ?_, ?_⟩
  · cases v <;> cases bk <;> (revert a; decide)
  · cases v <;> cases bk <;> (revert a; decide)

end EncodeMatchesTable

end Sys2Proof.Laws
end

