-- ==== Sys2Proof/Machine/Assembly.lean ====
section
/-! DEFINITION. The assembler's view of commands (30_encoding.md section 5): the syntax of R81, as text and back, and the
pseudo-commands of R82 to R84. No behaviour of CORE depends on it (D21). -/

namespace Sys2Proof.Machine

/-! ## Syntax (R81) -/

/-- An operand as it is written: an integer register, an element register, a bank, an immediate. -/
inductive AsmOperand where
  | reg (i : RegNo)
  | elem (i : RegNo)
  | bank (b : BankSel)
  | imm (n : Nat)
deriving DecidableEq, Repr

/-- Mnemonic with its suffix `.C` or `.V`, and the operands in the order of R75's syntax column. -/
def asmForm : Instr → String × List AsmOperand
  | .ldi d imm => ("LDI", [.reg d, .imm imm])
  | .ldis d imm => ("LDIS", [.reg d, .imm imm])
  | .setmod a => ("SETMOD", [.reg a])
  | .getmod d => ("GETMOD", [.reg d])
  | .rdpp d sel => ("RDPP", [.reg d, .imm sel])
  | .root d a => ("ROOT", [.elem d, .reg a])
  | .clrerr => ("CLRERR", [])
  | .fromint d a => ("FROMINT", [.elem d, .reg a])
  | .toint d a => ("TOINT", [.reg d, .elem a])
  | .add d a b => ("ADD", [.elem d, .elem a, .elem b])
  | .sub d a b => ("SUB", [.elem d, .elem a, .elem b])
  | .neg d a => ("NEG", [.elem d, .elem a])
  | .mul d a b => ("MUL", [.elem d, .elem a, .elem b])
  | .div c d a b => (if c then "DIV.C" else "DIV", [.elem d, .elem a, .elem b])
  | .inv d a => ("INV", [.elem d, .elem a])
  | .invC d a => ("INV.C", [.elem d, .elem a])
  | .pow d a b => ("POW", [.elem d, .elem a, .reg b])
  | .eq d a b => ("EQ", [.reg d, .elem a, .elem b])
  | .ne d a b => ("NE", [.reg d, .elem a, .elem b])
  | .bitrev d a b => ("BITREV", [.reg d, .reg a, .reg b])
  | .ceillg d a => ("CEILLG", [.reg d, .reg a])
  | .is2pow d a => ("IS2POW", [.reg d, .reg a])
  | .seqnew bk a => ("SEQNEW", [.bank bk, .reg a])
  | .seqlen bk d => ("SEQLEN", [.reg d, .bank bk])
  | .seqld bk d a => ("SEQLD", [.elem d, .bank bk, .reg a])
  | .seqst bk a b => ("SEQST", [.bank bk, .elem a, .reg b])
  | .bfly d a b => ("BFLY", [.elem d, .elem a, .elem b])
  | .permute bk => ("PERMUTE", [.bank bk])
  | .check bk a => ("CHECK", [.bank bk, .elem a])
  | .ntta v bk a => (if v then "NTTA.V" else "NTTA", [.bank bk, .elem a])
  | .nttb v bk a => (if v then "NTTB.V" else "NTTB", [.bank bk, .elem a])
  | .intta v bk a => (if v then "INTTA.V" else "INTTA", [.bank bk, .elem a])
  | .inttb v bk a => (if v then "INTTB.V" else "INTTB", [.bank bk, .elem a])

/-- The commands that take operands of these forms, in this order. -/
def asmCandidates : List AsmOperand → List Instr
  | [] => [.clrerr]
  | [.reg a] => [.setmod a, .getmod a]
  | [.bank bk] => [.permute bk]
  | [.reg d, .imm n] => [.ldi d n, .ldis d n, .rdpp d n]
  | [.elem d, .reg a] => [.root d a, .fromint d a]
  | [.reg d, .elem a] => [.toint d a]
  | [.elem d, .elem a] => [.neg d a, .inv d a, .invC d a]
  | [.reg d, .reg a] => [.ceillg d a, .is2pow d a]
  | [.bank bk, .reg a] => [.seqnew bk a]
  | [.reg d, .bank bk] => [.seqlen bk d]
  | [.bank bk, .elem a] =>
    [.check bk a, .ntta false bk a, .ntta true bk a, .nttb false bk a, .nttb true bk a, .intta false bk a,
      .intta true bk a, .inttb false bk a, .inttb true bk a]
  | [.elem d, .elem a, .elem b] => [.add d a b, .sub d a b, .mul d a b, .div false d a b, .div true d a b, .bfly d a b]
  | [.elem d, .elem a, .reg b] => [.pow d a b]
  | [.reg d, .elem a, .elem b] => [.eq d a b, .ne d a b]
  | [.reg d, .reg a, .reg b] => [.bitrev d a b]
  | [.elem d, .bank bk, .reg a] => [.seqld bk d a]
  | [.bank bk, .elem a, .reg b] => [.seqst bk a b]
  | _ => []

/-- The command of a mnemonic and its operands; an immediate is one of `0..65535`. -/
def asmCommand (mnemonic : String) (ops : List AsmOperand) : Option Instr :=
  (asmCandidates ops).find? fun i => (asmForm i).1 == mnemonic && i.wellFormed

/-- An operand as text: `r<n>`, `e<n>`, `b<n>`, a decimal immediate. -/
def AsmOperand.text : AsmOperand → String
  | .reg i => "r" ++ toString i.val
  | .elem i => "e" ++ toString i.val
  | .bank .b0 => "b0"
  | .bank .b1 => "b1"
  | .imm n => toString n

/-- A command as a line of assembler text. Of the spellings R81 allows it writes one, with single spaces and decimal immediates
(DESIGN CHOICE, assumption 22). -/
def asmText (i : Instr) : String :=
  match (asmForm i).2 with
  | [] => (asmForm i).1
  | ops => (asmForm i).1 ++ " " ++ ", ".intercalate (ops.map AsmOperand.text)

/-- A digit of the given base. R81 does not say the letter case of hexadecimal digits: both cases are taken (DESIGN CHOICE,
assumption 22). -/
def digitValue (base : Nat) (c : Char) : Option Nat :=
  let v := if '0' ≤ c && c ≤ '9' then c.toNat - 48
    else if 'a' ≤ c && c ≤ 'f' then c.toNat - 87
    else if 'A' ≤ c && c ≤ 'F' then c.toNat - 55
    else base
  if v < base then some v else none

/-- A nonempty run of digits of any length, so with leading zeros (DESIGN CHOICE, assumption 22). -/
def parseDigits (base : Nat) : List Char → Option Nat
  | [] => none
  | cs => cs.foldl (fun acc c => acc.bind fun n => (digitValue base c).map (base * n + ·)) (some 0)

/-- A register or bank number that is one digit below `bound`. -/
def parseIndex (bound : Nat) (cs : List Char) : Option Nat :=
  match cs with
  | [c] => (digitValue 10 c).bind fun n => if n < bound then some n else none
  | _ => none

/-- One operand from its characters; immediates are decimal or `0x` hexadecimal. -/
def parseOperand : List Char → Option AsmOperand
  | 'r' :: cs => (parseIndex 8 cs).map fun n => .reg (Fin.ofNat 8 n)
  | 'e' :: cs => (parseIndex 8 cs).map fun n => .elem (Fin.ofNat 8 n)
  | 'b' :: cs => (parseIndex 2 cs).map fun n => .bank (if n = 0 then .b0 else .b1)
  | '0' :: 'x' :: cs => (parseDigits 16 cs).map .imm
  | cs => (parseDigits 10 cs).map .imm

/-- Spaces at both ends removed. R81 does not say which white space may stand in a line: the space character is taken and no other, so
no tab (DESIGN CHOICE, assumption 22). -/
def trimChars (cs : List Char) : List Char :=
  ((cs.dropWhile (· == ' ')).reverse.dropWhile (· == ' ')).reverse

/-- One line: the comment from `;` on is dropped, then a mnemonic and its operands separated by commas (R81). Spaces may stand before
the mnemonic, after it, and around each operand, in any number, and are the only white space; a line without a command gives none
(DESIGN CHOICE, assumption 22). -/
def parseLine (line : List Char) : Option Instr :=
  let body := trimChars (line.takeWhile (· != ';'))
  let mnemonic := body.takeWhile (· != ' ')
  let rest := trimChars (body.drop mnemonic.length)
  let fields := if rest.isEmpty then [] else (rest.splitOn ',').map trimChars
  (fields.mapM parseOperand).bind (asmCommand (String.ofList mnemonic))

/-! ## Pseudo-commands -/

/-- The number of 16-bit chunks of a constant: `max(1, ceil(bitlength / 16))` (R82). -/
def chunkCount (c : Nat) : Nat := max 1 (((if c = 0 then 0 else Nat.log2 c + 1) + 15) / 16)

/-- The chunk of weight `2^(16*i)` (R82). -/
def chunk (c i : Nat) : Nat := c / 2 ^ (16 * i) % 2 ^ 16

/-- `LI rd, const`: LDI of the most significant chunk, LDIS of each further one (R82). R82 has it for `0 <= const < 2^W` only. The
expansion does not know W: what it gives for a wider constant is the model's choice (DESIGN CHOICE, assumption 20). -/
def pseudoLI (d : RegNo) (c : Nat) : List Instr :=
  .ldi d (chunk c (chunkCount c - 1)) :: ((List.range (chunkCount c - 1)).reverse.map fun i => .ldis d (chunk c i))

/-- `LE ed, rt, const` (R83); the domain of `const` is that of LI (assumption 20). -/
def pseudoLE (d t : RegNo) (c : Nat) : List Instr := pseudoLI t c ++ [.fromint d t]

/-- One digit of SEQFROMDIGITS: through `r6` and `e7` to slot `i` (R84). -/
def storeDigit (bk : BankSel) (v i : Nat) : List Instr :=
  pseudoLI 6 v ++ [.fromint 7 6] ++ pseudoLI 7 i ++ [.seqst bk 7 7]

/-- `SEQFROMDIGITS bk, len, values`; more values than `len` are rejected (R84). A `len` or a digit of `2^W` or more is outside LI's
domain (R82), and how a host brings a wider integer into range is not defined (R117, N8): that the expansion is given all the same,
and that its LDIS commands then keep the low W bits, is the model's choice (DESIGN CHOICE, assumption 20). -/
def pseudoSeqFromDigits (bk : BankSel) (len : Nat) (values : List Nat) : Option (List Instr) :=
  if len < values.length then none
  else some (pseudoLI 7 len ++ [.seqnew bk 7] ++ (values.zipIdx.flatMap fun p => storeDigit bk p.1 p.2))

end Sys2Proof.Machine
end

