-- ==== Sys2Proof/Tests/Slice0.lean ====
section
/-! SUPPORT. Tests: the well-formedness check refuses each ill-formed command; a word of every command written out from the spec's
encoding decodes to it; one or two steps per command with the values of spec/95_test_vectors.md; and a witness for the hypotheses of
every statement that has some. -/

namespace Sys2Proof.Machine.Tests

open Sys2Proof Sys2Proof.Machine

/- One theorem after another: elaborated all at once, the kernel evaluations below start more threads than the memory limit allows. -/
set_option Elab.async false

/-! ## Well-formedness -/

theorem test_wellFormed_refuses_wide_immediates : (Instr.ldi 0 65536).wellFormed = false ∧
    (Instr.ldis 7 65536).wellFormed = false ∧ (Instr.rdpp 3 65536).wellFormed = false := by decide

theorem test_wellFormed_accepts_the_widest_immediates : (Instr.ldi 0 65535).wellFormed = true ∧
    (Instr.ldis 7 65535).wellFormed = true ∧ (Instr.rdpp 3 65535).wellFormed = true := by decide

/-! ## Decoding: words written out field by field from R71, R72 and R75

The bits of a literal are, from the left: opcode (6), f, bk, d (3), a (3), b (3), zero (15); or opcode (6), zero (2), d (3), zero (5),
imm16. -/

theorem test_decode_configuration :
    decode 0b00000100101000001010000000000001 = .command (.ldi 5 0xA001) ∧
    decode 0b00001000001000000000000000000001 = .command (.ldis 1 1) ∧
    decode 0b00001100000010000000000000000000 = .command (.setmod 2) ∧
    decode 0b00010000110000000000000000000000 = .command (.getmod 6) ∧
    decode 0b00010100000000001111111111111111 = .command (.rdpp 0 65535) ∧
    decode 0b00011000011101000000000000000000 = .command (.root 3 5) ∧
    decode 0b00011100000000000000000000000000 = .command (.clrerr) := by decide

theorem test_decode_field_arithmetic :
    decode 0b01000000100001000000000000000000 = .command (.fromint 4 1) ∧
    decode 0b01000100010011000000000000000000 = .command (.toint 2 3) ∧
    decode 0b01001000010000001000000000000000 = .command (.add 2 0 1) ∧
    decode 0b01001100111100010000000000000000 = .command (.sub 7 4 2) ∧
    decode 0b01010000001110000000000000000000 = .command (.neg 1 6) ∧
    decode 0b01010100101011100000000000000000 = .command (.mul 5 3 4) ∧
    decode 0b01011010010000001000000000000000 = .command (.div true 2 0 1) ∧
    decode 0b01011000010000001000000000000000 = .command (.div false 2 0 1) ∧
    decode 0b01011100001000000000000000000000 = .command (.inv 1 0) ∧
    decode 0b01011110001000000000000000000000 = .command (.invC 1 0) ∧
    decode 0b01100000001000110000000000000000 = .command (.pow 1 0 6) ∧
    decode 0b01100100010101001000000000000000 = .command (.eq 2 5 1) ∧
    decode 0b01101000010101001000000000000000 = .command (.ne 2 5 1) := by decide

theorem test_decode_utilities_and_sequences :
    decode 0b10000000001010100000000000000000 = .command (.bitrev 1 2 4) ∧
    decode 0b10000100110011000000000000000000 = .command (.ceillg 6 3) ∧
    decode 0b10001000110011000000000000000000 = .command (.is2pow 6 3) ∧
    decode 0b10100001000101000000000000000000 = .command (.seqnew .b1 5) ∧
    decode 0b10100100101000000000000000000000 = .command (.seqlen .b0 5) ∧
    decode 0b10101001100001000000000000000000 = .command (.seqld .b1 4 1) ∧
    decode 0b10101101000111110000000000000000 = .command (.seqst .b1 7 6) := by decide

theorem test_decode_engine :
    decode 0b11000000001010100000000000000000 = .command (.bfly 1 2 4) ∧
    decode 0b11000101000000000000000000000000 = .command (.permute .b1) ∧
    decode 0b11001000000011000000000000000000 = .command (.check .b0 3) ∧
    decode 0b11010011000011000000000000000000 = .command (.ntta true .b1 3) ∧
    decode 0b11010101000011000000000000000000 = .command (.nttb false .b1 3) ∧
    decode 0b11011010000101000000000000000000 = .command (.intta true .b0 5) ∧
    decode 0b11011101000101000000000000000000 = .command (.inttb false .b1 5) := by decide

/-- R78: unassigned opcodes, and assigned ones with a must-be-zero bit set (95_test_vectors.md section 2.6). -/
theorem test_decode_illegal_words :
    decode 0x00000000 = .illegal .unassignedOpcode ∧ decode 0xFFFFFFFF = .illegal .unassignedOpcode ∧
    decode 0xCC000000 = .illegal .unassignedOpcode ∧ decode 0x48408001 = .illegal .mustBeZero ∧
    decode 0x4A408000 = .illegal .mustBeZero ∧ decode 0x1C200000 = .illegal .mustBeZero ∧
    decode 0x04010005 = .illegal .mustBeZero ∧ decode 0x50208000 = .illegal .mustBeZero ∧
    decode 0xC4040000 = .illegal .mustBeZero ∧ decode 0xA0240000 = .illegal .mustBeZero := by decide

/-- The rows of the opcode map are pairwise disjoint (R75): two rows disagree on a bit both fix. -/
theorem test_opcode_rows_disjoint :
    opRows.Pairwise fun x y => x.pattern &&& (x.mask &&& y.mask) ≠ y.pattern &&& (x.mask &&& y.mask) := by decide

/-- The bytes of a word are its own, least significant first (R53). -/
theorem test_bytes_little_endian : bytesOfWord 0x48408000 = [0x00, 0x80, 0x40, 0x48] ∧
    decodeBytes [0x00, 0x80, 0x40, 0x48] = .command (.add 2 0 1) ∧ decodeBytes [0x00, 0x80, 0x40] = .illegal .truncated := by decide

theorem test_decodeTableWord : decodeTableWord 32 0xD30C0000 = some (.ntta true .b1 3) ∧ decodeTableWord 32 0 = none := by decide

/-! ## The assembler (R81 to R84) -/

theorem test_asm_line : parseLine "NTTA.V b1, e3 ; forward".toList = some (.ntta true .b1 3) ∧
    parseLine "LDI r5, 0xA001".toList = some (.ldi 5 0xA001) ∧ asmText (.seqst .b0 7 6) = "SEQST b0, e7, r6" := by decide +kernel

theorem test_pseudo_LI : pseudoLI 1 0x78000001 = [.ldi 1 0x7800, .ldis 1 1] ∧ pseudoLI 1 0 = [.ldi 1 0] := by decide

theorem test_pseudo_LE : pseudoLE 2 3 40961 = [.ldi 3 40961, .fromint 2 3] := by decide

theorem test_pseudo_SEQFROMDIGITS : pseudoSeqFromDigits .b0 4 [38] =
    some [.ldi 7 4, .seqnew .b0 7, .ldi 6 38, .fromint 7 6, .ldi 7 0, .seqst .b0 7 7] ∧ pseudoSeqFromDigits .b0 1 [1, 2] = none := by
  decide

/-! ## One step per test

`runs` steps the machine once with the word placed as the host's next request. -/

/-- The state after one step that serves `word`. -/
def runs (s : State) (word : Nat) : State :=
  match step (s.withFetchWord 32 word) with
  | .next t => t
  | _ => s

/-- The state with registers loaded. -/
def withR (s : State) (l : List (RegNo × Nat)) : State := l.foldl (fun s p => s.setR p.1 p.2) s

/-- The state with elements loaded. -/
def withE (s : State) (l : List (RegNo × Nat)) : State := l.foldl (fun s p => s.setE p.1 p.2) s

/-- The state with a sequence in a bank. -/
def withSeq (s : State) (bk : BankSel) (xs : List Nat) : State := (s.setLen bk xs.length).putSeq bk xs

/-- The reset state with another modulus, as SETMOD leaves it. -/
def resetMod (m : Nat) : State := State.reset.instantiateField m

/-- ERR and EINFO. -/
def errs (s : State) : BitVec 3 × CmdWord := (s.err, s.einfo)

/-! ### Configuration and moves (95_test_vectors.md section 2.3) -/

theorem test_ldi : (runs State.reset 0x04A0A001).getR 5 = 40961 := by decide +kernel

theorem test_ldis_W16 : (runs (withR State.reset [(1, 30720)]) 0x08200001).getR 1 = 1 := by decide +kernel

theorem test_ldis_W32 : (runs { withR State.reset [(1, 0x7800)] with cfg := ⟨32, 8192⟩ } 0x08200001).getR 1 = 0x78000001 := by decide +kernel

theorem test_setmod : (runs (withSeq (withE (withR State.reset [(0, 15)]) [(3, 7)]) .b0 [1, 2]) 0x0C000000).mod = 15 ∧
    (runs (withSeq (withE (withR State.reset [(0, 15)]) [(3, 7)]) .b0 [1, 2]) 0x0C000000).getE 3 = 0 ∧
    (runs (withSeq (withE (withR State.reset [(0, 15)]) [(3, 7)]) .b0 [1, 2]) 0x0C000000).len .b0 = 0 := by decide +kernel

theorem test_setmod_below_2 : errs (runs (withR State.reset [(0, 1)]) 0x0C000000) = (6, 0x0C000000) := by decide +kernel

theorem test_getmod : (runs (resetMod 15) 0x10C00000).getR 6 = 15 := by decide +kernel

theorem test_rdpp : (runs State.reset 0x14000000).getR 0 = 13 ∧ (runs State.reset 0x14000004).getR 0 = 100 := by decide +kernel

theorem test_rdpp_selector_5 : errs (runs State.reset 0x14000005) = (6, 0x14000005) := by decide +kernel

theorem test_root : (runs (withR State.reset [(1, 16)]) 0x18040000).getE 0 = 302 ∧ (runs (withR State.reset [(1, 8192)]) 0x18040000).getE 0 = 12 := by decide +kernel

theorem test_root_errors_in_order : errs (runs (withR (resetMod 15) [(1, 6)]) 0x18040000) = (4, 0x18040000) ∧
    errs (runs (withR State.reset [(1, 16384)]) 0x18040000) = (1, 0x18040000) := by decide +kernel

theorem test_clrerr : errs (runs { State.reset with err := 7, einfo := 0xA8240000 } 0x1C000000) = (0, 0) := by decide +kernel

/-! ### Field arithmetic (section 2.2) -/

theorem test_fromint : (runs (withR State.reset [(1, 65535)]) 0x40040000).getE 0 = 24574 := by decide +kernel

theorem test_toint : (runs (withE State.reset [(3, 40960)]) 0x444C0000).getR 2 = 40960 := by decide +kernel

theorem test_add_reduces : (runs (withE State.reset [(0, 40000), (1, 1000)]) 0x48408000).getE 2 = 39 ∧
    (runs (withE (resetMod 65535) [(0, 65534), (1, 65534)]) 0x48408000).getE 2 = 65533 := by decide +kernel

theorem test_sub_below_zero : (runs (withE State.reset [(0, 5), (1, 7)]) 0x4C408000).getE 2 = 40959 := by decide +kernel

theorem test_neg : (runs (withE State.reset [(0, 0), (1, 9)]) 0x50200000).getE 1 = 0 ∧
    (runs (withE State.reset [(0, 1)]) 0x50200000).getE 1 = 40960 := by decide +kernel

theorem test_mul : (runs (withE State.reset [(0, 20000)]) 0x54400000).getE 2 = 15835 := by decide +kernel

theorem test_mul_widened : (runs (withE (resetMod 65535) [(0, 65534), (1, 65533)]) 0x54408000).getE 2 = 2 := by decide +kernel

theorem test_div : (runs (withE State.reset [(0, 100), (1, 7)]) 0x5A408000).getE 2 = 17569 := by decide +kernel

theorem test_div_by_non_invertible : errs (runs (withE State.reset [(0, 100), (2, 9)]) 0x5A408000) = (3, 0x5A408000) ∧
    (runs (withE State.reset [(0, 100), (2, 9)]) 0x58408000).resp = .done := by decide +kernel

theorem test_invC : (runs (withE State.reset [(0, 12)]) 0x5E200000).getE 1 = 23894 ∧
    errs (runs (withE (resetMod 15) [(0, 6), (1, 9)]) 0x5E200000) = (3, 0x5E200000) := by decide +kernel

theorem test_inv : (runs (withE State.reset [(0, 302)]) 0x5C200000).getE 1 = 15869 := by decide +kernel

theorem test_inv_of_zero_completes : (runs State.reset 0x5C200000).resp = .done ∧ (runs State.reset 0x5C200000).err = 0 := by decide +kernel

theorem test_pow : (runs (withE (withR State.reset [(1, 65535)]) [(0, 2)]) 0x60208000).getE 1 = 9939 ∧
    (runs (withE State.reset [(0, 0), (1, 9)]) 0x60208000).getE 1 = 1 := by decide +kernel

theorem test_eq : (runs (withE State.reset [(0, 5), (1, 5)]) 0x64408000).getR 2 = 1 ∧
    (runs (withE State.reset [(0, 5), (1, 6)]) 0x64408000).getR 2 = 0 := by decide +kernel

theorem test_ne : (runs (withE State.reset [(0, 5), (1, 6)]) 0x68408000).getR 2 = 1 ∧
    (runs (withE State.reset [(0, 5), (1, 5)]) 0x68408000).getR 2 = 0 := by decide +kernel

/-! ### Numeric utilities (section 2.1) -/

theorem test_bitrev : (runs (withR State.reset [(1, 4660), (2, 16)]) 0x80050000).getR 0 = 11336 ∧
    (runs (withR State.reset [(1, 11), (2, 4)]) 0x80250000).getR 1 = 13 := by decide +kernel

theorem test_bitrev_domain : errs (runs (withR State.reset [(1, 1), (2, 17)]) 0x80050000) = (6, 0x80050000) ∧
    (runs (withR State.reset [(1, 8), (2, 3)]) 0x80050000).resp = .done := by decide +kernel

theorem test_ceillg : (runs (withR State.reset [(1, 17)]) 0x84040000).getR 0 = 5 ∧ (runs (withR State.reset [(1, 32768)]) 0x84040000).getR 0 = 15 := by decide +kernel

theorem test_ceillg_zero : errs (runs State.reset 0x84040000) = (6, 0x84040000) := by decide +kernel

theorem test_is2pow : (runs (withR State.reset [(1, 6), (0, 7)]) 0x88040000).getR 0 = 0 ∧
    (runs (withR State.reset [(1, 32768)]) 0x88040000).getR 0 = 1 := by decide +kernel

/-! ### Sequences (section 2.4) -/

theorem test_seqnew : (runs (withSeq (withR State.reset [(1, 3)]) .b1 [9, 9, 9, 9, 9]) 0xA1040000).seq .b1 = [0, 0, 0] := by decide +kernel

theorem test_seqnew_above_capacity : errs (runs (withR State.reset [(1, 8193)]) 0xA0040000) = (6, 0xA0040000) := by decide +kernel

theorem test_seqlen : (runs (withSeq State.reset .b0 [1, 2, 3]) 0xA4400000).getR 2 = 3 := by decide +kernel

theorem test_seqld : (runs (withSeq (withR State.reset [(1, 2)]) .b0 [11, 22, 33]) 0xA8840000).getE 4 = 33 := by decide +kernel

theorem test_seqld_out_of_bounds : errs (runs (withSeq (withR State.reset [(1, 3)]) .b0 [11, 22, 33]) 0xA8840000) = (7, 0xA8840000) := by decide +kernel

theorem test_seqst : (runs (withSeq (withE (withR State.reset [(7, 1)]) [(7, 40960)]) .b0 [11, 22, 33]) 0xAC1F8000).seq .b0 = [11, 40960, 33] := by decide +kernel

theorem test_seqst_out_of_bounds : errs (runs (withSeq (withR State.reset [(7, 3)]) .b0 [11, 22, 33]) 0xAC1F8000) = (7, 0xAC1F8000) := by decide +kernel

/-! ### The NTT engine (section 2.5) -/

theorem test_bfly : (runs (withE State.reset [(0, 5), (1, 7), (2, 302)]) 0xC0050000).getE 0 = 2119 ∧
    (runs (withE State.reset [(0, 5), (1, 7), (2, 302)]) 0xC0050000).getE 1 = 38852 := by decide +kernel

theorem test_bfly_twiddle_in_a_destination : (runs (withE State.reset [(0, 3), (1, 4)]) 0xC0048000).getE 0 = 19 ∧
    errs (runs (withE State.reset [(0, 3), (1, 4)]) 0xC0240000) = (6, 0xC0240000) := by decide +kernel

theorem test_permute : (runs (withSeq State.reset .b0 [0, 1, 2, 3, 4, 5, 6, 7]) 0xC4000000).seq .b0 = [0, 4, 2, 6, 1, 5, 3, 7] := by decide +kernel

theorem test_permute_length : errs (runs (withSeq State.reset .b0 [1, 2, 3, 4, 5, 6]) 0xC4000000) = (1, 0xC4000000) := by decide +kernel

theorem test_check_passes : (runs (withSeq (withE (resetMod 15) [(0, 4)]) .b0 [0, 0]) 0xC8000000).resp = .done := by decide +kernel

theorem test_check_errors : errs (runs (withSeq (withE State.reset [(0, 9282)]) .b0 (List.replicate 16 0)) 0xC8000000) = (2, 0xC8000000) ∧
    errs (runs (withSeq (withE State.reset [(0, 302)]) .b0 (List.replicate 6 0)) 0xC8000000) = (1, 0xC8000000) := by decide +kernel

theorem test_ntta : (runs (withSeq (withE State.reset [(3, 14541)]) .b0 [1, 2, 3, 4]) 0xD20C0000).seq .b0 = [10, 11877, 40959, 29080] := by decide +kernel

theorem test_ntta_unvalidated_root : (runs (withSeq (withE State.reset [(0, 302)]) .b0 [1, 2, 3, 4]) 0xD0000000).seq .b0 = [10, 40355, 40959, 602] ∧
    errs (runs (withSeq (withE State.reset [(0, 302)]) .b0 [1, 2, 3, 4]) 0xD2000000) = (2, 0xD2000000) := by decide +kernel

theorem test_nttb : (runs (withSeq (withE State.reset [(0, 9282)]) .b0 [1, 2, 3, 4, 5, 6, 7, 8]) 0xD4000000).seq .b0 =
    [36, 15319, 23754, 8764, 40957, 32189, 17199, 25634] := by decide +kernel

theorem test_intta : (runs (withSeq (withE State.reset [(0, 14541)]) .b0 [10, 11877, 40959, 29080]) 0xDA000000).seq .b0 = [1, 2, 3, 4] ∧
    (runs (withSeq (withE (resetMod 15) [(0, 4)]) .b0 [8, 13]) 0xDA000000).seq .b0 = [3, 5] := by decide +kernel

theorem test_intta_errors_in_order : errs (runs (withSeq State.reset .b0 [1, 2, 3]) 0xD8000000) = (3, 0xD8000000) ∧
    errs (runs (withSeq (withE (resetMod 6) [(0, 5)]) .b0 [3, 5]) 0xDA000000) = (3, 0xDA000000) := by decide +kernel

theorem test_inttb : (runs (withSeq (withE State.reset [(0, 9282)]) .b0 [36, 15319, 23754, 8764, 40957, 32189, 17199, 25634]) 0xDE000000).seq .b0 =
    [1, 2, 3, 4, 5, 6, 7, 8] := by decide +kernel

/-- The recurrence against the rows of section 2.5: a root of the right order, a root of the wrong one, a composite modulus. -/
theorem test_transformSlot : (List.range 4).map (transformSlot 40961 2 14541 ([1, 2, 3, 4].getD · 0)) = [10, 11877, 40959, 29080] ∧
    (List.range 4).map (transformSlot 40961 2 302 ([1, 2, 3, 4].getD · 0)) = [10, 40355, 40959, 602] ∧
    (List.range 2).map (transformSlot 15 1 4 ([3, 5].getD · 0)) = [8, 13] := by decide

/-! ### The host port (section 2.6) -/

theorem test_illegal_word : errs (runs State.reset 0xCC000000) = (5, 0xCC000000) ∧ (runs State.reset 0).resp = .fault 5 := by decide +kernel

theorem test_blocked : (runs { withE State.reset [(0, 1), (1, 2)] with err := 3, einfo := 0x5E400000 } 0x48408000).resp = .blocked ∧
    (runs { withE State.reset [(0, 1), (1, 2)] with err := 3, einfo := 0x5E400000 } 0x48408000).getE 2 = 0 := by decide +kernel

theorem test_hostRead : (hostRead (withR State.reset [(7, 65535)]) 7).resp = .value 65535 ∧
    (hostRead { State.reset with err := 5 } 8).resp = .value 5 ∧ (hostRead { State.reset with einfo := 0xCC000000 } 9).resp = .value 0xCC000000 := by decide +kernel

theorem test_hostReset : (hostReset (withR (resetMod 15) [(3, 9)])).mod = 40961 ∧ (hostReset (withR (resetMod 15) [(3, 9)])).getR 3 = 0 := by decide +kernel

theorem test_withFetchWord : (State.reset.withFetchWord 32 0x48408000).request = some (.issue 0x48408000) := by decide +kernel

theorem test_step_from_reset : step (State.reset.withFetchWord 32 0x04A0A001) =
    .next { State.reset with r := State.reset.r.set 5 40961, prog := [.issue 0x04A0A001], pos := 1, resp := .done } := by rfl

/-! ## Witnesses: states and operands that meet the hypotheses of each statement together

`witness_<name>` is for `Obligations.<name>`; a statement without hypotheses has none. `demo` holds sequences of the lengths 4 and 3
under the prime modulus of reset; `comp` holds sequences of the lengths 2 and 3 under the modulus 15. -/

/-- A state that completes the command, where it completes. -/
def after (i : Instr) (s : State) : State :=
  match exec i s with
  | .next t => t
  | _ => s

/-- The reset state with another modulus and other registers. -/
def base (m : Nat) (r e : Vector Nat 8) : State := { State.reset with mod := m, r := r, e := e }

def demo : State := withSeq (withSeq (base 40961 #v[0, 1, 2, 3, 4, 5, 8193, 65535] #v[0, 14541, 302, 7, 1, 40960, 26420, 2])
  .b0 [1, 2, 3, 4]) .b1 [5, 6, 7]

/-- `demo` with other integer registers. -/
def demoR : State := { demo with r := #v[8193, 16384, 8192, 17, 16, 65535, 32768, 6] }

/-- `demo` with no sequence and with a sequence of one element. -/
def demoShort : State := (demo.setLen .b0 0).setLen .b1 1

def comp : State := withSeq (withSeq (base 15 #v[0, 1, 2, 3, 4, 5, 8193, 65535] #v[0, 6, 14, 7, 1, 4, 9, 2]) .b0 [1, 2]) .b1 [3, 5, 7]

/-- `demo` blocked by a fault of `INV.C e1, e0`. -/
def blockedDemo : State := { demo with err := 3, einfo := 0x5E200000 }

theorem legal_reset : Config.Legal State.reset.cfg State.reset.pp :=
  ⟨by decide, by decide, by decide +kernel, by (show Nat.Prime 40961; norm_num), by decide +kernel, by decide +kernel, by decide,
    by decide, by decide +kernel, by decide +kernel, by decide +kernel⟩

theorem base_inv {m : Nat} {r e : Vector Nat 8} (hm : 2 ≤ m) (hw : m < 65536) (hr : ∀ i : Fin 8, r[i] < 65536) (he : ∀ i : Fin 8, e[i] < m) :
    (base m r e).Inv :=
  ⟨legal_reset, hm, hw, hr, he, fun bk => (by cases bk <;> exact Nat.zero_le _), fun bk i h => (by cases bk <;> cases h),
    fun bk => (by cases bk <;> rfl), fun bk c h => (by cases bk <;> cases h), fun _ => rfl⟩

theorem demo_inv : demo.Inv :=
  State.Inv.setLen_putSeq (State.Inv.setLen_putSeq (base_inv (by decide) (by decide) (by decide +kernel) (by decide +kernel)) .b0
    (by decide +kernel) rfl (by decide +kernel)) .b1 (by decide +kernel) rfl (by decide +kernel)

theorem demoR_inv : demoR.Inv :=
  demo_inv.of_same_banks ⟨rfl, rfl⟩ rfl (by decide +kernel) (by decide +kernel) (fun b => by cases b <;> rfl) fun _ => rfl

theorem comp_inv : comp.Inv :=
  State.Inv.setLen_putSeq (State.Inv.setLen_putSeq (base_inv (by decide) (by decide) (by decide +kernel) (by decide +kernel)) .b0
    (by decide +kernel) rfl (by decide +kernel)) .b1 (by decide +kernel) rfl (by decide +kernel)

theorem prime_demo : demo.mod.Prime := by show Nat.Prime 40961; norm_num

theorem four_demo : PowerOfTwo (demo.len .b0) := ⟨2, by decide +kernel⟩

theorem three_demo : ¬ PowerOfTwo (demo.len .b1) := (is2pow_eq_false_iff _).mp (by decide +kernel)

theorem order_demo : HasOrder demo.mod (demo.len .b0) (demo.getE 1) := by
  refine ⟨by decide +kernel, fun k h0 h4 => ?_⟩
  have h4 : k < 4 := h4
  interval_cases k <;> decide +kernel

/-! ### Encoding and the host port -/

theorem witness_DecodeReturnsTheEncodedCommand : (Instr.rdpp 7 0).wellFormed = true ∧ (Instr.ldi 0 65535).wellFormed = true := by decide

theorem witness_DecodedWordIsTheEncodingOfItsCommand : decode 0x5A408000 = .command (.div true 2 0 1) ∧ decode 0x14E0FFFF = .command (.rdpp 7 65535) := by
  decide

theorem illegal_CC : ∀ i, decode 0xCC000000 ≠ .command i := fun i h => by
  rw [show decode 0xCC000000 = .illegal .unassignedOpcode by decide] at h; cases h

theorem witness_IllegalWordsRaiseIllegalCommand : (demo.withFetchWord 32 0xCC000000).request = some (.issue 0xCC000000) ∧
    (demo.withFetchWord 32 0xCC000000).err = 0 ∧ ∀ i, decode 0xCC000000 ≠ .command i := ⟨by decide +kernel, by decide +kernel, illegal_CC⟩

theorem witness_StepExecutesTheDecodedCommand :
    ((demo.withFetchWord 32 0x48408000).request = some (.issue 0x48408000) ∧ decode 0x48408000 = .command (.add 2 0 1) ∧
      (demo.withFetchWord 32 0x48408000).err = 0 ∧
      exec (.add 2 0 1) (demo.withFetchWord 32 0x48408000) = .next (after (.add 2 0 1) (demo.withFetchWord 32 0x48408000))) ∧
    ((blockedDemo.withFetchWord 32 0x1C000000).request = some (.issue 0x1C000000) ∧ decode 0x1C000000 = .command .clrerr ∧
      exec .clrerr (blockedDemo.withFetchWord 32 0x1C000000) = .next (after .clrerr (blockedDemo.withFetchWord 32 0x1C000000))) :=
  ⟨⟨by decide +kernel, by decide, by decide +kernel, rfl⟩, by decide +kernel, by decide, rfl⟩

theorem witness_IssueBehavesAsTheRuleSays :
    ((blockedDemo.withFetchWord 32 0x1C000000).request = some (.issue 0x1C000000) ∧ (blockedDemo.withFetchWord 32 0x1C000000).err ≠ 0 ∧
      IsWordOf 0x1C000000 .clrerr) ∧
    ((blockedDemo.withFetchWord 32 0xCC000000).request = some (.issue 0xCC000000) ∧ (blockedDemo.withFetchWord 32 0xCC000000).err ≠ 0 ∧
      ¬ IsWordOf 0xCC000000 .clrerr) ∧
    ((demo.withFetchWord 32 0xCC000000).request = some (.issue 0xCC000000) ∧ (demo.withFetchWord 32 0xCC000000).err = 0 ∧
      ∀ i, ¬ IsWordOf 0xCC000000 i) ∧
    ((demo.withFetchWord 32 0x48408000).request = some (.issue 0x48408000) ∧ (demo.withFetchWord 32 0x48408000).err = 0 ∧
      IsWordOf 0x48408000 (.add 2 0 1)) :=
  ⟨⟨by decide +kernel, by decide +kernel, by show decode _ = _; decide⟩, ⟨by decide +kernel, by decide +kernel, illegal_CC _⟩,
    ⟨by decide +kernel, by decide +kernel, illegal_CC⟩, by decide +kernel, by decide +kernel, by show decode _ = _; decide⟩

/-- A state whose next request is `q`. -/
def asks (s : State) (q : HostReq) : State := { s with prog := [q], pos := 0 }

theorem witness_BlockedUntilClearedOrReset : blockedDemo.err ≠ 0 ∧ (asks blockedDemo (.issue 0x48408000)).request = some (.issue 0x48408000) ∧
    (asks blockedDemo (.read 9)).request = some (.read 9) ∧ (asks blockedDemo (.issue 0x1C000000)).request = some (.issue 0x1C000000) ∧
    step (asks blockedDemo .reset) = .next (hostReset (asks blockedDemo .reset)) ∧ (hostReset (asks blockedDemo .reset)).err = 0 :=
  ⟨by decide +kernel, by decide +kernel, by decide +kernel, by decide +kernel, rfl, by decide +kernel⟩

theorem witness_HostReadReturnsTheSelectedRegister : (asks demo (.read 0)).request = some (.read 0) ∧ (0 : Fin 10).val = (0 : RegNo).val ∧
    (asks demo (.read 7)).request = some (.read 7) ∧ (7 : Fin 10).val = (7 : RegNo).val ∧ (asks demo (.read 8)).request = some (.read 8) ∧
    (asks demo (.read 9)).request = some (.read 9) := by decide +kernel

theorem witness_ResetPutsEveryRegisterAtItsResetValue : (asks blockedDemo .reset).request = some .reset := by decide +kernel

theorem witness_IndexAdvancesByOneWhateverTheResponse : (asks demo (.issue 0)).request = some (.issue 0) ∧
    step (asks demo (.issue 0)) = .next (runs demo 0) ∧ exec (.sub 0 1 2) demo = .next (after (.sub 0 1 2) demo) :=
  ⟨by decide +kernel, rfl, rfl⟩

/-! ### Invariants and rules about every command -/

theorem witness_ResetStateMeetsTheInvariant : Config.Legal Config.cfg16 Config.pp16 := legal_reset

theorem asks_inv (q : HostReq) : (asks demo q).Inv :=
  demo_inv.of_same_banks ⟨rfl, rfl⟩ rfl demo_inv.r_lt demo_inv.e_lt (fun b => by cases b <;> rfl) fun _ => rfl

theorem witness_EveryStepKeepsTheInvariant : (asks demo (.issue 0x48408000)).Inv ∧
    ∃ t, step (asks demo (.issue 0x48408000)) = .next t := ⟨asks_inv _, _, rfl⟩

theorem witness_ElementsAreReducedInEveryRun : Config.Legal Config.cfg16 Config.pp16 := legal_reset

theorem witness_CommandsRaiseExactlyTheTabledErrors : demo.Inv ∧ demo.err = 0 ∧ comp.Inv ∧ comp.err = 0 :=
  ⟨demo_inv, by decide +kernel, comp_inv, by decide +kernel⟩

theorem witness_FaultLeavesOnlyErrorAndSpoiledSlots : demo.err = 0 ∧
    (exec (.setmod 0) demo = .next (after (.setmod 0) demo) ∧ (after (.setmod 0) demo).err ≠ 0 ∧ spoiledBank (.setmod 0) = none) ∧
    (exec (.permute .b1) demo = .next (after (.permute .b1) demo) ∧ (after (.permute .b1) demo).err ≠ 0 ∧
      spoiledBank (.permute .b1) = some .b1) :=
  ⟨by decide +kernel, ⟨rfl, by decide +kernel, rfl⟩, rfl, by decide +kernel, rfl⟩

theorem witness_FailedTransformLeavesReducedSlots : demo.Inv ∧ demo.err = 0 ∧ spoiledBank (.ntta true .b0 2) = some .b0 ∧
    exec (.ntta true .b0 2) demo = .next (after (.ntta true .b0 2) demo) ∧ (after (.ntta true .b0 2) demo).err ≠ 0 :=
  ⟨demo_inv, by decide +kernel, rfl, rfl, by decide +kernel⟩

theorem witness_RegistersAreWrittenOnlyByTheirCommands :
    (exec (.setmod 5) demo = .next (after (.setmod 5) demo) ∧ (after (.setmod 5) demo).mod ≠ demo.mod ∧
      (after (.setmod 5) demo).len .b0 ≠ demo.len .b0) ∧
    (exec (.seqnew .b0 2) demo = .next (after (.seqnew .b0 2) demo) ∧ (after (.seqnew .b0 2) demo).len .b0 ≠ demo.len .b0) ∧
    (exec .clrerr blockedDemo = .next (after .clrerr blockedDemo) ∧ blockedDemo.err ≠ 0 ∧ (after .clrerr blockedDemo).err = 0) ∧
    (exec (.seqst .b0 2 3) demo = .next (after (.seqst .b0 2 3) demo) ∧ 3 < demo.len .b0 ∧
      (after (.seqst .b0 2 3) demo).seqRead .b0 3 ≠ demo.seqRead .b0 3) ∧
    (exec (.permute .b0) demo = .next (after (.permute .b0) demo) ∧ 1 < demo.len .b0 ∧
      (after (.permute .b0) demo).seqRead .b0 1 ≠ demo.seqRead .b0 1) :=
  ⟨⟨rfl, by decide +kernel, by decide +kernel⟩, ⟨rfl, by decide +kernel⟩, ⟨rfl, by decide +kernel, by decide +kernel⟩,
    ⟨rfl, by decide +kernel, by decide +kernel⟩, rfl, by decide +kernel, by decide +kernel⟩

theorem witness_BanksDoNotInteract : namedBank (.ntta true .b0 1) = some .b0 ∧
    exec (.ntta true .b0 1) demo = .next (after (.ntta true .b0 1) demo) := ⟨rfl, rfl⟩

theorem witness_DrawsNeverDecideAFault : (∃ t u, exec (.inv 2 0) demo = .next t ∧ exec (.inv 2 0) { demo with draws := 9 } = .next u) ∧
    ∃ t u, exec (.permute .b1) demo = .next t ∧ exec (.permute .b1) { demo with draws := 9 } = .next u :=
  ⟨⟨_, _, rfl, rfl⟩, _, _, rfl, rfl⟩

/-! ### Configuration, field arithmetic, numeric utilities -/

theorem witness_LoadImmediateCommands : 0 < 65536 ∧ 65535 < 65536 := by decide

theorem witness_SetmodInstantiatesTheField : demo.getR 1 < 2 ∧ demo.getR 0 < 2 ∧ 2 ≤ demo.getR 2 ∧ 2 ≤ demo.getR 7 := by decide +kernel

theorem witness_RdppReadsTheSelectedParameter : (5 < 65536 ∧ 4 < 5) ∧ 4 < 65535 ∧
    [demo.pp.n, demo.pp.k, demo.pp.p, demo.pp.g, demo.pp.base][0]? = some 13 ∧
    [demo.pp.n, demo.pp.k, demo.pp.p, demo.pp.g, demo.pp.base][4]? = some 100 := by decide +kernel

theorem witness_RootDerivesARootOfTheLength : (comp.Inv ∧ comp.mod ≠ comp.pp.p) ∧
    (demo.Inv ∧ demo.mod = demo.pp.p ∧ ¬ PowerOfTwo (demo.getR 3)) ∧
    (demoR.Inv ∧ demoR.mod = demoR.pp.p ∧ 2 ^ demoR.pp.n < demoR.getR 1) ∧
    (demoR.mod = demoR.pp.p ∧ PowerOfTwo (demoR.getR 2) ∧ demoR.getR 2 ≤ 2 ^ demoR.pp.n ∧ 2 ≤ demoR.getR 2) ∧
    (demo.mod = demo.pp.p ∧ PowerOfTwo (demo.getR 1) ∧ demo.getR 1 ≤ 2 ^ demo.pp.n) :=
  ⟨⟨comp_inv, by decide +kernel⟩, ⟨demo_inv, by decide +kernel, (is2pow_eq_false_iff _).mp (by decide +kernel)⟩,
    ⟨demoR_inv, by decide +kernel, by decide +kernel⟩,
    ⟨by decide +kernel, (is2pow_iff _).mp (by decide +kernel), by decide +kernel, by decide +kernel⟩,
    by decide +kernel, (is2pow_iff _).mp (by decide +kernel), by decide +kernel⟩

theorem witness_ClrerrClearsTheErrorOnly : demo.err = 0 ∧ demo.einfo = 0 := by decide +kernel

theorem witness_AddSubNegAreExactModulo : demo.Inv ∧ comp.Inv := ⟨demo_inv, comp_inv⟩

theorem witness_MulAndPowAreExactModulo : demo.Inv ∧ comp.Inv := ⟨demo_inv, comp_inv⟩

theorem witness_CheckedInverseInvertsOrFaults : (demo.Inv ∧ Nat.gcd (demo.getE 5) demo.mod = 1) ∧ (demo.Inv ∧ Nat.gcd (demo.getE 0) demo.mod ≠ 1) ∧
    (comp.Inv ∧ Nat.gcd (comp.getE 2) comp.mod = 1) ∧ comp.Inv ∧ Nat.gcd (comp.getE 1) comp.mod ≠ 1 :=
  ⟨⟨demo_inv, by decide +kernel⟩, ⟨demo_inv, by decide +kernel⟩, ⟨comp_inv, by decide +kernel⟩, comp_inv, by decide +kernel⟩

theorem witness_UncheckedInverseNeverFaults : (demo.Inv ∧ Nat.gcd (demo.getE 5) demo.mod = 1) ∧ (demo.Inv ∧ Nat.gcd (demo.getE 0) demo.mod ≠ 1) ∧
    comp.Inv ∧ Nat.gcd (comp.getE 1) comp.mod ≠ 1 :=
  ⟨⟨demo_inv, by decide +kernel⟩, ⟨demo_inv, by decide +kernel⟩, comp_inv, by decide +kernel⟩

theorem witness_DivMultipliesByTheInverse : (demo.Inv ∧ Nat.gcd (demo.getE 3) demo.mod = 1) ∧ (demo.Inv ∧ Nat.gcd (demo.getE 0) demo.mod ≠ 1) ∧
    comp.Inv ∧ Nat.gcd (comp.getE 6) comp.mod ≠ 1 :=
  ⟨⟨demo_inv, by decide +kernel⟩, ⟨demo_inv, by decide +kernel⟩, comp_inv, by decide +kernel⟩

theorem witness_InverseOfInverseIsTheElement : demo.Inv ∧ Nat.gcd (demo.getE 1) demo.mod = 1 ∧ comp.Inv ∧ Nat.gcd (comp.getE 3) comp.mod = 1 :=
  ⟨demo_inv, by decide +kernel, comp_inv, by decide +kernel⟩

theorem witness_BitrevReversesTheLowBits : demoR.cfg.w < demoR.getR 3 ∧ (demoR.getR 4 ≤ demoR.cfg.w ∧ demoR.getR 5 < 2 ^ demoR.getR 4) ∧
    (demo.getR 0 ≤ demo.cfg.w ∧ demo.getR 0 < 2 ^ demo.getR 0) ∧ demo.getR 2 ≤ demo.cfg.w ∧ 2 ^ demo.getR 2 ≤ demo.getR 4 := by decide +kernel

theorem witness_BitrevTwiceRestoresTheValue : (0 : RegNo) ≠ 4 ∧ demoR.getR 4 ≤ demoR.cfg.w ∧ demoR.getR 5 < 2 ^ demoR.getR 4 := by decide +kernel

theorem witness_CeillgIsTheLeastExponent : demo.getR 0 = 0 ∧ demo.getR 1 ≠ 0 ∧ demo.getR 7 ≠ 0 := by decide +kernel

theorem witness_IsTwoPowerTestsForOneSetBit : PowerOfTwo (demo.getR 1) ∧ PowerOfTwo (demoR.getR 6) ∧ ¬ PowerOfTwo (demo.getR 0) ∧ ¬ PowerOfTwo (demo.getR 7) :=
  ⟨(is2pow_iff _).mp (by decide +kernel), (is2pow_iff _).mp (by decide +kernel), (is2pow_eq_false_iff _).mp (by decide +kernel),
    (is2pow_eq_false_iff _).mp (by decide +kernel)⟩

/-! ### Sequences and the engine -/

theorem witness_SeqnewCreatesAZeroSequence : demoR.cfg.seqMax < demoR.getR 0 ∧ demoR.getR 2 ≤ demoR.cfg.seqMax ∧ demo.getR 0 ≤ demo.cfg.seqMax := by
  decide +kernel

theorem witness_SeqldReadsWithinBounds : demo.len .b0 ≤ demo.getR 4 ∧ demo.getR 3 < demo.len .b0 ∧ demo.getR 0 < demo.len .b1 ∧
    demoShort.len .b0 ≤ demoShort.getR 0 := by decide +kernel

theorem witness_SeqstWritesExactlyOneSlot : demo.Inv ∧ demo.len .b0 ≤ demo.getR 4 ∧ demo.getR 3 < demo.len .b0 ∧ demo.getR 0 < demo.len .b0 :=
  ⟨demo_inv, by decide +kernel, by decide +kernel, by decide +kernel⟩

theorem witness_BflyCombinesAndReplaces : demo.Inv ∧ (3 : RegNo) = 3 ∧ (0 : RegNo) ≠ 7 := ⟨demo_inv, rfl, by decide⟩

theorem witness_PermuteReversesTheIndexBits : demo.Inv ∧ ¬ PowerOfTwo (demo.len .b1) ∧ demo.len .b0 = 2 ^ 2 ∧
    (1 < 2 ^ 2 ∧ 2 < 2 ^ 2 ∧ ∀ i, i < 2 → (2 : Nat).testBit i = (1 : Nat).testBit (2 - 1 - i)) :=
  ⟨demo_inv, three_demo, by decide +kernel, by decide⟩

theorem witness_PermuteTwiceRestoresTheBank : PowerOfTwo (demo.len .b0) ∧ PowerOfTwo (demoShort.len .b1) := ⟨four_demo, 0, by decide +kernel⟩

theorem witness_CheckValidatesLengthThenRootOrder : demo.Inv ∧ ¬ PowerOfTwo (demo.len .b1) ∧ PowerOfTwo (demo.len .b0) ∧
    RootOrderWrong demo.mod (demo.len .b0) (demo.getE 2) ∧ RootOrderWrong demo.mod (demo.len .b0) (demo.getE 4) ∧
    ¬ RootOrderWrong demo.mod (demo.len .b0) (demo.getE 1) :=
  ⟨demo_inv, three_demo, four_demo, Or.inr (by decide +kernel), Or.inl (by decide +kernel),
    not_or.mpr ⟨by decide +kernel, by decide +kernel⟩⟩

theorem witness_CheckPassesExactlyForRootsOfThatOrder : demo.Inv ∧ demo.err = 0 ∧ PowerOfTwo (demo.len .b0) ∧ 2 ≤ demo.len .b0 ∧
    HasOrder demo.mod (demo.len .b0) (demo.getE 1) := ⟨demo_inv, by decide +kernel, four_demo, by decide +kernel, order_demo⟩

theorem witness_TransformsCompleteAndKeepToTheirBank : demo.Inv ∧ PowerOfTwo (demo.len .b0) ∧
    ¬ RootOrderWrong demo.mod (demo.len .b0) (demo.getE 1) ∧ IsInverse demo.mod (demo.getE 1) 26420 ∧
    ¬ RootOrderWrong demo.mod (demo.len .b0) 26420 ∧ Nat.gcd (demo.len .b0 % demo.mod) demo.mod = 1 :=
  ⟨demo_inv, four_demo, not_or.mpr ⟨by decide +kernel, by decide +kernel⟩, ⟨by decide +kernel, by decide +kernel⟩,
    not_or.mpr ⟨by decide +kernel, by decide +kernel⟩, by decide +kernel⟩

theorem witness_ValidateFlagOnlyAddsTheRootTest : demo.Inv ∧ PowerOfTwo (demo.len .b0) ∧
    ¬ RootOrderWrong demo.mod (demo.len .b0) (demo.getE 1) ∧ RootOrderWrong demo.mod (demo.len .b0) (demo.getE 2) :=
  ⟨demo_inv, four_demo, not_or.mpr ⟨by decide +kernel, by decide +kernel⟩, Or.inr (by decide +kernel)⟩

theorem witness_ForwardTransformIsTheFourierTransform : demo.Inv ∧ demo.mod.Prime ∧ PowerOfTwo (demo.len .b0) ∧ 2 ≤ demo.len .b0 ∧
    HasOrder demo.mod (demo.len .b0) (demo.getE 1) := ⟨demo_inv, prime_demo, four_demo, by decide +kernel, order_demo⟩

theorem witness_VariantsAreEquivalent : demo.err = 0 ∧ comp.err = 0 := by decide +kernel

theorem witness_InverseTransformIsForwardWithInvertedRootScaled : (demo.Inv ∧ PowerOfTwo (demo.len .b0) ∧
    IsInverse demo.mod (demo.getE 1) 26420 ∧ IsInverse demo.mod (demo.len .b0 % demo.mod) 30721 ∧
    ¬ RootOrderWrong demo.mod (demo.len .b0) 26420 ∧
    exec (forwardInstr true false .b0 1) (demo.setE 1 26420) = .next (after (forwardInstr true false .b0 1) (demo.setE 1 26420))) ∧
    (comp.Inv ∧ PowerOfTwo (comp.len .b0) ∧ IsInverse comp.mod (comp.getE 5) 4 ∧ IsInverse comp.mod (comp.len .b0 % comp.mod) 8 ∧
    ¬ RootOrderWrong comp.mod (comp.len .b0) 4 ∧
    exec (forwardInstr false false .b0 5) (comp.setE 5 4) = .next (after (forwardInstr false false .b0 5) (comp.setE 5 4))) :=
  ⟨⟨demo_inv, four_demo, ⟨by decide +kernel, by decide +kernel⟩, ⟨by decide +kernel, by decide +kernel⟩,
    not_or.mpr ⟨by decide +kernel, by decide +kernel⟩, rfl⟩,
    comp_inv, ⟨1, by decide +kernel⟩, ⟨by decide +kernel, by decide +kernel⟩, ⟨by decide +kernel, by decide +kernel⟩,
    not_or.mpr ⟨by decide +kernel, by decide +kernel⟩, rfl⟩

theorem witness_ForwardTransformFollowsTheRecurrence :
    (demo.Inv ∧ demo.len .b0 = 2 ^ 2 ∧ ¬ RootOrderWrong demo.mod (demo.len .b0) (demo.getE 1)) ∧
    (comp.Inv ∧ comp.len .b0 = 2 ^ 1 ∧ ¬ RootOrderWrong comp.mod (comp.len .b0) (comp.getE 5)) ∧
    (demo.len .b0 = 2 ^ 2 ∧ RootOrderWrong demo.mod (demo.len .b0) (demo.getE 2)) ∧
    (withSeq demo .b1 [9]).Inv ∧ (withSeq demo .b1 [9]).len .b1 = 2 ^ 0 :=
  ⟨⟨demo_inv, by decide +kernel, not_or.mpr ⟨by decide +kernel, by decide +kernel⟩⟩,
    ⟨comp_inv, by decide +kernel, not_or.mpr ⟨by decide +kernel, by decide +kernel⟩⟩,
    ⟨by decide +kernel, Or.inr (by decide +kernel)⟩,
    demo_inv.setLen_putSeq .b1 (by decide +kernel) rfl (by decide +kernel), by decide +kernel⟩

theorem witness_RoundTripRestoresTheSequence : demo.Inv ∧ demo.mod.Prime ∧ PowerOfTwo (demo.len .b0) ∧ 2 ≤ demo.len .b0 ∧
    HasOrder demo.mod (demo.len .b0) (demo.getE 1) := ⟨demo_inv, prime_demo, four_demo, by decide +kernel, order_demo⟩

/-- `demo` with another sequence in bank 0. -/
def demoSeq (xs : List Nat) : State := withSeq demo .b0 xs

theorem demoSeq_inv {xs : List Nat} (hl : xs.length ≤ 8192) (hx : ∀ x ∈ xs, x < 40961) : (demoSeq xs).Inv :=
  demo_inv.setLen_putSeq .b0 hl rfl hx

/-- The slot-by-slot products of the transforms of `[1, 2, 3, 4]` and `[4, 0, 0, 9]`. -/
def products : List Nat :=
  ((after (.ntta true .b0 1) demo).seq .b0).zipWith (fun x y => x * y % 40961) ((after (.nttb false .b0 1) (demoSeq [4, 0, 0, 9])).seq .b0)

theorem witness_PointwiseProductGivesCyclicConvolution :
    demo.Inv ∧ (demoSeq [4, 0, 0, 9]).Inv ∧ (demoSeq products).Inv ∧ demo.mod.Prime ∧ (demoSeq [4, 0, 0, 9]).mod = demo.mod ∧
    (demoSeq products).mod = demo.mod ∧ PowerOfTwo (demo.len .b0) ∧ 2 ≤ demo.len .b0 ∧ (demoSeq [4, 0, 0, 9]).len .b0 = demo.len .b0 ∧
    (demoSeq products).len .b0 = demo.len .b0 ∧ HasOrder demo.mod (demo.len .b0) (demo.getE 1) ∧
    (demoSeq [4, 0, 0, 9]).getE 1 = demo.getE 1 ∧ (demoSeq products).getE 1 = demo.getE 1 ∧
    exec (forwardInstr false true .b0 1) demo = .next (after (.ntta true .b0 1) demo) ∧
    exec (forwardInstr true false .b0 1) (demoSeq [4, 0, 0, 9]) = .next (after (.nttb false .b0 1) (demoSeq [4, 0, 0, 9])) ∧
    ∀ k, k < demo.len .b0 → (demoSeq products).seqRead .b0 k =
      (after (.ntta true .b0 1) demo).seqRead .b0 k * (after (.nttb false .b0 1) (demoSeq [4, 0, 0, 9])).seqRead .b0 k % demo.mod := by
  refine ⟨demo_inv, demoSeq_inv (by decide) (by decide), demoSeq_inv (by decide +kernel) (by decide +kernel), prime_demo, by decide +kernel,
    by decide +kernel, four_demo, by decide +kernel, by decide +kernel, by decide +kernel, order_demo, by decide +kernel, by decide +kernel,
    rfl, rfl, ?_⟩
  intro k hk
  have hk : k < 4 := hk
  interval_cases k <;> decide +kernel

end Sys2Proof.Machine.Tests
end

section
/-! PROOFS. The scope: the reference instance is legal (00_scope.md R13, R15), and the reset state of every legal instance
meets the invariant (10_state.md R38). -/

namespace Sys2Proof.Machine

/-! ## What the reset state holds (R38) -/

variable (c : Config.Params) (pp : Config.PrimeParams)

@[simp] theorem State.resetOf_cfg : (State.resetOf c pp).cfg = c := rfl
@[simp] theorem State.resetOf_pp : (State.resetOf c pp).pp = pp := rfl
@[simp] theorem State.resetOf_mod : (State.resetOf c pp).mod = pp.p := rfl
@[simp] theorem State.resetOf_err : (State.resetOf c pp).err = 0 := rfl
@[simp] theorem State.resetOf_einfo : (State.resetOf c pp).einfo = 0 := rfl
@[simp] theorem State.bank_resetOf (bk : BankSel) : (State.resetOf c pp).bank bk = Bank.empty := by cases bk <;> rfl
@[simp] theorem State.len_resetOf (bk : BankSel) : (State.resetOf c pp).len bk = 0 := by cases bk <;> rfl

@[simp] theorem State.getR_resetOf (i : RegNo) : (State.resetOf c pp).getR i = 0 := by
  simp [State.getR, State.resetOf]

@[simp] theorem State.getE_resetOf (i : RegNo) : (State.resetOf c pp).getE i = 0 := by
  simp [State.getE, State.resetOf]

/-! ## The invariant at reset -/

variable {c pp} in
/-- Registers hold 0 and banks are empty, so that only MOD needs the legality of the instance: it is the prime P, below `2^W`. -/
theorem State.Inv.resetOf (h : Config.Legal c pp) : (State.resetOf c pp).Inv where
  legal := h
  mod_ge := h.prime.two_le
  mod_lt := h.fits
  r_lt i := by simp
  e_lt i := by simpa using h.prime.pos
  len_le bk := by simp
  slot_lt bk i hi := by simp at hi
  slots_wf bk := by rw [State.bank_resetOf]; rfl
  slots_in bk cell hcell := by simp [Bank.empty] at hcell
  einfo_zero _ := rfl

end Sys2Proof.Machine

namespace Sys2Proof.Config

/-! ## The reference instance (R13, R15) -/

theorem prime_pp16 : pp16.p.Prime := by
  show Nat.Prime 40961
  norm_num

/-- `12^4096` is -1 modulo 40961, which makes the order of G exactly `2^13`. -/
theorem half_power_pp16 : pp16.g ^ 2 ^ (pp16.n - 1) % pp16.p = pp16.p - 1 := by decide +kernel

/-- G to the `2^N` is the square of -1. -/
theorem full_power_pp16 : pp16.g ^ 2 ^ pp16.n % pp16.p = 1 := by
  have hsq : pp16.g ^ 2 ^ pp16.n = (pp16.g ^ 2 ^ (pp16.n - 1)) ^ 2 := by
    rw [← pow_mul, ← pow_succ, Nat.sub_add_cancel (by decide)]
  rw [hsq, Nat.pow_mod, half_power_pp16]
  decide

theorem legal_cfg16 : Legal cfg16 pp16 where
  width := by decide
  seqMax_pos := by decide
  seqMax_le := by decide
  prime := prime_pp16
  cofactor := by decide
  fits := by decide
  g_pos := by decide
  g_lt := by decide
  g_pow := full_power_pp16
  g_half := by rw [half_power_pp16]; decide
  base_fits := by decide

end Sys2Proof.Config

open Sys2Proof Sys2Proof.Machine

/-- Settles O13: the reference instance is legal, and reset puts every legal instance into a state of the invariant. -/
theorem resetStateMeetsTheInvariant : Obligations.ResetStateMeetsTheInvariant :=
  ⟨Config.legal_cfg16, fun _ _ => State.Inv.resetOf⟩

end

section
/-! PROOFS. The state of CORE (10_state.md): what a step can do, said once; that every step keeps the invariant (R26); which command
writes which register (R25 to R29); the host's read (R34) and the index into its list (R21). -/

namespace Sys2Proof

/-! ## The decoder yields well-formed commands -/

theorem fieldImm_lt (cw : CmdWord) : fieldImm cw < 65536 := (cw.extractLsb' 0 16).isLt

/-- The immediates are all that WellFormed asks of a command, and a row reads them from 16 bits (R72, R73). -/
theorem build_wellFormed {row : OpRow} (h : row ∈ opRows) (cw : CmdWord) : (row.build cw).wellFormed = true := by
  revert row
  simp [opRows, configRows, fieldRows, utilityRows, engineRows, Instr.wellFormed, immFits, fieldImm_lt]

theorem decode_wellFormed {cw : CmdWord} {i : Instr} (h : decode cw = .command i) : i.wellFormed = true := by
  unfold decode at h
  split at h
  · next row hrow =>
    cases h
    exact build_wellFormed (List.mem_of_find?_eq_some hrow) cw
  · cases h

end Sys2Proof

namespace Sys2Proof.Machine

/-! ## The banks after a fault entry (R218) -/

section
variable (s : State) (e : BitVec 3) (cw : CmdWord) (b : BankSel)

@[simp] theorem State.bank_withError : ({ s with err := e, einfo := cw } : State).bank b = s.bank b := by cases b <;> rfl
@[simp] theorem State.len_withError : ({ s with err := e, einfo := cw } : State).len b = s.len b := by cases b <;> rfl
@[simp] theorem State.seqRead_withError (k : Nat) :
    ({ s with err := e, einfo := cw } : State).seqRead b k = s.seqRead b k := by cases b <;> rfl
end

/-! ## What a command cannot change -/

section
variable {i : Instr} {s t : State} (h : exec i s = .next t)
include h

/-- No command writes the instance's constants or the prime parameters (R27). -/
theorem exec_sameInstance : SameInstance s t := by
  cases exec_form h <;> simp [SameInstance]

/-- No command touches the host's side (R21). -/
theorem exec_sameHost : SameHost s t := by
  cases exec_form h <;> simp [SameHost]

/-- MOD is written only by SETMOD (R25). -/
theorem setmod_of_exec_mod_ne (hne : t.mod ≠ s.mod) : ∃ a, i = .setmod a := by
  cases exec_form h with
  | instantiates a hi => exact ⟨a, hi⟩
  | _ => simp at hne

/-- A length is written only by SEQNEW and SETMOD (R28). -/
theorem seqnew_or_setmod_of_exec_len_ne {bk : BankSel} (hne : t.len bk ≠ s.len bk) :
    (∃ a, i = .seqnew bk a) ∨ ∃ a, i = .setmod a := by
  cases exec_form h with
  | instantiates a hi => exact .inr ⟨a, hi⟩
  | creates bk' a hi =>
    by_cases hb : bk = bk'
    · exact .inl ⟨a, hb ▸ hi⟩
    · simp [State.len_setLen_of_ne _ hb] at hne
  | spoils x bk' => exact absurd ((State.len_withError ..).trans (s.len_spoil bk' bk)) hne
  | _ => simp at hne

/-- A pending error is cleared only by CLRERR (R29). -/
theorem clrerr_of_exec_err_eq_zero (hs : s.err ≠ 0) (ht : t.err = 0) : i = .clrerr := by
  cases exec_form h with
  | clears hi => exact hi
  | raises x => exact absurd ht x.code_ne_zero
  | spoils x => exact absurd ht x.code_ne_zero
  | _ => exact absurd (by simpa using ht) hs

/-- A slot is written only by SEQNEW, SEQST and the five commands that work on a bank in place (R52). -/
theorem slot_writer_of_exec_seqRead_ne {bk : BankSel} {k : Nat} (hne : t.seqRead bk k ≠ s.seqRead bk k) :
    (∃ a, i = .seqnew bk a) ∨ (∃ a b, i = .seqst bk a b) ∨ spoiledBank i = some bk := by
  cases exec_form h with
  | creates bk' a hi =>
    by_cases hb : bk = bk'
    · exact .inl ⟨a, hb ▸ hi⟩
    · simp [State.seqRead_putSeq, hb] at hne
  | stores bk' a b hi =>
    by_cases hb : bk = bk'
    · exact .inr (.inl ⟨a, b, hb ▸ hi⟩)
    · simp [State.seqRead, State.bank_seqWrite_of_ne _ hb] at hne
  | transforms bk' xs hi =>
    by_cases hb : bk = bk'
    · exact .inr (.inr (hb ▸ hi))
    · simp [State.seqRead_putSeq, hb] at hne
  | spoils x bk' hi =>
    by_cases hb : bk = bk'
    · exact .inr (.inr (hb ▸ hi))
    · rw [State.seqRead_withError, State.seqRead_spoil, if_neg (hb ·.1)] at hne
      exact absurd rfl hne
  | _ => simp at hne

end

/-! ## Every command answers a next state (R246) -/

/-- `o` is a next state, not a stop. -/
def AnswersNext (o : Host.Outcome State Fault Refusal) : Prop := ∃ t, o = .next t

theorem answersNext_ite {c : Prop} [Decidable c] {x y : Host.Outcome State Fault Refusal} (hx : AnswersNext x)
    (hy : AnswersNext y) : AnswersNext (if c then x else y) := by
  split <;> assumption

theorem answersNext_forwardCommand (net : Nat → Nat → List Nat → List Nat) (v : Bool) (bk : BankSel) (w : Nat) (cw : CmdWord)
    (s : State) : AnswersNext (forwardCommand net v bk w cw s) := by
  rcases forwardCommand_cases (net := net) v bk w cw s with ⟨_, he⟩ | ⟨_, he⟩ <;> exact ⟨_, he⟩

theorem answersNext_inverseCommand (net : Nat → Nat → List Nat → List Nat) (v : Bool) (bk : BankSel) (w : Nat) (cw : CmdWord)
    (s : State) : AnswersNext (inverseCommand net v bk w cw s) := by
  rcases inverseCommand_cases (net := net) v bk w cw s with ⟨_, _, _, he⟩ | ⟨_, he⟩ <;> exact ⟨_, he⟩

/-- A command ends with a result, passes or fails its tests, or is a transform. -/
theorem exec_answersNext (i : Instr) (s : State) : AnswersNext (exec i s) := by
  cases i with
  | ldi | ldis | getmod | clrerr | fromint | toint | add | sub | neg | mul | pow | eq | ne | is2pow | seqlen => exact ⟨_, rfl⟩
  | setmod | inv | invC | ceillg | seqnew | seqld | seqst | bfly | permute => exact answersNext_ite ⟨_, rfl⟩ ⟨_, rfl⟩
  | root | div | bitrev => exact answersNext_ite ⟨_, rfl⟩ (answersNext_ite ⟨_, rfl⟩ ⟨_, rfl⟩)
  | rdpp d sel =>
    simp only [exec, execRdpp]
    split <;> exact ⟨_, rfl⟩
  | check bk a =>
    simp only [exec, execCheck]
    split <;> exact ⟨_, rfl⟩
  | ntta | nttb => exact answersNext_forwardCommand _ _ _ _ _ _
  | intta | inttb => exact answersNext_inverseCommand _ _ _ _ _ _

/-! ## What a step can do -/

/-- The forms of the next state of a step: the request that was served, and for an Issue its verdict (R217). -/
inductive StepForm (s : State) : State → Prop where
  /-- No request (R231). -/
  | idle (hq : s.request = none) : StepForm s s
  /-- HostRead. -/
  | reads (sel : Fin 10) : StepForm s (hostRead s sel)
  /-- Reset. -/
  | resets : StepForm s (hostReset s)
  /-- A word discarded in the blocked state. -/
  | discards : StepForm s (s.answer .blocked)
  /-- A word that is no command. -/
  | refuses (cw : CmdWord) : StepForm s (({ s with err := ErrorKind.illegalCommand.code, einfo := cw } : State).answer (.fault 5))
  /-- A command executed. -/
  | executes (i : Instr) (u : State) (hi : i.wellFormed = true) (hu : exec i s = .next u) :
    StepForm s (u.answer (issueResponse u))

theorem step_of_request_read {s : State} {sel : Fin 10} (h : s.request = some (.read sel)) :
    step s = .next (hostRead s sel) := by
  simp [step, h]

/-- The decoder yields the command that is executed. -/
theorem decode_of_issueVerdict_execute {s : State} {cw : CmdWord} {i : Instr} (h : issueVerdict s cw = .execute i) :
    decode cw = .command i := by
  unfold issueVerdict at h
  split at h
  · next hd =>
    split at h
    · cases h
    · cases h; exact hd
  · split at h <;> cases h

/-- Every step answers a next state (R246), of one of the forms. -/
theorem step_form (s : State) : ∃ t, step s = .next t ∧ StepForm s t := by
  unfold step
  split
  · next hq => exact ⟨_, rfl, .idle hq⟩
  · exact ⟨_, rfl, .reads _⟩
  · exact ⟨_, rfl, .resets⟩
  · next cw _ =>
    split
    · exact ⟨_, rfl, .discards⟩
    · exact ⟨_, rfl, .refuses cw⟩
    · next i hv =>
      obtain ⟨u, hu⟩ := exec_answersNext i s
      exact ⟨_, by rw [hu]; rfl, .executes i u (decode_wellFormed (decode_of_issueVerdict_execute hv)) hu⟩

theorem stepForm_of_step {s t : State} (h : step s = .next t) : StepForm s t := by
  obtain ⟨u, hu, hf⟩ := step_form s
  cases hu.symm.trans h
  exact hf

/-! ## Every update keeps the invariant -/

theorem State.drawnW_lt (s : State) : s.drawnW < 2 ^ s.cfg.w := Nat.mod_lt _ (by positivity)

section
variable {s t : State} (h : s.Inv)
include h

/-- A state with the same instance, modulus, registers and banks meets the invariant. -/
theorem State.Inv.of_same_values (hi : SameInstance s t) (hm : t.mod = s.mod) (hr : SameR s t) (he : SameE s t)
    (hb : ∀ b, t.bank b = s.bank b) (hz : t.err = 0 → t.einfo = 0) : t.Inv :=
  h.of_same_banks hi hm (fun i => hr i ▸ h.r_lt i) (fun i => he i ▸ h.e_lt i) hb hz

theorem State.Inv.setR (d : RegNo) {v : Nat} (hv : v < 2 ^ s.cfg.w) : (s.setR d v).Inv := by
  refine h.of_same_banks ⟨rfl, rfl⟩ rfl (fun i => ?_) h.e_lt (by simp) h.einfo_zero
  rw [s.getR_setR]
  split
  · exact hv
  · exact h.r_lt i

theorem State.Inv.setE (d : RegNo) {v : Nat} (hv : v < s.mod) : (s.setE d v).Inv := by
  refine h.of_same_banks ⟨rfl, rfl⟩ rfl h.r_lt (fun i => ?_) (by simp) h.einfo_zero
  rw [s.getE_setE]
  split
  · exact hv
  · exact h.e_lt i

theorem State.Inv.useDraws (n : Nat) : (s.useDraws n).Inv :=
  h.of_same_values ⟨rfl, rfl⟩ rfl (fun _ => rfl) (fun _ => rfl) (by simp) h.einfo_zero

theorem State.Inv.answer (a : Response) : (s.answer a).Inv :=
  h.of_same_values ⟨rfl, rfl⟩ rfl (fun _ => rfl) (fun _ => rfl) (by simp) h.einfo_zero

theorem State.Inv.clearError : s.clearError.Inv :=
  h.of_same_values ⟨rfl, rfl⟩ rfl (fun _ => rfl) (fun _ => rfl) (by simp) fun _ => rfl

/-- The fault entry leaves ERR nonzero, so that EINFO may be any word (R30). -/
theorem State.Inv.raise (x : ErrorKind) (cw : CmdWord) : ({ s with err := x.code, einfo := cw } : State).Inv :=
  h.of_same_values ⟨rfl, rfl⟩ rfl (fun _ => rfl) (fun _ => rfl) (by simp) fun hx => absurd hx x.code_ne_zero

theorem State.Inv.withProg (prog : List HostReq) : ({ s with prog := prog } : State).Inv :=
  h.of_same_values ⟨rfl, rfl⟩ rfl (fun _ => rfl) (fun _ => rfl) (fun b => by cases b <;> rfl) h.einfo_zero

theorem State.Inv.drawnElem_lt (k : Nat) : s.drawnElem k < s.mod :=
  Nat.mod_lt _ (Nat.lt_of_lt_of_le Nat.two_pos h.mod_ge)

/-- A spoiled slot holds an ANY_ELEM, which is reduced (R202). -/
theorem State.Inv.spoil (bk : BankSel) : (s.spoil bk).Inv := by
  rw [State.spoil_eq]
  refine (h.putSeq bk (by simp) fun x hx => ?_).useDraws _
  obtain ⟨k, _, rfl⟩ := List.mem_map.mp hx
  exact h.drawnElem_lt k

/-- SETMOD with a legal modulus: every element register is 0 and no bank holds a sequence (R154). -/
theorem State.Inv.instantiateField {m : Nat} (hm : 2 ≤ m) (hw : m < 2 ^ s.cfg.w) : (s.instantiateField m).Inv where
  legal := h.legal
  mod_ge := hm
  mod_lt := hw
  r_lt := h.r_lt
  e_lt i := by rw [State.getE_instantiateField]; exact Nat.lt_of_lt_of_le Nat.two_pos hm
  len_le b := by simp
  slot_lt b k hk := by simp at hk
  slots_wf b := by simpa using h.slots_wf b
  slots_in b := by simpa using h.slots_in b
  einfo_zero := h.einfo_zero

/-- SEQNEW: as many zeros as the new length says (R171). -/
theorem State.Inv.newSequence (bk : BankSel) {n : Nat} (hn : n ≤ s.cfg.seqMax) :
    ((s.setLen bk n).putSeq bk (List.replicate n 0)).Inv := by
  refine h.setLen_putSeq bk hn List.length_replicate fun x hx => ?_
  rw [List.eq_of_mem_replicate hx]
  exact Nat.lt_of_lt_of_le Nat.two_pos h.mod_ge

theorem State.Inv.hostReset : (hostReset s).Inv :=
  (State.Inv.resetOf h.legal).of_same_values ⟨rfl, rfl⟩ rfl (fun _ => rfl) (fun _ => rfl) (fun b => by cases b <;> rfl)
    fun _ => rfl

/-! ## Commands, steps and runs keep the invariant -/

theorem exec_keeps_inv {i : Instr} (hw : i.wellFormed = true) (he : exec i s = .next t) : t.Inv := by
  cases exec_form he with
  | writesR d v hv => exact h.setR d (hv h hw)
  | drawsR d => exact (h.setR d s.drawnW_lt).useDraws 1
  | writesE d v hv => exact h.setE d (hv h)
  | drawsE d => exact (h.setE d (h.drawnElem_lt 0)).useDraws 1
  | writesE2 d a v u hv hu => exact (h.setE d (hv h)).setE a (hu h)
  | instantiates a hi hm => exact h.instantiateField hm (h.r_lt a)
  | clears hi => exact h.clearError
  | creates bk a hi hn => exact h.newSequence bk hn
  | stores bk a b hi hb => exact h.seqWrite bk hb (h.e_lt a)
  | transforms bk xs hi hl hx => exact h.putSeq bk hl (hx h)
  | unchanged => exact h
  | raises x hi => exact h.raise x _
  | spoils x bk hi => exact (h.spoil bk).raise x _

theorem step_keeps_inv (hs : step s = .next t) : t.Inv := by
  cases stepForm_of_step hs with
  | idle => exact h
  | reads sel => exact h.answer _
  | resets => exact h.hostReset
  | discards => exact h.answer _
  | refuses cw => exact (h.raise _ cw).answer _
  | executes i u hi hu => exact (exec_keeps_inv h hi hu).answer _

end

theorem run_succ_of_step {s u : State} (k : Nat) (h : step s = .next u) :
    Sys2Proof.core.run (k + 1) s = Sys2Proof.core.run k u := by
  have hc : Sys2Proof.core.step s = .next u := h
  simp only [Host.Core.run, hc]

/-- A run from a state of the invariant answers a state of the invariant, after any number of steps. -/
theorem run_keeps_inv : ∀ (k : Nat) {s : State}, s.Inv → ∃ t : State, Sys2Proof.core.run k s = .next t ∧ t.Inv
  | 0, s, h => ⟨s, rfl, h⟩
  | k + 1, s, h => by
    obtain ⟨u, hu, _⟩ := step_form s
    obtain ⟨t, ht, hI⟩ := run_keeps_inv k (step_keeps_inv h hu)
    exact ⟨t, (run_succ_of_step k hu).trans ht, hI⟩

/-! ## The index into the host's list (R21) -/

theorem StepForm.pos_prog {s t : State} {q : HostReq} (h : StepForm s t) (hq : s.request = some q) :
    t.pos = s.pos + 1 ∧ t.prog = s.prog := by
  cases h with
  | idle hn => rw [hn] at hq; cases hq
  | reads | resets | discards | refuses => exact ⟨rfl, rfl⟩
  | executes i u _ hu =>
    obtain ⟨hprog, hpos, _⟩ := exec_sameHost hu
    exact ⟨congrArg (· + 1) hpos, hprog⟩

/-! ## HostRead (R34) -/

theorem hostReadValue_reg {sel : Fin 10} {i : RegNo} (s : State) (h : sel.val = i.val) : hostReadValue s sel = s.getR i := by
  simp [hostReadValue, h]

theorem hostReadValue_err (s : State) : hostReadValue s 8 = s.errReg.toNat := rfl

theorem hostReadValue_einfo (s : State) : hostReadValue s 9 = s.einfo.toNat := rfl

end Sys2Proof.Machine

open Sys2Proof Sys2Proof.Machine

/-- Settles O14, by the forms of a step and, for a command, the forms of its next state. -/
theorem everyStepKeepsTheInvariant : Obligations.EveryStepKeepsTheInvariant :=
  fun _ _ => step_keeps_inv

/-- Settles O15: the invariant holds at reset, and every step answers a next state and keeps it. -/
theorem elementsAreReducedInEveryRun : Obligations.ElementsAreReducedInEveryRun := by
  intro c pp prog k hl
  obtain ⟨t, ht, hI⟩ := run_keeps_inv k ((State.Inv.resetOf hl).withProg prog)
  exact ⟨t, ht, hI.e_lt, hI.slot_lt⟩

/-- Settles O19, register by register over the forms of a command's next state. -/
theorem registersAreWrittenOnlyByTheirCommands : Obligations.RegistersAreWrittenOnlyByTheirCommands :=
  fun _ _ _ h => ⟨exec_sameInstance h, setmod_of_exec_mod_ne h, fun _ => seqnew_or_setmod_of_exec_len_ne h,
    clrerr_of_exec_err_eq_zero h, fun _ _ _ => slot_writer_of_exec_seqRead_ne h⟩

/-- Settles O8: the step is HostRead, whose answer is the selected register. -/
theorem hostReadReturnsTheSelectedRegister : Obligations.HostReadReturnsTheSelectedRegister := by
  intro s sel hq
  refine ⟨hostReadValue s sel, s.pos + 1, step_of_request_read hq, fun i hi => hostReadValue_reg s hi, ?_, ?_⟩
  · rintro rfl; exact hostReadValue_err s
  · rintro rfl; exact hostReadValue_einfo s

/-- Settles O11, by the forms of a step: all but the idle one advance the index, and no command touches the host's side. -/
theorem indexAdvancesByOneWhateverTheResponse : Obligations.IndexAdvancesByOneWhateverTheResponse := by
  refine ⟨rfl, fun s t q hq hs => (stepForm_of_step hs).pos_prog hq, fun i s t he => ?_⟩
  obtain ⟨hprog, hpos, _⟩ := exec_sameHost he
  exact ⟨hpos, hprog⟩

end

section
/-! PROOFS. The sequence banks (20_memory.md): a command that names a bank neither reads nor writes the other one (R59). -/

namespace Sys2Proof.Machine

/-! ## With other contents in the bank that is not named

Each accessor and each update of bank `bk` after the contents and length of the other bank are replaced. -/

section
variable (s : State) (bk : BankSel) (b : Bank)

@[simp] theorem State.setBank_bank : s.setBank bk (s.bank bk) = s := by cases bk <;> rfl

@[simp] theorem State.drawnElem_setBank : (s.setBank bk b).drawnElem = s.drawnElem := by cases bk <;> rfl

theorem State.setR_setBank (d : RegNo) (v : Nat) : (s.setBank bk b).setR d v = (s.setR d v).setBank bk b := by
  cases bk <;> rfl

theorem State.setE_setBank (d : RegNo) (v : Nat) : (s.setBank bk b).setE d v = (s.setE d v).setBank bk b := by
  cases bk <;> rfl

theorem State.useDraws_setBank (n : Nat) : (s.setBank bk b).useDraws n = (s.useDraws n).setBank bk b := by
  cases bk <;> rfl

@[simp] theorem State.bank_setBank_other : (s.setBank (otherBank bk) b).bank bk = s.bank bk := by cases bk <;> rfl

@[simp] theorem State.len_setBank_other : (s.setBank (otherBank bk) b).len bk = s.len bk := by simp [State.len]

@[simp] theorem State.seqRead_setBank_other (k : Nat) : (s.setBank (otherBank bk) b).seqRead bk k = s.seqRead bk k := by
  simp [State.seqRead]

@[simp] theorem State.seq_setBank_other : (s.setBank (otherBank bk) b).seq bk = s.seq bk :=
  congrArg₂ (fun f n => (List.range n).map f) (funext (s.seqRead_setBank_other bk b)) (s.len_setBank_other bk b)

@[simp] theorem inBounds_setBank_other (k : Nat) : inBounds (s.setBank (otherBank bk) b) bk k = inBounds s bk k := by
  simp [inBounds]

/-- The banks do not alias (R50). -/
theorem State.setBank_setBank_other (x : Bank) :
    (s.setBank (otherBank bk) b).setBank bk x = (s.setBank bk x).setBank (otherBank bk) b := by cases bk <;> rfl

theorem State.setLen_setBank_other (n : Nat) :
    (s.setBank (otherBank bk) b).setLen bk n = (s.setLen bk n).setBank (otherBank bk) b := by
  simp [State.setLen, State.setBank_setBank_other]

theorem State.seqWrite_setBank_other (k v : Nat) :
    (s.setBank (otherBank bk) b).seqWrite bk k v = (s.seqWrite bk k v).setBank (otherBank bk) b := by
  simp [State.seqWrite, State.setBank_setBank_other]

theorem State.putSeq_setBank_other (xs : List Nat) :
    (s.setBank (otherBank bk) b).putSeq bk xs = (s.putSeq bk xs).setBank (otherBank bk) b := by
  simp [State.putSeq, State.setBank_setBank_other]

theorem State.spoil_setBank_other : (s.setBank (otherBank bk) b).spoil bk = (s.spoil bk).setBank (otherBank bk) b := by
  simp [State.spoil_eq, State.putSeq_setBank_other, State.useDraws_setBank]

end

/-! ## An outcome with other contents in a bank -/

/-- `o` with `f` applied to its next state. -/
def mapNext (f : State → State) : Host.Outcome State Fault Refusal → Host.Outcome State Fault Refusal
  | .next t => .next (f t)
  | .fault r => .fault r
  | .refused r => .refused r

/-- The meaning `f` of a command neither reads nor writes bank `c`: with any other contents and length in `c` the outcome is
the same but for `c`, which keeps them. -/
def LeavesAlone (c : BankSel) (f : State → Host.Outcome State Fault Refusal) : Prop :=
  ∀ (s : State) (b : Bank), f (s.setBank c b) = mapNext (·.setBank c b) (f s)

section
variable (c bk : BankSel) (cw : CmdWord)

theorem leavesAlone_raise (x : ErrorKind) : LeavesAlone c (raise x cw) := by
  intro s b
  cases c <;> rfl

theorem leavesAlone_raiseSpoiled (x : ErrorKind) : LeavesAlone (otherBank bk) (raiseSpoiled x bk cw) := by
  intro s b
  rw [raiseSpoiled, State.spoil_setBank_other]
  exact leavesAlone_raise _ cw x _ b

/-! ## The commands that name a bank -/

theorem leavesAlone_execSeqnew (a : RegNo) : LeavesAlone (otherBank bk) (execSeqnew bk a) := by
  intro s b
  simp only [execSeqnew, State.setBank_cfg, State.getR_setBank]
  split_ifs
  · exact leavesAlone_raise ..
  · rw [State.setLen_setBank_other, State.putSeq_setBank_other, mapNext]

theorem leavesAlone_execSeqlen (d : RegNo) : LeavesAlone (otherBank bk) (execSeqlen bk d) := by
  intro s b
  rw [execSeqlen, execSeqlen, State.len_setBank_other, doneR, State.setR_setBank, doneR, mapNext]

theorem leavesAlone_execSeqld (d a : RegNo) : LeavesAlone (otherBank bk) (execSeqld bk d a) := by
  intro s b
  simp only [execSeqld, State.getR_setBank, inBounds_setBank_other, State.seqRead_setBank_other]
  split_ifs
  · rw [doneE, State.setE_setBank, doneE, mapNext]
  · exact leavesAlone_raise ..

theorem leavesAlone_execSeqst (a d : RegNo) : LeavesAlone (otherBank bk) (execSeqst bk a d) := by
  intro s b
  simp only [execSeqst, State.getR_setBank, State.getE_setBank, inBounds_setBank_other]
  split_ifs
  · rw [State.seqWrite_setBank_other, mapNext]
  · exact leavesAlone_raise ..

theorem leavesAlone_execPermute : LeavesAlone (otherBank bk) (execPermute bk) := by
  intro s b
  simp only [execPermute, State.len_setBank_other, State.seq_setBank_other]
  split_ifs
  · exact leavesAlone_raiseSpoiled ..
  · rw [State.putSeq_setBank_other, mapNext]

theorem leavesAlone_execCheck (a : RegNo) : LeavesAlone (otherBank bk) (execCheck bk a) := by
  intro s b
  simp only [execCheck, State.setBank_mod, State.len_setBank_other, State.getE_setBank]
  split
  · exact leavesAlone_raise ..
  · rfl

section
variable (net : Nat → Nat → List Nat → List Nat) (v : Bool) (w : Nat)

theorem leavesAlone_forwardCommand : LeavesAlone (otherBank bk) (forwardCommand net v bk w cw) := by
  intro s b
  simp only [forwardCommand, State.setBank_mod, State.len_setBank_other, State.seq_setBank_other]
  split_ifs
  · exact leavesAlone_raiseSpoiled ..
  · exact leavesAlone_raiseSpoiled ..
  · rw [State.putSeq_setBank_other, mapNext]

theorem leavesAlone_inverseCommand : LeavesAlone (otherBank bk) (inverseCommand net v bk w cw) := by
  intro s b
  simp only [inverseCommand, State.setBank_mod, State.len_setBank_other, State.seq_setBank_other]
  split_ifs
  · exact leavesAlone_raiseSpoiled ..
  · exact leavesAlone_raiseSpoiled ..
  · exact leavesAlone_raiseSpoiled ..
  · exact leavesAlone_raiseSpoiled ..
  · rw [State.putSeq_setBank_other, mapNext]

end

end

/-- A transform takes its root from an element register and everything else from the bank it names. -/
theorem leavesAlone_withRoot {c : BankSel} {f : Nat → State → Host.Outcome State Fault Refusal}
    (h : ∀ w, LeavesAlone c (f w)) (a : RegNo) : LeavesAlone c fun s => f (s.getE a) s := by
  intro s b
  simp only [State.getE_setBank]
  exact h _ s b

/-- A command that names bank `bk` leaves the other one alone (R59). -/
theorem exec_leavesAlone_other {i : Instr} {bk : BankSel} (h : namedBank i = some bk) :
    LeavesAlone (otherBank bk) (exec i) := by
  cases i with
  | seqnew c a => cases h; exact leavesAlone_execSeqnew bk a
  | seqlen c d => cases h; exact leavesAlone_execSeqlen bk d
  | seqld c d a => cases h; exact leavesAlone_execSeqld bk d a
  | seqst c a d => cases h; exact leavesAlone_execSeqst bk a d
  | permute c => cases h; exact leavesAlone_execPermute bk
  | check c a => cases h; exact leavesAlone_execCheck bk a
  | ntta v c a => cases h; exact leavesAlone_withRoot (leavesAlone_forwardCommand bk _ forwardA v) a
  | nttb v c a => cases h; exact leavesAlone_withRoot (leavesAlone_forwardCommand bk _ forwardB v) a
  | intta v c a => cases h; exact leavesAlone_withRoot (leavesAlone_inverseCommand bk _ forwardA v) a
  | inttb v c a => cases h; exact leavesAlone_withRoot (leavesAlone_inverseCommand bk _ forwardB v) a
  | _ => cases h

/-! ## From the outcome to the next state -/

section
variable {c : BankSel} {f : State → Host.Outcome State Fault Refusal} {s t : State} (hf : LeavesAlone c f) (h : f s = .next t)
include hf h

theorem LeavesAlone.next_setBank (b : Bank) : f (s.setBank c b) = .next (t.setBank c b) := by
  rw [hf, h, mapNext]

/-- Replacing the contents of `c` by those it has changes nothing, so that the next state holds them too. -/
theorem LeavesAlone.bank_eq : t.bank c = s.bank c := by
  have hself : f s = .next (t.setBank c (s.bank c)) := by simpa using hf.next_setBank h (s.bank c)
  have ht : t = t.setBank c (s.bank c) := Host.Outcome.next.inj (h.symm.trans hself)
  rw [ht, State.bank_setBank_self]

end

end Sys2Proof.Machine

open Sys2Proof Sys2Proof.Machine

/-- Settles O20: every command that names a bank leaves the other one alone, which gives both halves. -/
theorem banksDoNotInteract : Obligations.BanksDoNotInteract := by
  intro i bk s t b hn he
  have halone := exec_leavesAlone_other hn
  exact ⟨halone.bank_eq he, halone.next_setBank he b⟩

end

section
/-! PROOFS. The encoding (30_encoding.md): the rows of the opcode map are disjoint, so that decoding undoes encoding (R75, R77); a row
leaves no bit of a word unread, so that encoding undoes decoding (R80); the words no row accepts, and what Issue does with one (R78). -/

namespace Sys2Proof

/-! ## A word is accepted by at most one row (R75) -/

theorem OpRow.accepts_iff {row : OpRow} {cw : CmdWord} : row.accepts cw = true ↔ cw &&& row.mask = row.pattern := beq_iff_eq

/-- Two rows disagree on a bit that both fix. -/
theorem opRows_conflict :
    opRows.Pairwise fun x y => x.pattern &&& y.mask ≠ y.pattern &&& x.mask := by decide

theorem opRows_disjoint (cw : CmdWord) : opRows.Pairwise fun x y => ¬ (x.accepts cw = true ∧ y.accepts cw = true) := by
  refine opRows_conflict.imp fun {x y} hne ⟨hx, hy⟩ => hne ?_
  rw [← OpRow.accepts_iff.mp hx, ← OpRow.accepts_iff.mp hy, BitVec.and_assoc, BitVec.and_comm x.mask, BitVec.and_assoc]

theorem row_unique {x y : OpRow} {cw : CmdWord} (hx : x ∈ opRows) (hy : y ∈ opRows) (hax : x.accepts cw = true)
    (hay : y.accepts cw = true) : x = y := by
  have hsymm : Std.Symm fun x y : OpRow => ¬ (x.accepts cw = true ∧ y.accepts cw = true) := ⟨fun _ _ h h' => h h'.symm⟩
  by_contra hne
  exact (opRows_disjoint cw).forall hx hy hne ⟨hax, hay⟩

/-- The decoder yields what the accepting row builds, whatever the order of the rows. -/
theorem decode_eq_command_iff {cw : CmdWord} {i : Instr} :
    decode cw = .command i ↔ ∃ row ∈ opRows, row.accepts cw = true ∧ row.build cw = i := by
  unfold decode
  split
  · next row hfind =>
    have hmem := List.mem_of_find?_eq_some hfind
    have hacc := List.find?_some hfind
    constructor
    · intro h
      cases h
      exact ⟨row, hmem, hacc, rfl⟩
    · rintro ⟨row', hmem', hacc', rfl⟩
      rw [row_unique hmem hmem' hacc hacc']
  · next hnone =>
    have hno := List.find?_eq_none.mp hnone
    constructor
    · intro h; cases h
    · rintro ⟨row, hmem, hacc, -⟩
      exact absurd hacc (hno row hmem)

/-! ## A command's word is accepted by the command's row (R77) -/

open Laws.EncodeMatchesTable in
theorem encode_matches_row : ∀ i : Instr, Laws.EncodeMatchesTable.Statement i
  | .ldi d imm => ldi d imm
  | .ldis d imm => ldis d imm
  | .setmod a => setmod a
  | .getmod d => getmod d
  | .rdpp d sel => rdpp d sel
  | .root d a => root d a
  | .clrerr => clrerr
  | .fromint d a => fromint d a
  | .toint d a => toint d a
  | .add d a b => add d a b
  | .sub d a b => sub d a b
  | .neg d a => neg d a
  | .mul d a b => mul d a b
  | .div c d a b => div c d a b
  | .inv d a => inv d a
  | .invC d a => invC d a
  | .pow d a b => pow d a b
  | .eq d a b => eq d a b
  | .ne d a b => ne d a b
  | .bitrev d a b => bitrev d a b
  | .ceillg d a => ceillg d a
  | .is2pow d a => is2pow d a
  | .seqnew bk a => seqnew bk a
  | .seqlen bk d => seqlen bk d
  | .seqld bk d a => seqld bk d a
  | .seqst bk a b => seqst bk a b
  | .bfly d a b => bfly d a b
  | .permute bk => permute bk
  | .check bk a => check bk a
  | .ntta v bk a => ntta v bk a
  | .nttb v bk a => nttb v bk a
  | .intta v bk a => intta v bk a
  | .inttb v bk a => inttb v bk a

theorem decode_encode {i : Instr} (h : i.wellFormed = true) : decode (encode i) = .command i :=
  decode_eq_command_iff.mpr (encode_matches_row i h)

theorem isWordOf_of_encode {i : Instr} {cw : CmdWord} (hw : i.wellFormed = true) (he : encode i = cw) : Machine.IsWordOf cw i :=
  he ▸ decode_encode hw

/-! ## A field put back where it was read (R71, R72) -/

section
variable (cw : CmdWord)

/-- The bits `start` to `start + len - 1` of a word, taken as a number and shifted back, are the word under their mask. -/
theorem extract_shiftLeft (start len : Nat) {mask : CmdWord} (hmask : mask = (BitVec.allOnes len).setWidth 32 <<< start) :
    BitVec.ofNat 32 (cw.extractLsb' start len).toNat <<< start = cw &&& mask := by
  subst hmask
  rw [BitVec.ofNat_toNat]
  ext i hi
  simp only [BitVec.getElem_shiftLeft, BitVec.getElem_and, BitVec.getElem_setWidth, BitVec.getLsbD_extractLsb', BitVec.getLsbD_allOnes]
  by_cases h : i < start
  · simp [h]
  · have : start + (i - start) = i := by omega
    simp [h, this, BitVec.getLsbD_eq_getElem hi, Bool.and_comm]

theorem ofNat_fieldD : BitVec.ofNat 32 (fieldD cw).val <<< 21 = cw &&& 0x00E00000 := extract_shiftLeft cw 21 3 (by decide)
theorem ofNat_fieldA : BitVec.ofNat 32 (fieldA cw).val <<< 18 = cw &&& 0x001C0000 := extract_shiftLeft cw 18 3 (by decide)
theorem ofNat_fieldB : BitVec.ofNat 32 (fieldB cw).val <<< 15 = cw &&& 0x00038000 := extract_shiftLeft cw 15 3 (by decide)
theorem ofNat_fieldImm : BitVec.ofNat 32 (fieldImm cw) = cw &&& 0x0000FFFF := by
  rw [← extract_shiftLeft cw 0 16 (by decide), BitVec.shiftLeft_zero]
  rfl

theorem toNat_extract_one (k : Nat) : (cw.extractLsb' k 1).toNat = flagBit (cw.getLsbD k) := by
  rw [BitVec.extractLsb'_toNat, Nat.shiftRight_eq_div_pow, pow_one, ← Nat.toNat_testBit, BitVec.testBit_toNat]
  cases cw.getLsbD k <;> rfl

theorem ofNat_fieldF : BitVec.ofNat 32 (flagBit (fieldF cw)) <<< 25 = cw &&& 0x02000000 := by
  rw [← extract_shiftLeft cw 25 1 (by decide), toNat_extract_one, fieldF]

theorem ofNat_fieldBk : BitVec.ofNat 32 (bankBit (fieldBk cw)) <<< 24 = cw &&& 0x01000000 := by
  rw [← extract_shiftLeft cw 24 1 (by decide), toNat_extract_one, fieldBk]
  cases cw.getLsbD 24 <;> rfl

end

/-! ## A word is the encoding of what it decodes to (R80) -/

/-- Encoding what a row has read puts every bit outside the row's mask back: the fields a row reads are the bits it does not fix. -/
theorem encode_build {row : OpRow} (h : row ∈ opRows) (cw : CmdWord) :
    encode (row.build cw) = row.pattern ||| cw &&& ~~~row.mask := by
  revert row
  simp [opRows, configRows, fieldRows, utilityRows, engineRows, encode, encodeR, encodeI, ofNat_fieldD, ofNat_fieldA, ofNat_fieldB,
    ofNat_fieldImm, ofNat_fieldF, ofNat_fieldBk, BitVec.or_assoc, ← BitVec.and_or_distrib_left]

/-- The bits under the mask are the pattern, since the row accepts the word; the others are put back. -/
theorem encode_of_decode {cw : CmdWord} {i : Instr} (h : decode cw = .command i) : encode i = cw := by
  obtain ⟨row, hmem, hacc, rfl⟩ := decode_eq_command_iff.mp h
  rw [encode_build hmem, ← OpRow.accepts_iff.mp hacc, ← BitVec.and_or_distrib_left, BitVec.or_not_self, BitVec.and_allOnes]

/-! ## The words that decode (R78) -/

theorem decodes_iff_accepted {cw : CmdWord} : (∃ i, decode cw = .command i) ↔ ∃ row ∈ opRows, row.accepts cw = true := by
  simp only [decode_eq_command_iff]
  exact ⟨fun ⟨_, row, hmem, hacc, _⟩ => ⟨row, hmem, hacc⟩, fun ⟨row, hmem, hacc⟩ => ⟨_, row, hmem, hacc, rfl⟩⟩

theorem decode_ne_command_iff {cw : CmdWord} : (∀ i, decode cw ≠ .command i) ↔ ∃ why, decode cw = .illegal why := by
  cases decode cw <;> simp

/-- The bits of the opcode (R71). -/
def opcodeBits : CmdWord := 0xFC000000

/-- The word with opcode `op` and nothing else. -/
def opcodeWord (op : Nat) : CmdWord := BitVec.ofNat 32 op <<< 26

/-- The bits outside the opcode and the used fields `u.2` of opcode `u.1`. -/
def zeroBits (u : Nat × CmdWord) : CmdWord := ~~~(opcodeBits ||| u.2)

/-- The word has opcode `u.1` and no bit outside the opcode and the used fields `u.2`. -/
def FitsFields (u : Nat × CmdWord) (cw : CmdWord) : Prop := cw.toNat / 2 ^ 26 = u.1 ∧ cw &&& zeroBits u = 0

theorem and_opcodeBits (cw : CmdWord) : cw &&& opcodeBits = opcodeWord (cw.toNat / 2 ^ 26) := by
  have hlt : cw.toNat / 2 ^ 26 < 2 ^ 6 := Nat.div_lt_of_lt_mul cw.isLt
  rw [← extract_shiftLeft cw 26 6 (by decide), BitVec.extractLsb'_toNat, Nat.shiftRight_eq_div_pow, Nat.mod_eq_of_lt hlt, opcodeWord]

theorem toNat_opcodeWord {op : Nat} (hop : op < 64) : (opcodeWord op).toNat = op * 2 ^ 26 := by
  simp only [opcodeWord, BitVec.toNat_shiftLeft, BitVec.toNat_ofNat, Nat.shiftLeft_eq]
  omega

theorem opcode_eq_iff {op : Nat} (hop : op < 64) (cw : CmdWord) :
    cw.toNat / 2 ^ 26 = op ↔ cw &&& opcodeBits = opcodeWord op := by
  have hlt : cw.toNat / 2 ^ 26 < 64 := Nat.div_lt_of_lt_mul cw.isLt
  rw [and_opcodeBits, ← BitVec.toNat_inj, toNat_opcodeWord hlt, toNat_opcodeWord hop, Nat.mul_left_inj (by decide)]

/-- What the bits under `k` are decides the bits under every part of `k`. -/
theorem and_of_and_eq {cw k v m : CmdWord} (h : cw &&& k = v) (hm : m &&& k = m) : cw &&& m = v &&& m := by
  rw [← h, BitVec.and_assoc, BitVec.and_comm k, hm]

/-- Every row fixes its opcode, and fixes as 0 the bits its opcode does not use. -/
theorem row_fixes_opcode_and_zeroBits : ∀ row ∈ opRows, ∃ u ∈ usedFields, u.1 < 64 ∧
    (opcodeBits &&& row.mask = opcodeBits ∧ row.pattern &&& opcodeBits = opcodeWord u.1) ∧
    (zeroBits u &&& row.mask = zeroBits u ∧ row.pattern &&& zeroBits u = 0) := by decide

/-- Every assigned opcode has a row that fixes, beside opcode and unused bits, at most a used flag, for either value `f` of it
(opcode 0x17 has a row for each). -/
theorem row_of_opcode_and_flag : ∀ u ∈ usedFields, u.1 < 64 ∧ ∀ f : Bool, ∃ row ∈ opRows,
    row.mask &&& (opcodeBits ||| zeroBits u ||| (0x02000000 : CmdWord) &&& u.2) = row.mask ∧
    (opcodeWord u.1 ||| BitVec.ofNat 32 (flagBit f) <<< 25 &&& u.2) &&& row.mask = row.pattern := by decide

theorem decodes_iff_fitsFields {cw : CmdWord} : (∃ i, decode cw = .command i) ↔ ∃ u ∈ usedFields, FitsFields u cw := by
  rw [decodes_iff_accepted]
  constructor
  · rintro ⟨row, hmem, hacc⟩
    obtain ⟨u, hu, hop, ⟨hopMask, hopPat⟩, hzeroMask, hzeroPat⟩ := row_fixes_opcode_and_zeroBits row hmem
    have hcw := OpRow.accepts_iff.mp hacc
    exact ⟨u, hu, (opcode_eq_iff hop cw).mpr ((and_of_and_eq hcw hopMask).trans hopPat),
      (and_of_and_eq hcw hzeroMask).trans hzeroPat⟩
  · rintro ⟨u, hu, hopcode, hzero⟩
    obtain ⟨hop, hrow⟩ := row_of_opcode_and_flag u hu
    obtain ⟨row, hmem, hmask, hpat⟩ := hrow (fieldF cw)
    refine ⟨row, hmem, OpRow.accepts_iff.mpr ((and_of_and_eq ?_ hmask).trans hpat)⟩
    rw [BitVec.and_or_distrib_left, BitVec.and_or_distrib_left, ← BitVec.and_assoc, (opcode_eq_iff hop cw).mp hopcode,
      show cw &&& zeroBits u = 0#32 from hzero, BitVec.or_zero, ofNat_fieldF]

theorem illegal_iff {cw : CmdWord} : (∀ i, decode cw ≠ .command i) ↔
    ∀ u ∈ usedFields, cw.toNat / 2 ^ 26 = u.1 → cw &&& ~~~(0xFC000000 ||| u.2) ≠ 0 := by
  rw [← not_exists, decodes_iff_fitsFields]
  simp only [not_exists, not_and, FitsFields, zeroBits, opcodeBits]

end Sys2Proof

namespace Sys2Proof.Machine

/-! ## Issue of an illegal word (R78, R217) -/

variable {s : State} {cw : CmdWord}

theorem issueVerdict_illegal (herr : s.err = 0) (hill : ∀ i, decode cw ≠ .command i) : issueVerdict s cw = .illegal := by
  obtain ⟨why, hwhy⟩ := decode_ne_command_iff.mp hill
  simp [issueVerdict, hwhy, State.blocked, herr]

/-- The fault entry is taken for the word, and the answer is recorded. -/
theorem step_of_illegal (hq : s.request = some (.issue cw)) (herr : s.err = 0) (hill : ∀ i, decode cw ≠ .command i) :
    ∃ u, OnlyRaised .illegalCommand cw s u ∧ step s = .next (u.answer (issueResponse u)) := by
  obtain ⟨u, hu, honly⟩ := raise_spec .illegalCommand cw s
  refine ⟨u, honly, ?_⟩
  simp [step, hq, issueVerdict_illegal herr hill, hu, completeIssue]

/-- ERR nonzero is answered with its code (R217). -/
theorem issueResponse_of_err_ne_zero (h : s.err ≠ 0) : issueResponse s = .fault s.err := if_neg h

end Sys2Proof.Machine

open Sys2Proof Sys2Proof.Machine

/-- Settles O1: the command's own row accepts its word and reads every field back, and no other row accepts the word. -/
theorem decodeReturnsTheEncodedCommand : Obligations.DecodeReturnsTheEncodedCommand :=
  fun _ => decode_encode

/-- Settles O2: a row yields well-formed commands, and the fields it reads are the bits it does not fix. -/
theorem decodedWordIsTheEncodingOfItsCommand : Obligations.DecodedWordIsTheEncodingOfItsCommand :=
  fun _ _ h => ⟨decode_wellFormed h, encode_of_decode h⟩

/-- Settles O3: the rows are the assigned opcodes with their used fields, and Issue takes the fault entry for every other word. -/
theorem illegalWordsRaiseIllegalCommand : Obligations.IllegalWordsRaiseIllegalCommand := by
  refine ⟨fun cw => illegal_iff, fun s cw hq herr hill => ?_, decode_ne_command_iff.mpr ⟨.unassignedOpcode, by decide⟩,
    decode_ne_command_iff.mpr ⟨.unassignedOpcode, by decide⟩⟩
  obtain ⟨u, ⟨hcode, hinfo, hinst, hr, he, hmod, hbanks, -⟩, hstep⟩ := step_of_illegal hq herr hill
  have hresp : issueResponse u = .fault 5 := by
    rw [issueResponse_of_err_ne_zero (hcode ▸ ErrorKind.code_ne_zero _), hcode]
    rfl
  refine ⟨_, hstep, hcode, hinfo, hinst, hr, he, hmod, fun b => ?_, hresp⟩
  simpa [SameBank] using hbanks b

/-- Settles O4: each word is the encoding of its command, which decoding gives back. -/
theorem wordsOfTheSpecDecode : Obligations.WordsOfTheSpecDecode := by
  refine ⟨?_, ?_, ?_, ?_, ?_, ?_, ?_, ?_, ?_, ?_⟩ <;> exact isWordOf_of_encode (by decide) (by decide)

end

section
/-! PROOFS. The numeric utilities (40_numeric_utilities.md): the word of a format R command as the sum of its fields (R71, R77); the ways
each command ends; the value delivered, by the laws of `bitReverse`, `ceilLg` and `is2pow`. -/

namespace Sys2Proof

/-! ## A format R word as the sum of its fields (R71, R77) -/

theorem ofNat_shiftLeft (x j : Nat) : BitVec.ofNat 32 x <<< j = BitVec.ofNat 32 (x * 2 ^ j) := by
  apply BitVec.eq_of_toNat_eq
  simp [Nat.shiftLeft_eq]

/-- A field below `2^k` put beside a multiple of `2^k` is added to it. -/
theorem ofNat_or_shiftLeft (k : Nat) {h x j : Nat} (hh : 2 ^ k ∣ h) (hx : x * 2 ^ j < 2 ^ k) :
    BitVec.ofNat 32 h ||| BitVec.ofNat 32 x <<< j = BitVec.ofNat 32 (h + x * 2 ^ j) := by
  obtain ⟨c, rfl⟩ := hh
  rw [Nat.two_pow_add_eq_or_of_lt hx, BitVec.ofNat_or, ofNat_shiftLeft]

/-- The fields of format R do not overlap, each starting where the one below it ends. -/
theorem encodeR_eq_wordR (op : Nat) {f bk : Nat} (hf : f < 2) (hbk : bk < 2) (d a b : RegNo) :
    encodeR op f bk d a b = Machine.wordR op f bk d a b := by
  rw [encodeR, ofNat_shiftLeft op, ofNat_or_shiftLeft 26, ofNat_or_shiftLeft 25, ofNat_or_shiftLeft 24, ofNat_or_shiftLeft 21,
    ofNat_or_shiftLeft 18, Machine.wordR] <;> omega

end Sys2Proof

namespace Sys2Proof.Machine

/-- A command encoded in format R is what the word with its field values decodes to. -/
theorem isWordOf_wordR {i : Instr} {op f bk : Nat} {d a b : RegNo} (hw : i.wellFormed = true) (hi : encode i = encodeR op f bk d a b)
    (hf : f < 2) (hbk : bk < 2) : IsWordOf (wordR op f bk d a b) i :=
  isWordOf_of_encode hw (hi.trans (encodeR_eq_wordR op hf hbk d a b))

/-! ## The ways each command ends (R102, R104) -/

section
variable {s : State} (d : RegNo) {a b : RegNo}

theorem exec_bitrev_of_gt (h : s.cfg.w < s.getR b) :
    exec (.bitrev d a b) s = raise .illegalOperand (encode (.bitrev d a b)) s := if_pos h

theorem exec_bitrev_of_ge (hb : s.getR b ≤ s.cfg.w) (ha : 2 ^ s.getR b ≤ s.getR a) : exec (.bitrev d a b) s = doneAnyW d s :=
  (if_neg hb.not_gt).trans (if_pos ha)

theorem exec_bitrev_of_lt (hb : s.getR b ≤ s.cfg.w) (ha : s.getR a < 2 ^ s.getR b) :
    exec (.bitrev d a b) s = doneR d (bitReverse (s.getR a) (s.getR b)) s :=
  (if_neg hb.not_gt).trans (if_neg ha.not_ge)

theorem exec_ceillg_of_eq_zero (h : s.getR a = 0) :
    exec (.ceillg d a) s = raise .illegalOperand (encode (.ceillg d a)) s := if_pos h

theorem exec_ceillg_of_ne_zero (h : s.getR a ≠ 0) : exec (.ceillg d a) s = doneR d (ceilLg (s.getR a)) s := if_neg h

end

/-! ## The values delivered -/

/-- Bit `i` of the operand is bit `nb-1-i` of the result (R101). -/
theorem testBit_bitReverse_mirror {nb i : Nat} (v : Nat) (hi : i < nb) : (bitReverse v nb).testBit (nb - 1 - i) = v.testBit i := by
  rw [testBit_bitReverse, Nat.sub_sub_self (by omega), decide_eq_true (by omega), Bool.true_and]

theorem le_two_pow_ceilLg {n : Nat} (hn : n ≠ 0) : n ≤ 2 ^ ceilLg n := (ceilLg_le_iff hn _).mp le_rfl

theorem boolVal_is2pow_of_powerOfTwo {n : Nat} (h : PowerOfTwo n) : boolVal (is2pow n) = 1 := by
  rw [(is2pow_iff n).mpr h]
  rfl

theorem boolVal_is2pow_of_not_powerOfTwo {n : Nat} (h : ¬ PowerOfTwo n) : boolVal (is2pow n) = 0 := by
  rw [(is2pow_eq_false_iff n).mpr h]
  rfl

end Sys2Proof.Machine

open Sys2Proof Sys2Proof.Machine

/-- Settles O36, by the three ways BITREV ends. -/
theorem bitrevReversesTheLowBits : Obligations.BitrevReversesTheLowBits := by
  intro s d a b
  refine ⟨isWordOf_wordR rfl rfl (by decide) (by decide), fun hgt => ?_, fun hb ha => ?_, fun hb ha => ?_⟩
  · rw [RaisesAndChangesNothing, exec_bitrev_of_gt d hgt]
    exact raise_spec _ _ s
  · obtain ⟨t, ht, hv, honly⟩ := doneR_spec s d (bitReverse (s.getR a) (s.getR b))
    rw [exec_bitrev_of_lt d hb ha]
    exact ⟨t, ht, hv ▸ bitReverse_lt _ _, fun i hi => hv ▸ testBit_bitReverse_mirror _ hi, honly⟩
  · rw [exec_bitrev_of_ge d hb ha]
    exact doneAnyW_spec s d

/-- Settles O37: the first result is in the domain of the second reversal, whose bit count `r[b]` the first has not written. -/
theorem bitrevTwiceRestoresTheValue : Obligations.BitrevTwiceRestoresTheValue := by
  intro s d a b k hdb hb ha
  obtain ⟨t, ht, hv, ⟨hcfg, -⟩, hregs, -⟩ := doneR_spec s d (bitReverse (s.getR a) (s.getR b))
  have hcount : t.getR b = s.getR b := hregs b hdb.symm
  have hb' : t.getR b ≤ t.cfg.w := by rwa [hcount, hcfg]
  have ha' : t.getR d < 2 ^ t.getR b := by rw [hcount, hv]; exact bitReverse_lt _ _
  obtain ⟨u, hu, hv', -⟩ := doneR_spec t k (bitReverse (t.getR d) (t.getR b))
  refine ⟨t, u, (exec_bitrev_of_lt d hb ha).trans ht, (exec_bitrev_of_lt k hb' ha').trans hu, ?_⟩
  rw [hv', hcount, hv, bitReverse_bitReverse ha]

/-- Settles O38, by the two ways CEILLG ends: `ceilLg` is below exactly the exponents that reach its operand. -/
theorem ceillgIsTheLeastExponent : Obligations.CeillgIsTheLeastExponent := by
  intro s d a
  refine ⟨isWordOf_wordR (b := 0) rfl rfl (by decide) (by decide), fun h0 => ?_, fun hne => ?_⟩
  · rw [RaisesAndChangesNothing, exec_ceillg_of_eq_zero d h0]
    exact raise_spec _ _ s
  · obtain ⟨t, ht, hv, honly⟩ := doneR_spec s d (ceilLg (s.getR a))
    rw [exec_ceillg_of_ne_zero d hne]
    exact ⟨t, ht, hv ▸ le_two_pow_ceilLg hne, fun k hk => hv ▸ (ceilLg_le_iff hne k).mpr hk, honly⟩

/-- Settles O39: IS2POW always delivers its test, which holds of the powers of two alone. -/
theorem isTwoPowerTestsForOneSetBit : Obligations.IsTwoPowerTestsForOneSetBit := by
  intro s d a
  obtain ⟨t, ht, hv, honly⟩ := doneR_spec s d (boolVal (is2pow (s.getR a)))
  exact ⟨isWordOf_wordR (b := 0) rfl rfl (by decide) (by decide), t, ht, fun h => hv ▸ boolVal_is2pow_of_powerOfTwo h,
    fun h => hv ▸ boolVal_is2pow_of_not_powerOfTwo h, honly⟩

end

section
/-! PROOFS. Finite-field arithmetic (41_field_arithmetic.md): the exact values of addition, subtraction and negation; that an inverse is
mutual; the ways INV, INV.C and DIV end. -/

namespace Sys2Proof.Machine

/-! ## The functions as one conditional subtraction (R120, R122, R124) -/

section
variable {m a b : Nat} (ha : a < m)
include ha

theorem fadd_eq_ite (hb : b < m) : fadd m a b = if a + b < m then a + b else a + b - m := by
  rw [fadd]
  split
  · next h => exact Nat.mod_eq_of_lt h
  · next h => rw [Nat.mod_eq_sub_mod (by omega), Nat.mod_eq_of_lt (by omega)]

theorem fsub_eq_ite (hb : b < m) : fsub m a b = if b ≤ a then a - b else a + m - b := by
  rw [fsub]
  split
  · next h => rw [Nat.sub_add_comm h, Nat.add_mod_right, Nat.mod_eq_of_lt (by omega)]
  · next h => exact Nat.mod_eq_of_lt (by omega)

/-- The negative is the additive inverse (R124). -/
theorem add_fneg_mod : (a + fneg m a) % m = 0 := by
  rw [fneg]
  split
  · next h => rw [h, Nat.add_zero, Nat.zero_mod]
  · rw [Nat.add_sub_of_le ha.le, Nat.mod_self]

/-- An element is the inverse of its inverse (R130). -/
theorem IsInverse.symm {v : Nat} (h : IsInverse m a v) : IsInverse m v a :=
  ⟨ha, Nat.mul_comm a v ▸ h.2⟩

end

/-! ## The ways the inverting commands end (R134, R135, R137) -/

theorem State.Inv.mod_pos {s : State} (h : s.Inv) : 0 < s.mod := Nat.lt_of_lt_of_le Nat.two_pos h.mod_ge

theorem flagNo_lt (c : Bool) : flagNo c < 2 := by cases c <;> decide

/- `x` is the register of the element to invert, `a` that of a dividend. -/
section
variable {s : State} (h : s.Inv) (d : RegNo) {x : RegNo}
include h

section
variable (hg : Nat.gcd (s.getE x) s.mod = 1)
include hg

theorem exec_invC_of_coprime : exec (.invC d x) s = doneE d (finv s.mod (s.getE x)) s :=
  if_pos ((invertible_iff (h.e_lt x)).mpr hg)

/-- Checked or not, an invertible element is inverted (R135). -/
theorem exec_inv_of_coprime : exec (.inv d x) s = exec (.invC d x) s :=
  (if_pos ((invertible_iff (h.e_lt x)).mpr hg)).trans (exec_invC_of_coprime h d hg).symm

theorem exec_div_of_coprime (c : Bool) (a : RegNo) :
    exec (.div c d a x) s = doneE d (fmul s.mod (s.getE a) (finv s.mod (s.getE x))) s :=
  if_pos ((invertible_iff (h.e_lt x)).mpr hg)

/-- INV.C delivers the inverse where there is one. -/
theorem exec_invC_spec : ∃ t, exec (.invC d x) s = .next t ∧ IsInverse s.mod (s.getE x) (t.getE d) ∧ OnlyE d s t := by
  obtain ⟨t, ht, hv, honly⟩ := doneE_spec s d (finv s.mod (s.getE x))
  exact ⟨t, (exec_invC_of_coprime h d hg).trans ht, hv ▸ isInverse_finv (h.e_lt x) hg, honly⟩

end

section
variable (hg : Nat.gcd (s.getE x) s.mod ≠ 1)
include hg

theorem exec_invC_of_not_coprime : exec (.invC d x) s = raise .nonInvertible (encode (.invC d x)) s :=
  if_neg (mt (invertible_iff (h.e_lt x)).mp hg)

theorem exec_inv_of_not_coprime : exec (.inv d x) s = doneAnyElem d s :=
  if_neg (mt (invertible_iff (h.e_lt x)).mp hg)

/-- The flag decides between the fault and a free value (R137). -/
theorem exec_div_of_not_coprime (c : Bool) (a : RegNo) :
    exec (.div c d a x) s = if c then raise .nonInvertible (encode (.div c d a x)) s else doneAnyElem d s :=
  if_neg (mt (invertible_iff (h.e_lt x)).mp hg)

end

end

/-! ## The tests (R140, R141) -/

theorem boolVal_beq (x y : Nat) : boolVal (x == y) = if x = y then 1 else 0 := by
  simp [boolVal]

theorem boolVal_bne (x y : Nat) : boolVal (x != y) = if x = y then 0 else 1 := by
  by_cases hxy : x = y <;> simp [boolVal, hxy]

end Sys2Proof.Machine

open Sys2Proof Sys2Proof.Machine

/-- Settles O28: both commands deliver one value in every state. -/
theorem fromintReducesAndTointCopies : Obligations.FromintReducesAndTointCopies := fun s d a =>
  ⟨isWordOf_wordR (b := 0) rfl rfl (by decide) (by decide), isWordOf_wordR (b := 0) rfl rfl (by decide) (by decide),
    doneE_spec s d (fromInteger s.mod (s.getR a)), doneR_spec s d (s.getE a)⟩

/-- Settles O29: sum and difference of reduced elements lie within one modulus of the reduced range. -/
theorem addSubNegAreExactModulo : Obligations.AddSubNegAreExactModulo := by
  intro s d a b h
  have ha := h.e_lt a
  have hb := h.e_lt b
  refine ⟨isWordOf_wordR rfl rfl (by decide) (by decide), isWordOf_wordR rfl rfl (by decide) (by decide),
    isWordOf_wordR (b := 0) rfl rfl (by decide) (by decide), ?_, ?_, ?_⟩
  · obtain ⟨t, ht, hv, honly⟩ := doneE_spec s d (fadd s.mod (s.getE a) (s.getE b))
    exact ⟨t, ht, honly, hv.trans (fadd_eq_ite ha hb)⟩
  · obtain ⟨t, ht, hv, honly⟩ := doneE_spec s d (fsub s.mod (s.getE a) (s.getE b))
    exact ⟨t, ht, honly, hv.trans (fsub_eq_ite ha hb)⟩
  · obtain ⟨t, ht, hv, honly⟩ := doneE_spec s d (fneg s.mod (s.getE a))
    exact ⟨t, ht, honly, hv ▸ fneg_lt h.mod_pos _, hv ▸ add_fneg_mod ha, hv⟩

/-- Settles O30: `fpow` is the power modulo MOD, by its loop invariant (`fpow_eq`). -/
theorem mulAndPowAreExactModulo : Obligations.MulAndPowAreExactModulo := by
  intro s d a b h
  refine ⟨isWordOf_wordR rfl rfl (by decide) (by decide), isWordOf_wordR rfl rfl (by decide) (by decide),
    doneE_spec s d (fmul s.mod (s.getE a) (s.getE b)), ?_⟩
  rw [← fpow_eq h.mod_ge]
  exact doneE_spec s d (fpow s.mod (s.getE a) (s.getR b))

/-- Settles O31, by the two ways INV.C ends. -/
theorem checkedInverseInvertsOrFaults : Obligations.CheckedInverseInvertsOrFaults := by
  intro s d a h
  refine ⟨isWordOf_wordR (b := 0) rfl rfl (by decide) (by decide), exec_invC_spec h d, fun hg => ?_⟩
  rw [RaisesAndChangesNothing, exec_invC_of_not_coprime h d hg]
  exact raise_spec _ _ s

/-- Settles O32: INV is INV.C on an invertible element, and on any other it ends with a drawn element, which is reduced. -/
theorem uncheckedInverseNeverFaults : Obligations.UncheckedInverseNeverFaults := by
  intro s d a h
  refine ⟨isWordOf_wordR (b := 0) rfl rfl (by decide) (by decide), fun hg => ?_, fun hg => ?_⟩
  · have hsame := exec_inv_of_coprime h d hg
    exact ⟨hsame, hsame ▸ exec_invC_spec h d hg⟩
  · rw [exec_inv_of_not_coprime h d hg]
    exact doneAnyElem_spec s d h.mod_pos

/-- Settles O33, by the three ways DIV and DIV.C end; the inverse of the divisor is `finv`. -/
theorem divMultipliesByTheInverse : Obligations.DivMultipliesByTheInverse := by
  intro s c d a b h
  refine ⟨isWordOf_wordR rfl rfl (flagNo_lt c) (by decide), fun hg => ?_, fun hg hc => ?_, fun hg hc => ?_⟩
  · obtain ⟨t, ht, hv, honly⟩ := doneE_spec s d (fmul s.mod (s.getE a) (finv s.mod (s.getE b)))
    exact ⟨t, _, (exec_div_of_coprime h d hg c a).trans ht, isInverse_finv (h.e_lt b) hg, hv, honly⟩
  · rw [RaisesAndChangesNothing, exec_div_of_not_coprime h d hg, if_pos hc]
    exact raise_spec _ _ s
  · rw [exec_div_of_not_coprime h d hg, if_neg (hc ▸ Bool.false_ne_true)]
    exact doneAnyElem_spec s d h.mod_pos

/-- Settles O34: the state after the first inversion meets the invariant, its `e[d]` has the old `e[a]` for an inverse, and inverses
are unique. -/
theorem inverseOfInverseIsTheElement : Obligations.InverseOfInverseIsTheElement := by
  intro s d a k h hg
  obtain ⟨t, ht, hinv, -, -, -, hmod, -⟩ := exec_invC_spec h d hg
  have hback : IsInverse t.mod (t.getE d) (s.getE a) := hmod ▸ hinv.symm (h.e_lt a)
  obtain ⟨u, hu, hinv', -⟩ := exec_invC_spec (exec_keeps_inv h rfl ht) k hback.coprime
  exact ⟨t, u, ht, hu, hinv'.unique hback⟩

/-- Settles O35: both commands deliver their test in every state. -/
theorem eqAndNeCompareReducedValues : Obligations.EqAndNeCompareReducedValues := by
  intro s d a b
  refine ⟨isWordOf_wordR rfl rfl (by decide) (by decide), isWordOf_wordR rfl rfl (by decide) (by decide), ?_, ?_⟩
  · rw [← boolVal_beq]
    exact doneR_spec s d (boolVal (s.getE a == s.getE b))
  · rw [← boolVal_bne]
    exact doneR_spec s d (boolVal (s.getE a != s.getE b))

end

section
/-! PROOFS. Configuration and moves (42_config_and_moves.md): the word of a format I command as the sum of its fields (R72, R77); the
ways each command ends; that ROOT delivers a root of the length. -/

namespace Sys2Proof

/-! ## A format I word as the sum of its fields (R72, R77) -/

theorem immFits_of_lt {imm : Nat} (h : imm < 65536) : immFits imm = true := decide_eq_true h

/-- The fields of format I do not overlap: the immediate ends below the register number. -/
theorem encodeI_eq_wordI (op : Nat) (d : RegNo) {imm : Nat} (h : imm < 65536) : encodeI op d imm = Machine.wordI op d imm := by
  rw [encodeI, ← BitVec.shiftLeft_zero (BitVec.ofNat 32 imm), ofNat_shiftLeft op, ofNat_or_shiftLeft 26, ofNat_or_shiftLeft 16,
    pow_zero, Nat.mul_one, Machine.wordI] <;> omega

end Sys2Proof

namespace Sys2Proof.Machine

/-- A command encoded in format I is what the word with its field values decodes to. -/
theorem isWordOf_wordI {i : Instr} {op imm : Nat} {d : RegNo} (hw : i.wellFormed = true) (hi : encode i = encodeI op d imm)
    (himm : imm < 65536) : IsWordOf (wordI op d imm) i :=
  isWordOf_of_encode hw (hi.trans (encodeI_eq_wordI op d himm))

theorem bankNo_lt (bk : BankSel) : bankNo bk < 2 := by cases bk <;> decide

/-! ## The ways each command ends (R154, R156, R157) -/

section
variable {s : State} {d a : RegNo}

theorem exec_setmod_of_lt (h : s.getR a < 2) : exec (.setmod a) s = raise .illegalOperand (encode (.setmod a)) s := if_pos h

theorem exec_setmod_of_ge (h : 2 ≤ s.getR a) : exec (.setmod a) s = .next (s.instantiateField (s.getR a)) := if_neg h.not_gt

theorem exec_root_of_mod_ne (h : s.mod ≠ s.pp.p) : exec (.root d a) s = raise .configMismatch (encode (.root d a)) s := if_pos h

section
variable (hm : s.mod = s.pp.p)
include hm

theorem exec_root_of_bad_length (h : ¬ PowerOfTwo (s.getR a) ∨ 2 ^ s.pp.n < s.getR a) :
    exec (.root d a) s = raise .invalidLength (encode (.root d a)) s := by
  rw [← is2pow_eq_false_iff] at h
  exact (if_neg (not_not.mpr hm)).trans (if_pos (by simpa using h))

theorem exec_root_of_length (hp : PowerOfTwo (s.getR a)) (hle : s.getR a ≤ 2 ^ s.pp.n) :
    exec (.root d a) s = doneE d (fpow s.mod (s.pp.g % s.mod) (2 ^ s.pp.n / s.getR a)) s := by
  rw [← is2pow_iff] at hp
  exact (if_neg (not_not.mpr hm)).trans (if_neg (by simp [hp, hle]))

end

end

/-! ## The prime parameters by selector (R156) -/

/-- The selectors are the positions in the order `n, k, p, g, base`. -/
theorem ppSelect_eq_getElem? (pp : Config.PrimeParams) : ∀ sel, ppSelect pp sel = [pp.n, pp.k, pp.p, pp.g, pp.base][sel]?
  | 0 | 1 | 2 | 3 | 4 | _ + 5 => rfl

section
variable {s : State} (d : RegNo) {sel : Nat}

theorem exec_rdpp_of_some {v : Nat} (h : [s.pp.n, s.pp.k, s.pp.p, s.pp.g, s.pp.base][sel]? = some v) :
    exec (.rdpp d sel) s = doneR d v s := by
  rw [← ppSelect_eq_getElem?] at h
  simp only [exec, execRdpp, h]

theorem exec_rdpp_of_gt (h : 4 < sel) : exec (.rdpp d sel) s = raise .illegalOperand (encode (.rdpp d sel)) s := by
  have hnone : ppSelect s.pp sel = none := (ppSelect_eq_getElem? s.pp sel).trans (List.getElem?_eq_none h)
  simp only [exec, execRdpp, hnone]

end

/-! ## A root of the length (R13, R157, R190) -/

/-- The exponents `2^n div 2^k` and `2^k div 2` multiply to `2^(n-1)`, whatever `k` is. -/
theorem root_pow_half {k n : Nat} (m g : Nat) (hk : 1 ≤ k) (hkn : k ≤ n) :
    ((g % m) ^ (2 ^ n / 2 ^ k) % m) ^ (2 ^ k / 2) % m = g ^ 2 ^ (n - 1) % m := by
  rw [← Nat.pow_mod, ← pow_mul, ← Nat.pow_mod, Nat.pow_div hkn Nat.two_pos, two_pow_half hk, ← pow_add,
    Nat.sub_add_sub_cancel hkn hk]

/-- `G^(2^(N-1))` is not 1 and its square is, which is what the root-order test asks of a root of any length `2^k`. -/
theorem not_rootOrderWrong_root {c : Config.Params} {pp : Config.PrimeParams} (hl : Config.Legal c pp) {n : Nat} (hn : PowerOfTwo n)
    (h2 : 2 ≤ n) (hle : n ≤ 2 ^ pp.n) : ¬ RootOrderWrong pp.p n ((pp.g % pp.p) ^ (2 ^ pp.n / n) % pp.p) := by
  obtain ⟨k, rfl⟩ := hn
  have hk : 1 ≤ k := one_le_of_two_le_two_pow h2
  have hkn : k ≤ pp.n := (Nat.pow_le_pow_iff_right Nat.one_lt_two).mp hle
  have hsq : (pp.g ^ 2 ^ (pp.n - 1) % pp.p) ^ 2 % pp.p = 1 := by
    rw [← Nat.pow_mod, ← pow_mul, ← pow_succ, Nat.sub_add_cancel (hk.trans hkn), hl.g_pow]
  rw [RootOrderWrong, root_pow_half _ _ hk hkn]
  exact not_or_intro hl.g_half (not_not.mpr hsq)

/-! ## CLRERR in a clean state (R220) -/

theorem State.clearError_of_clean {s : State} (he : s.err = 0) (hi : s.einfo = 0) : s.clearError = s := by
  rw [State.clearError, ← he, ← hi]

end Sys2Proof.Machine

open Sys2Proof Sys2Proof.Machine

/-- Settles O26, by the three ways ROOT ends; the root-order test of its result is a test of `G` alone (`not_rootOrderWrong_root`). -/
theorem rootDerivesARootOfTheLength : Obligations.RootDerivesARootOfTheLength := by
  intro s d a h
  refine ⟨isWordOf_wordR (b := 0) rfl rfl (by decide) (by decide), fun hm => ?_, fun hm hbad => ?_, fun hm hp hle => ?_⟩
  · rw [RaisesAndChangesNothing, exec_root_of_mod_ne hm]
    exact raise_spec _ _ s
  · rw [RaisesAndChangesNothing, exec_root_of_bad_length hm hbad]
    exact raise_spec _ _ s
  · obtain ⟨t, ht, hv, honly⟩ := doneE_spec s d (fpow s.mod (s.pp.g % s.mod) (2 ^ s.pp.n / s.getR a))
    rw [fpow_eq h.mod_ge] at hv
    refine ⟨t, (exec_root_of_length hm hp hle).trans ht, hv, honly, fun h2 => ?_⟩
    rw [hv, hm]
    exact not_rootOrderWrong_root h.legal hp h2 hle

/-- Settles O22: both commands deliver one value in every state. -/
theorem loadImmediateCommands : Obligations.LoadImmediateCommands := fun s d imm himm =>
  ⟨isWordOf_wordI (immFits_of_lt himm) rfl himm, isWordOf_wordI (immFits_of_lt himm) rfl himm, doneR_spec s d (zextImm imm),
    doneR_spec s d (shiftInImm s.cfg.w (s.getR d) imm)⟩

/-- Settles O23, by the two ways SETMOD ends. -/
theorem setmodInstantiatesTheField : Obligations.SetmodInstantiatesTheField := by
  intro s a
  refine ⟨isWordOf_wordR (d := 0) (b := 0) rfl rfl (by decide) (by decide), fun hlt => ?_, fun hge => ?_⟩
  · rw [RaisesAndChangesNothing, exec_setmod_of_lt hlt]
    exact raise_spec _ _ s
  · exact ⟨_, exec_setmod_of_ge hge, s.instantiateField_mod _, s.getE_instantiateField _, s.len_instantiateField _, ⟨rfl, rfl⟩,
      s.getR_instantiateField _, ⟨rfl, rfl⟩, ⟨rfl, rfl, rfl⟩, s.seqRead_instantiateField _⟩

/-- Settles O24: both commands deliver one value in every state. -/
theorem getmodAndSeqlenCopyTheRegister : Obligations.GetmodAndSeqlenCopyTheRegister := fun s d bk =>
  ⟨isWordOf_wordR (a := 0) (b := 0) rfl rfl (by decide) (by decide),
    isWordOf_wordR (a := 0) (b := 0) rfl rfl (by decide) (bankNo_lt bk), doneR_spec s d s.mod, doneR_spec s d (s.len bk)⟩

/-- Settles O25, by the two ways RDPP ends. -/
theorem rdppReadsTheSelectedParameter : Obligations.RdppReadsTheSelectedParameter := by
  intro s d sel hsel
  refine ⟨isWordOf_wordI (immFits_of_lt hsel) rfl hsel, fun hgt => ?_, fun v hv => ?_⟩
  · rw [RaisesAndChangesNothing, exec_rdpp_of_gt d hgt]
    exact raise_spec _ _ s
  · rw [exec_rdpp_of_some d hv]
    exact doneR_spec s d v

/-- Settles O27: CLRERR is the update `clearError`, which writes ERR and EINFO alone. -/
theorem clrerrClearsTheErrorOnly : Obligations.ClrerrClearsTheErrorOnly :=
  ⟨isWordOf_of_encode rfl (by decide), fun s => ⟨s.clearError, rfl, s.clearError_err, s.clearError_einfo, ⟨rfl, rfl⟩,
    s.getR_clearError, s.getE_clearError, s.clearError_mod, fun b => ⟨s.len_clearError b, s.seqRead_clearError b⟩,
    ⟨rfl, rfl, rfl⟩, rfl, State.clearError_of_clean⟩⟩

end

section
/-! PROOFS. Sequence container commands (43_sequence.md): the ways SEQNEW, SEQLD and SEQST end, and the slots they leave. -/

namespace Sys2Proof.Machine

/-! ## The ways each command ends (R171, R174, R175) -/

section
variable {s : State} (bk : BankSel) {a : RegNo}

theorem exec_seqnew_of_gt (h : s.cfg.seqMax < s.getR a) :
    exec (.seqnew bk a) s = raise .illegalOperand (encode (.seqnew bk a)) s := if_pos h

theorem exec_seqnew_of_le (h : s.getR a ≤ s.cfg.seqMax) :
    exec (.seqnew bk a) s = .next ((s.setLen bk (s.getR a)).putSeq bk (List.replicate (s.getR a) 0)) := if_neg h.not_gt

end

/- `x` is the register of the index, `y` the element register. -/
section
variable {s : State} {bk : BankSel} {x : RegNo} (y : RegNo)

/-- The bounds check passes exactly below LEN (R173). -/
theorem inBounds_iff (i : Nat) : inBounds s bk i = true ↔ i < s.len bk := decide_eq_true_iff

section
variable (h : s.getR x < s.len bk)
include h

theorem exec_seqld_of_lt : exec (.seqld bk y x) s = doneE y (s.seqRead bk (s.getR x)) s := if_pos ((inBounds_iff _).mpr h)

theorem exec_seqst_of_lt : exec (.seqst bk y x) s = .next (s.seqWrite bk (s.getR x) (s.getE y)) :=
  if_pos ((inBounds_iff _).mpr h)

end

section
variable (h : s.len bk ≤ s.getR x)
include h

theorem exec_seqld_of_ge : exec (.seqld bk y x) s = raise .bounds (encode (.seqld bk y x)) s :=
  if_neg (mt (inBounds_iff _).mp h.not_gt)

theorem exec_seqst_of_ge : exec (.seqst bk y x) s = raise .bounds (encode (.seqst bk y x)) s :=
  if_neg (mt (inBounds_iff _).mp h.not_gt)

end

end

/-! ## The slots of a new sequence (R51, R171) -/

theorem otherBank_ne (bk : BankSel) : otherBank bk ≠ bk := by cases bk <;> decide

theorem State.seqRead_putSeq_of_ne (s : State) {b bk : BankSel} (h : b ≠ bk) (xs : List Nat) (k : Nat) :
    (s.putSeq bk xs).seqRead b k = s.seqRead b k := by
  rw [State.seqRead_putSeq, if_neg fun hk => h hk.1]

section
variable (s : State) (bk : BankSel) (n : Nat)

/-- A slot of the bank after a sequence of `n` zeros is put there. -/
theorem State.seqRead_putSeq_zeros (k : Nat) :
    (s.putSeq bk (List.replicate n 0)).seqRead bk k = if k < n then 0 else s.seqRead bk k := by
  rw [State.seqRead_putSeq, List.length_replicate]
  by_cases hk : k < n
  · rw [if_pos ⟨rfl, hk⟩, if_pos hk, List.getD_replicate 0 hk]
  · rw [if_neg fun h => hk h.2, if_neg hk]

/-- A new sequence leaves the other bank as it was: the banks do not alias (R50). -/
theorem sameBank_other_newSequence (xs : List Nat) : SameBank (otherBank bk) s ((s.setLen bk n).putSeq bk xs) := by
  refine ⟨?_, fun k => ?_⟩
  · rw [State.len_putSeq, State.len_setLen_of_ne s (otherBank_ne bk)]
  · rw [State.seqRead_putSeq_of_ne _ (otherBank_ne bk), State.seqRead_setLen]

end

end Sys2Proof.Machine

open Sys2Proof Sys2Proof.Machine

/-- Settles O40, by the two ways SEQNEW ends. -/
theorem seqnewCreatesAZeroSequence : Obligations.SeqnewCreatesAZeroSequence := by
  intro s bk a
  refine ⟨isWordOf_wordR (d := 0) (b := 0) rfl rfl (by decide) (bankNo_lt bk), fun hgt => ?_, fun hle => ?_⟩
  · rw [RaisesAndChangesNothing, exec_seqnew_of_gt bk hgt]
    exact raise_spec _ _ s
  · refine ⟨_, exec_seqnew_of_le bk hle, by simp, fun k hk => ?_, fun k hk => ?_, sameBank_other_newSequence s bk _ _,
      ⟨by simp, by simp⟩, fun i => by simp, fun i => by simp, by simp, ⟨by simp, by simp⟩, by simp, by simp, by simp⟩
    · rw [State.seqRead_putSeq_zeros, if_pos hk]
    · rw [State.seqRead_putSeq_zeros, if_neg hk.not_gt, State.seqRead_setLen]

/-- Settles O42, by the two ways SEQST ends. The canonical form of the bank is what makes the written slot read back. -/
theorem seqstWritesExactlyOneSlot : Obligations.SeqstWritesExactlyOneSlot := by
  intro s bk a b hinv
  refine ⟨isWordOf_wordR (d := 0) rfl rfl (by decide) (bankNo_lt bk), fun hge => ?_, fun hlt => ?_⟩
  · rw [RaisesAndChangesNothing, exec_seqst_of_ge a hge]
    exact raise_spec _ _ s
  · have hslot := fun c k => s.seqRead_seqWrite bk c (s.getR b) k (s.getE a) (hinv.slots_wf bk)
    refine ⟨_, exec_seqst_of_lt a hlt, ?_, fun c k hne => ?_, fun c => by simp, ⟨by simp, by simp⟩, fun i => by simp,
      fun i => by simp, by simp, ⟨by simp, by simp⟩, by simp, by simp, by simp⟩
    · rw [hslot, if_pos ⟨rfl, rfl⟩]
    · rw [hslot, if_neg (not_and_or.mpr hne)]

/-- Settles O41, by the two ways SEQLD ends. -/
theorem seqldReadsWithinBounds : Obligations.SeqldReadsWithinBounds := by
  intro s bk d a
  refine ⟨isWordOf_wordR (b := 0) rfl rfl (by decide) (bankNo_lt bk), fun hge => ?_, fun hlt => ?_⟩
  · rw [RaisesAndChangesNothing, exec_seqld_of_ge d hge]
    exact raise_spec _ _ s
  · rw [exec_seqld_of_lt d hlt]
    exact doneE_spec s d (s.seqRead bk (s.getR a))

end

section
/-! PROOFS. The butterfly, the permutation and the root check of the engine (44_ntt_engine.md): the ways BFLY, PERMUTE and CHECK end, the
slots PERMUTE leaves, and what a transform or PERMUTE leaves when it faults (R202). -/

namespace Sys2Proof.Machine

/-! ## The fault of a command that works on a bank in place (R202) -/

section
variable {i : Instr} {bk : BankSel} {s t : State}

theorem raisesAndSpoils_of_exec_eq {x : ErrorKind} (hm : 0 < s.mod) (h : exec i s = raiseSpoiled x bk (encode i) s) :
    RaisesAndSpoils i bk s x := by
  rw [RaisesAndSpoils, h]
  exact raiseSpoiled_spec x bk (encode i) s hm

/-- From ERR = 0, such a command ends with ERR nonzero only by spoiling its bank: every other form of its next state keeps ERR. -/
theorem exec_eq_raiseSpoiled_of_err_ne_zero (hs : s.err = 0) (hb : spoiledBank i = some bk) (he : exec i s = .next t)
    (ht : t.err ≠ 0) : ∃ x, exec i s = raiseSpoiled x bk (encode i) s := by
  cases exec_form he with
  | spoils x bk' hi =>
    cases hb.symm.trans hi
    exact ⟨x, he⟩
  | raises x hi => cases hb.symm.trans hi
  | clears hi => exact absurd s.clearError_err ht
  | _ => exact absurd (by simpa using hs) ht

end

/-! ## Two changes of one bank in a row -/

/-- If two commands change nothing but slots below LEN of one bank, so do both in a row. -/
theorem OnlySlots.trans {bk : BankSel} {s t u : State} (hst : OnlySlots bk s t) (htu : OnlySlots bk t u) : OnlySlots bk s u := by
  obtain ⟨⟨hcfg, hpp⟩, hr, he, hmod, hlen, hslot, ⟨herr, hinfo⟩, hprog, hpos, hresp⟩ := hst
  obtain ⟨⟨hcfg', hpp'⟩, hr', he', hmod', hlen', hslot', ⟨herr', hinfo'⟩, hprog', hpos', hresp'⟩ := htu
  exact ⟨⟨hcfg'.trans hcfg, hpp'.trans hpp⟩, fun i => (hr' i).trans (hr i), fun i => (he' i).trans (he i), hmod'.trans hmod,
    fun b => (hlen' b).trans (hlen b), fun b k hk => (hslot' b k (by rwa [hlen])).trans (hslot b k hk),
    ⟨herr'.trans herr, hinfo'.trans hinfo⟩, hprog'.trans hprog, hpos'.trans hpos, hresp'.trans hresp⟩

/-! ## BFLY (R187) -/

section
variable (s : State) {d a : RegNo} (b : RegNo)

theorem exec_bfly_of_eq (h : d = a) : exec (.bfly d a b) s = raise .illegalOperand (encode (.bfly d a b)) s := if_pos h

theorem exec_bfly_of_ne (h : d ≠ a) :
    exec (.bfly d a b) s = .next ((s.setE d (fadd s.mod (s.getE d) (fmul s.mod (s.getE b) (s.getE a)))).setE a
      (fsub s.mod (s.getE d) (fmul s.mod (s.getE b) (s.getE a)))) := if_neg h

end

/-- A difference is what gives the minuend when the subtrahend is added. -/
theorem fsub_add_mod {m x y : Nat} (hx : x < m) (hy : y ≤ m) : (fsub m x y + y) % m = x := by
  rw [fsub, Nat.mod_add_mod, Nat.sub_add_cancel (by omega), Nat.add_mod_right, Nat.mod_eq_of_lt hx]

/-! ## PERMUTE (R189) -/

section
variable {s : State} {bk : BankSel}

theorem exec_permute_of_not_powerOfTwo (h : ¬ PowerOfTwo (s.len bk)) :
    exec (.permute bk) s = raiseSpoiled .invalidLength bk (encode (.permute bk)) s :=
  if_pos (by rw [(is2pow_eq_false_iff _).mpr h]; rfl)

theorem exec_permute_of_powerOfTwo (h : PowerOfTwo (s.len bk)) :
    exec (.permute bk) s = .next (s.putSeq bk (permuteSeq (s.seq bk))) :=
  if_neg (by rw [(is2pow_iff _).mpr h]; decide)

theorem State.seqRead_putSeq_of_lt (s : State) (bk : BankSel) {xs : List Nat} {k : Nat} (hk : k < xs.length) :
    (s.putSeq bk xs).seqRead bk k = xs.getD k 0 := by
  rw [State.seqRead_putSeq, if_pos ⟨rfl, hk⟩]

/-- On a length `2^w` new slot `k` is old slot `bitReverse(k, w)`. -/
theorem exec_permute_spec {w : Nat} (hl : s.len bk = 2 ^ w) :
    ∃ t, exec (.permute bk) s = .next t ∧ OnlySlots bk s t ∧
      ∀ k, k < 2 ^ w → t.seqRead bk k = s.seqRead bk (bitReverse k w) := by
  obtain ⟨hlen, hslot⟩ := permuteSeq_spec ((s.seq_length bk).trans hl)
  rw [s.seq_length] at hlen hslot
  refine ⟨_, exec_permute_of_powerOfTwo ⟨w, hl⟩, onlySlots_putSeq s bk hlen, fun k hk => ?_⟩
  have hk : k < s.len bk := hl ▸ hk
  rw [s.seqRead_putSeq_of_lt bk (hlen ▸ hk), hslot k hk, s.seq_getD bk (hl ▸ bitReverse_lt w k)]

end

/-- The bits say which index it is. -/
theorem eq_bitReverse_of_testBit {w k j : Nat} (hj : j < 2 ^ w) (hbits : ∀ i, i < w → j.testBit i = k.testBit (w - 1 - i)) :
    j = bitReverse k w := by
  refine Nat.eq_of_testBit_eq fun i => ?_
  rw [testBit_bitReverse]
  by_cases hi : i < w
  · rw [hbits i hi, decide_eq_true hi, Bool.true_and]
  · rw [decide_eq_false hi, Bool.false_and]
    exact Nat.testBit_lt_two_pow (hj.trans_le (Nat.pow_le_pow_right Nat.two_pos (by omega)))

/-! ## CHECK (R190, R191) -/

section
variable {m n w : Nat}

theorem checkParameters_of_not_powerOfTwo (h : ¬ PowerOfTwo n) : checkParameters m n w = some .invalidLength := by
  rw [checkParameters, (is2pow_eq_false_iff n).mpr h]
  rfl

section
variable (hm : 2 ≤ m) (hp : PowerOfTwo n)
include hm hp

theorem checkParameters_of_rootOrderWrong (h : RootOrderWrong m n w) : checkParameters m n w = some .invalidRootOrder := by
  rw [checkParameters, (is2pow_iff n).mpr hp, (rootOrderFails_iff hm n w).mpr h]
  rfl

theorem checkParameters_of_rootOrder (h : ¬ RootOrderWrong m n w) : checkParameters m n w = none := by
  rw [checkParameters, (is2pow_iff n).mpr hp, Bool.eq_false_iff.mpr (mt (rootOrderFails_iff hm n w).mp h)]
  rfl

end

end

section
variable {s : State} {bk : BankSel} {a : RegNo}

theorem exec_check_of_some {x : ErrorKind} (h : checkParameters s.mod (s.len bk) (s.getE a) = some x) :
    exec (.check bk a) s = raise x (encode (.check bk a)) s := by
  simp only [exec, execCheck, h]

theorem exec_check_of_none (h : checkParameters s.mod (s.len bk) (s.getE a) = none) : exec (.check bk a) s = .next s := by
  simp only [exec, execCheck, h]

theorem check_raisesAndChangesNothing {x : ErrorKind} (h : checkParameters s.mod (s.len bk) (s.getE a) = some x) :
    RaisesAndChangesNothing (.check bk a) s x := by
  rw [RaisesAndChangesNothing, exec_check_of_some h]
  exact raise_spec _ _ s

end

/-- A command that raises an error does not leave a state with ERR = 0 as it is. -/
theorem RaisesAndChangesNothing.ne_next_self {i : Instr} {s : State} {x : ErrorKind} (h : RaisesAndChangesNothing i s x)
    (hs : s.err = 0) : exec i s ≠ .next s := by
  obtain ⟨t, ht, hcode, -⟩ := h
  intro hself
  cases ht.symm.trans hself
  exact x.code_ne_zero (hcode.symm.trans hs)

end Sys2Proof.Machine

open Sys2Proof Sys2Proof.Machine

/-- Settles O18: such a command faults only by the fault entry that spoils its bank. -/
theorem failedTransformLeavesReducedSlots : Obligations.FailedTransformLeavesReducedSlots := by
  intro i bk s t hinv hs hb he ht
  obtain ⟨x, hx⟩ := exec_eq_raiseSpoiled_of_err_ne_zero hs hb he ht
  exact ⟨x, raisesAndSpoils_of_exec_eq hinv.mod_pos hx⟩

/-- Settles O43, by the two ways BFLY ends: `e[d]` receives the sum and `e[a]` the difference, both from the old values. -/
theorem bflyCombinesAndReplaces : Obligations.BflyCombinesAndReplaces := by
  intro s d a b hinv
  refine ⟨isWordOf_wordR rfl rfl (by decide) (by decide), fun heq => ?_, fun hne => ?_⟩
  · rw [RaisesAndChangesNothing, exec_bfly_of_eq s b heq]
    exact raise_spec _ _ s
  · refine ⟨_, exec_bfly_of_ne s b hne, ?_, ?_, ?_, fun i hd ha => ?_, ⟨rfl, rfl⟩, fun _ => rfl, rfl, fun c => ⟨by simp, by simp⟩,
      ⟨rfl, rfl⟩, rfl, rfl, rfl⟩
    · rw [State.getE_setE_of_ne _ hne, State.getE_setE_self, fadd, fmul, Nat.add_mod_mod]
    · rw [State.getE_setE_self, ← Nat.add_mod_mod]
      exact fsub_add_mod (hinv.e_lt d) (fmul_lt hinv.mod_pos _ _).le
    · rw [State.getE_setE_self]
      exact fsub_lt hinv.mod_pos _ _
    · rw [State.getE_setE_of_ne _ ha, State.getE_setE_of_ne _ hd]

/-- Settles O44, by the two ways PERMUTE ends. -/
theorem permuteReversesTheIndexBits : Obligations.PermuteReversesTheIndexBits := by
  intro s bk hinv
  refine ⟨isWordOf_wordR (d := 0) (a := 0) (b := 0) rfl rfl (by decide) (bankNo_lt bk), fun hp => ?_, fun w hl => ?_⟩
  · exact raisesAndSpoils_of_exec_eq hinv.mod_pos (exec_permute_of_not_powerOfTwo hp)
  · obtain ⟨t, ht, honly, hslot⟩ := exec_permute_spec hl
    refine ⟨t, ht, honly, fun k j hk hj hbits => ?_⟩
    rw [hslot k hk, eq_bitReverse_of_testBit hj hbits]

/-- Settles O45: bit reversal is an involution below the length, and no slot above it changes. -/
theorem permuteTwiceRestoresTheBank : Obligations.PermuteTwiceRestoresTheBank := by
  rintro s bk ⟨w, hl⟩
  obtain ⟨t, ht, honly, hslot⟩ := exec_permute_spec hl
  have hlen : t.len bk = s.len bk := by
    obtain ⟨-, -, -, -, hlen, -⟩ := honly
    exact hlen bk
  obtain ⟨u, hu, honly', hslot'⟩ := exec_permute_spec (hlen.trans hl)
  obtain ⟨-, -, -, -, -, habove, -⟩ := honly.trans honly'
  refine ⟨t, u, ht, hu, fun k => ?_⟩
  by_cases hk : k < 2 ^ w
  · rw [hslot' k hk, hslot _ (bitReverse_lt w k), bitReverse_bitReverse hk]
  · exact habove bk k (.inr (by omega))

/-- Settles O46, by the three ways the tests of CHECK end. -/
theorem checkValidatesLengthThenRootOrder : Obligations.CheckValidatesLengthThenRootOrder := fun _ bk _ hinv =>
  ⟨isWordOf_wordR (d := 0) (b := 0) rfl rfl (by decide) (bankNo_lt bk),
    fun hp => check_raisesAndChangesNothing (checkParameters_of_not_powerOfTwo hp),
    fun hp hw => check_raisesAndChangesNothing (checkParameters_of_rootOrderWrong hinv.mod_ge hp hw),
    fun hp hw => exec_check_of_none (checkParameters_of_rootOrder hinv.mod_ge hp hw)⟩

/-- Settles O47: the root-order test passes exactly for the roots of that order, and where it fails CHECK sets ERR. -/
theorem checkPassesExactlyForRootsOfThatOrder : Obligations.CheckPassesExactlyForRootsOfThatOrder := by
  intro s bk a hinv hs hp h2
  rw [← not_rootOrderWrong_iff hinv.mod_ge hp h2]
  constructor
  · intro hpass hw
    exact (check_raisesAndChangesNothing (checkParameters_of_rootOrderWrong hinv.mod_ge hp hw)).ne_next_self hs hpass
  · intro hw
    exact exec_check_of_none (checkParameters_of_rootOrder hinv.mod_ge hp hw)

end

section
/-! PROOFS. The transform commands (44_ntt_engine.md): both variants end alike (R198, R201); where no test fails, the slots a forward and
an inverse command leave, as the network of Laws/Transform.lean gives them; the flag V (R195). -/

namespace Sys2Proof.Machine

/-! ## Both variants at once -/

/-- The network of variant A (`b = false`) or B (`b = true`). -/
def network (b : Bool) : Nat → Nat → List Nat → List Nat := if b then forwardB else forwardA

theorem network_eq_forwardA (b : Bool) (m w : Nat) {xs : List Nat} (h : PowerOfTwo xs.length) : network b m w xs = forwardA m w xs := by
  cases b with
  | false => rfl
  | true => exact forwardB_eq_forwardA h

section
variable (b v : Bool) (bk : BankSel) (a : RegNo) (s : State)

theorem exec_forwardInstr : exec (forwardInstr b v bk a) s =
    forwardCommand (network b) v bk (s.getE a) (encode (forwardInstr b v bk a)) s := by cases b <;> rfl

theorem exec_inverseInstr : exec (inverseInstr b v bk a) s =
    inverseCommand (network b) v bk (s.getE a) (encode (inverseInstr b v bk a)) s := by cases b <;> rfl

theorem wellFormed_forwardInstr : (forwardInstr b v bk a).wellFormed = true := by cases b <;> rfl
theorem wellFormed_inverseInstr : (inverseInstr b v bk a).wellFormed = true := by cases b <;> rfl

theorem encode_forwardInstr :
    encode (forwardInstr b v bk a) = encodeR (0x34 + flagNo b) (flagNo v) (bankNo bk) 0 a 0 := by cases b <;> rfl

theorem encode_inverseInstr :
    encode (inverseInstr b v bk a) = encodeR (0x36 + flagNo b) (flagNo v) (bankNo bk) 0 a 0 := by cases b <;> rfl

theorem isWordOf_forwardInstr :
    IsWordOf (wordR (0x34 + flagNo b) (flagNo v) (bankNo bk) 0 a 0) (forwardInstr b v bk a) :=
  isWordOf_wordR (d := 0) (b := 0) (wellFormed_forwardInstr b v bk a) (encode_forwardInstr b v bk a) (flagNo_lt v) (bankNo_lt bk)

theorem isWordOf_inverseInstr :
    IsWordOf (wordR (0x36 + flagNo b) (flagNo v) (bankNo bk) 0 a 0) (inverseInstr b v bk a) :=
  isWordOf_wordR (d := 0) (b := 0) (wellFormed_inverseInstr b v bk a) (encode_inverseInstr b v bk a) (flagNo_lt v) (bankNo_lt bk)

end

/-! ## Equal up to the draws of a fault (R198) -/

/-- Both outcomes are next states with one ERR, and one state where that is 0. -/
def SameUnlessFault (o o' : Host.Outcome State Fault Refusal) : Prop :=
  ∃ t u, o = .next t ∧ o' = .next u ∧ u.err = t.err ∧ (t.err = 0 → u = t)

theorem sameUnlessFault_next (t : State) : SameUnlessFault (.next t) (.next t) := ⟨t, t, rfl, rfl, rfl, fun _ => rfl⟩

theorem sameUnlessFault_raiseSpoiled (x : ErrorKind) (bk : BankSel) (cw cw' : CmdWord) (s : State) :
    SameUnlessFault (raiseSpoiled x bk cw s) (raiseSpoiled x bk cw' s) :=
  ⟨_, _, rfl, rfl, rfl, fun h => absurd h x.code_ne_zero⟩

section
variable (v : Bool) (bk : BankSel) (w : Nat) (cw cw' : CmdWord) (s : State)

theorem forwardB_seq_eq (m u : Nat) (h : is2pow (s.len bk) = true) : forwardB m u (s.seq bk) = forwardA m u (s.seq bk) :=
  forwardB_eq_forwardA ((s.seq_length bk).symm ▸ (is2pow_iff _).mp h)

theorem forwardCommand_variants :
    SameUnlessFault (forwardCommand forwardA v bk w cw s) (forwardCommand forwardB v bk w cw' s) := by
  rw [forwardCommand, forwardCommand]
  split_ifs with hp hw
  · exact sameUnlessFault_raiseSpoiled ..
  · exact sameUnlessFault_raiseSpoiled ..
  · rw [forwardB_seq_eq bk s _ _ (by simpa using hp)]
    exact sameUnlessFault_next _

theorem inverseCommand_variants :
    SameUnlessFault (inverseCommand forwardA v bk w cw s) (inverseCommand forwardB v bk w cw' s) := by
  rw [inverseCommand, inverseCommand]
  split_ifs with hi hp hw hn
  · exact sameUnlessFault_raiseSpoiled ..
  · exact sameUnlessFault_raiseSpoiled ..
  · exact sameUnlessFault_raiseSpoiled ..
  · exact sameUnlessFault_raiseSpoiled ..
  · rw [forwardB_seq_eq bk s _ _ (by simpa using hp)]
    exact sameUnlessFault_next _

end

/-! ## Where no test fails (R199, R201) -/

section
variable {s : State} (b : Bool) {v : Bool} {bk : BankSel} {a : RegNo} (h : s.Inv)
include h

theorem exec_forwardInstr_of_passes (hp : PowerOfTwo (s.len bk)) (hv : v = true → ¬ RootOrderWrong s.mod (s.len bk) (s.getE a)) :
    exec (forwardInstr b v bk a) s = .next (s.putSeq bk (forwardA s.mod (s.getE a) (s.seq bk))) := by
  rw [exec_forwardInstr, forwardCommand_eq _ h.mod_ge hp hv, network_eq_forwardA b _ _ ((s.seq_length bk).symm ▸ hp)]

theorem exec_forwardInstr_of_rootOrderWrong (hp : PowerOfTwo (s.len bk)) (hw : RootOrderWrong s.mod (s.len bk) (s.getE a)) :
    exec (forwardInstr b true bk a) s = raiseSpoiled .invalidRootOrder bk (encode (forwardInstr b true bk a)) s := by
  rw [exec_forwardInstr, forwardCommand, (is2pow_iff _).mpr hp, (rootOrderFails_iff h.mod_ge _ _).mpr hw]
  rfl

section
variable {n : Nat} (hl : s.len bk = 2 ^ n)
include hl

/-- A forward command leaves in each slot what the network gives, and nothing else changes. -/
theorem exec_forwardInstr_spec (hv : v = true → ¬ RootOrderWrong s.mod (s.len bk) (s.getE a)) :
    ∃ t, exec (forwardInstr b v bk a) s = .next t ∧ OnlySlots bk s t ∧
      ∀ k, k < s.len bk → t.seqRead bk k = networkAt s.mod (s.getE a) n (s.seq bk) n k := by
  obtain ⟨hlen, hslot⟩ := forwardA_spec (m := s.mod) (w := s.getE a) ((s.seq_length bk).trans hl)
  rw [s.seq_length] at hlen hslot
  refine ⟨_, exec_forwardInstr_of_passes b h ⟨n, hl⟩ hv, onlySlots_putSeq s bk hlen, fun k hk => ?_⟩
  rw [s.seqRead_putSeq_of_lt bk (hlen ▸ hk), hslot k hk]

/-- An inverse command leaves in each slot what the network gives for the inverted root, times the inverse of the length. -/
theorem exec_inverseInstr_spec {winv ninv : Nat} (hwi : IsInverse s.mod (s.getE a) winv)
    (hni : IsInverse s.mod (s.len bk % s.mod) ninv) (hv : v = true → ¬ RootOrderWrong s.mod (s.len bk) winv) :
    ∃ t, exec (inverseInstr b v bk a) s = .next t ∧ OnlySlots bk s t ∧
      ∀ k, k < s.len bk → t.seqRead bk k = networkAt s.mod winv n (s.seq bk) n k * ninv % s.mod := by
  have hp : PowerOfTwo (s.seq bk).length := ⟨n, (s.seq_length bk).trans hl⟩
  obtain ⟨hlen, hslot⟩ := forwardA_spec (m := s.mod) (w := winv) ((s.seq_length bk).trans hl)
  rw [s.seq_length] at hlen hslot
  have hexec : exec (inverseInstr b v bk a) s = .next (s.putSeq bk (scaleSeq s.mod ninv (forwardA s.mod winv (s.seq bk)))) := by
    rw [exec_inverseInstr, inverseCommand_eq _ h.mod_ge (h.e_lt a) ⟨n, hl⟩ hwi hni hv, network_eq_forwardA b _ _ hp]
  have hscaled : (scaleSeq s.mod ninv (forwardA s.mod winv (s.seq bk))).length = s.len bk := by
    rw [scaleSeq, List.length_map, hlen]
  refine ⟨_, hexec, onlySlots_putSeq s bk hscaled, fun k hk => ?_⟩
  rw [s.seqRead_putSeq_of_lt bk (hscaled ▸ hk), scaleSeq_getD _ _ _ (hlen ▸ hk), hslot k hk, fmul]

/-- The slots a network leaves are reduced (R26). -/
theorem networkAt_seq_lt (w k : Nat) : networkAt s.mod w n (s.seq bk) n k < s.mod :=
  networkAt_lt h.mod_pos (fun i hi => seq_reduced h bk i (by rwa [s.seq_length, hl])) n k

/-- The network as the recurrence on the length, from the slots of the bank. -/
theorem networkAt_seq_eq_transformSlot (w : Nat) {k : Nat} (hk : k < s.len bk) :
    networkAt s.mod w n (s.seq bk) n k = transformSlot s.mod n w (s.seqRead bk) k := by
  rw [networkAt_eq_transformSlot h.mod_ge (hl ▸ hk)]
  exact transformSlot_congr _ _ _ (fun i hi => s.seq_getD bk (hl ▸ hi)) k

end

end

end Sys2Proof.Machine

open Sys2Proof Sys2Proof.Machine

/-- Settles O51: the tests do not look at the variant, and on a power-of-two length the networks are equal. -/
theorem variantsAreEquivalent : Obligations.VariantsAreEquivalent :=
  fun s v bk a _ => ⟨forwardCommand_variants v bk (s.getE a) _ _ s, inverseCommand_variants v bk (s.getE a) _ _ s⟩

/-- Settles O48, by the slots a forward and an inverse command leave. -/
theorem transformsCompleteAndKeepToTheirBank : Obligations.TransformsCompleteAndKeepToTheirBank := by
  rintro s b v bk a hinv ⟨n, hl⟩
  refine ⟨isWordOf_forwardInstr b v bk a, isWordOf_inverseInstr b v bk a, fun hv => ?_, fun winv hwi hv hg => ?_⟩
  · obtain ⟨t, ht, honly, hslot⟩ := exec_forwardInstr_spec b hinv hl hv
    exact ⟨t, ht, honly, fun k hk => hslot k hk ▸ networkAt_seq_lt hinv hl _ k⟩
  · have hni := isInverse_finv (Nat.mod_lt (s.len bk) hinv.mod_pos) hg
    obtain ⟨t, ht, honly, hslot⟩ := exec_inverseInstr_spec b hinv hl hwi hni hv
    exact ⟨t, ht, honly, fun k hk => hslot k hk ▸ Nat.mod_lt _ hinv.mod_pos⟩

/-- Settles O49: where the test passes both forms put the same sequence back; where it fails V decides between the fault and that. -/
theorem validateFlagOnlyAddsTheRootTest : Obligations.ValidateFlagOnlyAddsTheRootTest := by
  intro s b bk a hinv hp
  have hplain := exec_forwardInstr_of_passes (v := false) (a := a) b hinv hp nofun
  refine ⟨fun hw => ?_, fun hw => ⟨?_, _, hplain, by simp, by simp⟩⟩
  · rw [hplain]
    exact exec_forwardInstr_of_passes b hinv hp fun _ => hw
  · exact raisesAndSpoils_of_exec_eq hinv.mod_pos (exec_forwardInstr_of_rootOrderWrong b hinv hp hw)

/-- Settles O52: the inverse command runs the network that the forward command runs with the inverse in the root register. -/
theorem inverseTransformIsForwardWithInvertedRootScaled : Obligations.InverseTransformIsForwardWithInvertedRootScaled := by
  rintro s t b v bk a winv ninv hinv ⟨n, hl⟩ hwi hni hv ht
  have hl' : (s.setE a winv).len bk = 2 ^ n := by rw [State.len_setE, hl]
  obtain ⟨t', ht', -, hforward⟩ := exec_forwardInstr_spec (v := false) (a := a) b (hinv.setE a hwi.1) hl' nofun
  cases ht.symm.trans ht'
  simp only [State.len_setE, State.setE_mod, State.getE_setE_self, State.seq_setE] at hforward
  obtain ⟨u, hu, -, hinverse⟩ := exec_inverseInstr_spec b hinv hl hwi hni hv
  refine ⟨u, hu, fun k hk => ?_⟩
  rw [hinverse k hk, hforward k hk]

/-- Settles O55: the network of the loop nest is the recurrence (`networkAt_eq_transformSlot`). -/
theorem forwardTransformFollowsTheRecurrence : Obligations.ForwardTransformFollowsTheRecurrence := by
  intro s b v bk a n hinv hl hv
  obtain ⟨t, ht, honly, hslot⟩ := exec_forwardInstr_spec b hinv hl hv
  refine ⟨t, ht, honly, fun k hk => ?_⟩
  rw [hslot k hk, networkAt_seq_eq_transformSlot hinv hl _ hk]

end

section
/-! PROOFS. The transform commands over a prime modulus (44_ntt_engine.md R199, R204): for a root of the order of the length a forward
command leaves the Fourier transform, an inverse command undoes it, and both together give the cyclic convolution. -/

namespace Sys2Proof.Machine

/-! ## Inverses and orders modulo `m` -/

section
variable {m n w v : Nat}

/-- An inverse modulo `m` is an inverse in the ring. -/
theorem IsInverse.cast_mul_eq_one (h : IsInverse m w v) : (w : ZMod m) * v = 1 := by
  have hw := (ZMod.natCast_eq_natCast_iff' (w * v) 1 m).mpr h.2
  push_cast at hw
  exact hw

/-- Where a power of `w` is 1, the power before it is the inverse of `w`. -/
theorem isInverse_of_pow_mod_eq_one (hm : 0 < m) (hn : 0 < n) (h : w ^ n % m = 1 % m) : IsInverse m w (w ^ (n - 1) % m) := by
  refine ⟨Nat.mod_lt _ hm, ?_⟩
  rw [Nat.mul_mod_mod, ← pow_succ', Nat.sub_add_cancel hn, h]

/-- A power of the inverse is 1 exactly where that power of the element is. -/
theorem IsInverse.pow_eq_one_iff (h : IsInverse m w v) (k : Nat) : v ^ k % m = 1 % m ↔ w ^ k % m = 1 % m := by
  have hprod : (w : ZMod m) ^ k * (v : ZMod m) ^ k = 1 := by rw [← mul_pow, h.cast_mul_eq_one, one_pow]
  rw [pow_mod_eq_one_iff, pow_mod_eq_one_iff]
  constructor
  · intro hv
    rwa [hv, mul_one] at hprod
  · intro hw
    rwa [hw, one_mul] at hprod

theorem HasOrder.of_isInverse (ho : HasOrder m n w) (h : IsInverse m w v) : HasOrder m n v :=
  ⟨(h.pow_eq_one_iff n).mpr ho.1, fun k hk hkn => mt (h.pow_eq_one_iff k).mp (ho.2 k hk hkn)⟩

/-- Modulo a prime an order lies below the modulus, by Fermat's little theorem. -/
theorem HasOrder.lt_of_prime (hpr : m.Prime) (hn : 0 < n) (ho : HasOrder m n w) : n < m := by
  have := Fact.mk hpr
  by_contra hge
  have hone := hpr.one_lt
  have hne : (w : ZMod m) ≠ 0 := fun hz => by
    have hw := (pow_mod_eq_one_iff m w n).mp ho.1
    rw [hz, zero_pow hn.ne'] at hw
    exact zero_ne_one hw
  exact ho.2 (m - 1) (by omega) (by omega) ((pow_mod_eq_one_iff m w _).mpr (ZMod.pow_card_sub_one_eq_one hne))

end

/-- A reduced number is what its class in the ring says. -/
theorem eq_mod_of_cast_eq {m a b : Nat} (ha : a < m) (h : (a : ZMod m) = b) : a = b % m := by
  rw [← (ZMod.natCast_eq_natCast_iff' a b m).mp h, Nat.mod_eq_of_lt ha]

/-! ## The discrete Fourier transform (R199) -/

/-- Element `k` of the transform of `x` of length `n` with the root `w`. -/
def dft (m n w : Nat) (x : Nat → ZMod m) (k : Nat) : ZMod m := ∑ i ∈ Finset.range n, x i * (w : ZMod m) ^ (i * k)

theorem dft_congr {m n : Nat} (w : Nat) {x y : Nat → ZMod m} (h : ∀ i, i < n → x i = y i) (k : Nat) : dft m n w x k = dft m n w y k :=
  Finset.sum_congr rfl fun i hi => by rw [h i (Finset.mem_range.mp hi)]

/-- Element `k` of the cyclic convolution of `x` and `y` of length `n`. -/
def cyclicConvolution (m n : Nat) (x y : Nat → ZMod m) (k : Nat) : ZMod m := ∑ i ∈ Finset.range n, x i * y ((k + n - i) % n)

/-- The convolution theorem in these terms. -/
theorem dft_cyclicConvolution {m n w : Nat} (ho : HasOrder m n w) (x y : Nat → ZMod m) (k : Nat) :
    dft m n w (cyclicConvolution m n x y) k = dft m n w x k * dft m n w y k :=
  convolution_sum ((pow_mod_eq_one_iff m w n).mp ho.1) x y k

/-- The transform with the inverted root undoes the transform up to the factor `n`. -/
theorem dft_dft_inverse {m n w v : Nat} (hpr : m.Prime) (ho : HasOrder m n w) (h : IsInverse m w v) (x : Nat → ZMod m) {k : Nat}
    (hk : k < n) : dft m n v (dft m n w x) k = n * x k :=
  have := Fact.mk hpr
  inverse_sum h.cast_mul_eq_one ((pow_mod_eq_one_iff m w n).mp ho.1)
    (fun j hj hjn => mt (pow_mod_eq_one_iff m w j).mpr (ho.2 j hj hjn)) x hk

/-! ## States ready for a transform with a root of the order of the length -/

/-- What the claims about the Fourier transform assume of the numbers: a prime modulus `m`, a power-of-two length `n` of at least 2,
and a root `w` of order `n`. -/
structure FourierRoot (m n w : Nat) : Prop where
  prime : m.Prime
  powerOfTwo : PowerOfTwo n
  two_le : 2 ≤ n
  order : HasOrder m n w

/-- The state has modulus `m`, and in bank `bk` and register `e[a]` a sequence of length `n` and the root `w`. -/
structure ReadyFor (m n w : Nat) (bk : BankSel) (a : RegNo) (s : State) : Prop where
  inv : s.Inv
  mod_eq : s.mod = m
  len_eq : s.len bk = n
  root_eq : s.getE a = w

section
variable {m n w : Nat} (hf : FourierRoot m n w)
include hf

theorem FourierRoot.not_rootOrderWrong : ¬ RootOrderWrong m n w :=
  (not_rootOrderWrong_iff hf.prime.two_le hf.powerOfTwo hf.two_le).mpr hf.order

theorem FourierRoot.of_isInverse {v : Nat} (h : IsInverse m w v) : FourierRoot m n v :=
  ⟨hf.prime, hf.powerOfTwo, hf.two_le, hf.order.of_isInverse h⟩

theorem FourierRoot.isInverse : IsInverse m w (w ^ (n - 1) % m) :=
  isInverse_of_pow_mod_eq_one hf.prime.pos hf.powerOfTwo.pos hf.order.1

/-- The length is invertible, since it lies below the prime modulus. -/
theorem FourierRoot.isInverse_length : IsInverse m (n % m) (finv m (n % m)) := by
  have hlt := hf.order.lt_of_prime hf.prime hf.powerOfTwo.pos
  refine isInverse_finv (Nat.mod_lt _ hf.prime.pos) ?_
  rw [Nat.mod_eq_of_lt hlt]
  exact Nat.Coprime.symm (Nat.coprime_of_lt_prime hf.powerOfTwo.pos.ne' hlt hf.prime)

end

section
variable {m n w : Nat} {bk : BankSel} {a : RegNo} {s t : State}

/-- A transform keeps a state ready for the next one. -/
theorem ReadyFor.of_exec (h : ReadyFor m n w bk a s) {i : Instr} (hi : i.wellFormed = true) (he : exec i s = .next t)
    (honly : OnlySlots bk s t) : ReadyFor m n w bk a t := by
  obtain ⟨-, -, helem, hmod, hlen, -⟩ := honly
  exact ⟨exec_keeps_inv h.inv hi he, hmod.trans h.mod_eq, (hlen bk).trans h.len_eq, (helem a).trans h.root_eq⟩

/-- For a root of the order of the length the network computes the Fourier transform. -/
theorem networkAt_cast_eq_dft {q : Nat} (hf : FourierRoot m (s.len bk) w) (hl : s.len bk = 2 ^ q) {k : Nat} (hk : k < s.len bk) :
    ((networkAt m w q (s.seq bk) q k : Nat) : ZMod m) = dft m (s.len bk) w (fun i => (s.seqRead bk i : ZMod m)) k := by
  have hhalf : 1 ≤ q → (w : ZMod m) ^ 2 ^ (q - 1) = -1 := fun hq => by
    rw [← two_pow_half hq, ← hl]
    exact hf.order.half hf.prime hf.powerOfTwo hf.two_le
  rw [networkAt_eq_sum hf.prime.two_le hhalf (hl ▸ hk), ← hl]
  exact dft_congr w (fun i hi => by rw [s.seq_getD bk hi]) k

variable (hf : FourierRoot m n w) (h : ReadyFor m n w bk a s)
include hf h

/-- A forward command leaves the Fourier transform of the slots (R199). -/
theorem exec_forwardInstr_dft (b v : Bool) : ∃ t, exec (forwardInstr b v bk a) s = .next t ∧ OnlySlots bk s t ∧
    ∀ k, k < n → t.seqRead bk k < m ∧ (t.seqRead bk k : ZMod m) = dft m n w (fun i => (s.seqRead bk i : ZMod m)) k := by
  obtain ⟨hinv, rfl, rfl, rfl⟩ := h
  obtain ⟨q, hl⟩ := hf.powerOfTwo
  obtain ⟨t, ht, honly, hslot⟩ := exec_forwardInstr_spec (v := v) b hinv hl fun _ => hf.not_rootOrderWrong
  refine ⟨t, ht, honly, fun k hk => ?_⟩
  rw [hslot k hk]
  exact ⟨networkAt_seq_lt hinv hl _ k, networkAt_cast_eq_dft hf hl hk⟩

/-- An inverse command on the Fourier transform of `x` leaves `x` (R201). -/
theorem exec_inverseInstr_dft (b v : Bool) {x : Nat → ZMod m} (hx : ∀ k, k < n → (s.seqRead bk k : ZMod m) = dft m n w x k) :
    ∃ t, exec (inverseInstr b v bk a) s = .next t ∧ OnlySlots bk s t ∧
      ∀ k, k < n → t.seqRead bk k < m ∧ (t.seqRead bk k : ZMod m) = x k := by
  obtain ⟨hinv, rfl, rfl, rfl⟩ := h
  obtain ⟨q, hl⟩ := hf.powerOfTwo
  have hwi := hf.isInverse
  have hni := hf.isInverse_length
  have hf' := hf.of_isInverse hwi
  have hscale := hni.cast_mul_eq_one
  rw [ZMod.natCast_mod] at hscale
  obtain ⟨t, ht, honly, hslot⟩ := exec_inverseInstr_spec (v := v) b hinv hl hwi hni fun _ => hf'.not_rootOrderWrong
  refine ⟨t, ht, honly, fun k hk => ?_⟩
  rw [hslot k hk]
  refine ⟨Nat.mod_lt _ hinv.mod_pos, ?_⟩
  rw [ZMod.natCast_mod, Nat.cast_mul, networkAt_cast_eq_dft hf' hl hk, dft_congr _ hx,
    dft_dft_inverse hf.prime hf.order hwi x hk, mul_right_comm, hscale, one_mul]

end

end Sys2Proof.Machine

open Sys2Proof Sys2Proof.Machine

/-- Settles O50: a reduced slot is determined by its class, which is that of the sum (`exec_forwardInstr_dft`). -/
theorem forwardTransformIsTheFourierTransform : Obligations.ForwardTransformIsTheFourierTransform := by
  intro s b v bk a hinv hpr hp h2 ho
  obtain ⟨t, ht, -, hslot⟩ := exec_forwardInstr_dft ⟨hpr, hp, h2, ho⟩ ⟨hinv, rfl, rfl, rfl⟩ b v
  refine ⟨t, ht, fun k hk => ?_⟩
  obtain ⟨hlt, hcast⟩ := hslot k hk
  refine eq_mod_of_cast_eq hlt (hcast.trans ?_)
  push_cast
  rfl

/-- Settles O53: the inverse command undoes the Fourier transform of the old slots, and no slot above the length changes. -/
theorem roundTripRestoresTheSequence : Obligations.RoundTripRestoresTheSequence := by
  intro s b c v w bk a hinv hpr hp h2 ho
  have hf : FourierRoot s.mod (s.len bk) (s.getE a) := ⟨hpr, hp, h2, ho⟩
  have hready : ReadyFor s.mod (s.len bk) (s.getE a) bk a s := ⟨hinv, rfl, rfl, rfl⟩
  obtain ⟨t, ht, honly, hforward⟩ := exec_forwardInstr_dft hf hready b v
  obtain ⟨u, hu, honly', hinverse⟩ :=
    exec_inverseInstr_dft hf (hready.of_exec (wellFormed_forwardInstr b v bk a) ht honly) c w fun k hk => (hforward k hk).2
  obtain ⟨-, -, -, -, -, habove, herror, -⟩ := honly.trans honly'
  refine ⟨t, u, ht, hu, fun k => ?_, herror⟩
  by_cases hk : k < s.len bk
  · obtain ⟨hlt, hcast⟩ := hinverse k hk
    rw [eq_mod_of_cast_eq hlt hcast, Nat.mod_eq_of_lt (hinv.slot_lt bk k hk)]
  · exact habove bk k (.inr (Nat.not_lt.mp hk))

/-- Settles O54: the slots of `sz` are the Fourier transform of the cyclic convolution, which the inverse command undoes. -/
theorem pointwiseProductGivesCyclicConvolution : Obligations.PointwiseProductGivesCyclicConvolution := by
  intro sx sy sz tx ty b c d v w z bk a hix hiy hiz hpr hmy hmz hp h2 hly hlz ho hey hez hx hy hprod
  have hf : FourierRoot sx.mod (sx.len bk) (sx.getE a) := ⟨hpr, hp, h2, ho⟩
  obtain ⟨tx', hx', -, hslotx⟩ := exec_forwardInstr_dft hf ⟨hix, rfl, rfl, rfl⟩ b v
  cases hx.symm.trans hx'
  obtain ⟨ty', hy', -, hsloty⟩ := exec_forwardInstr_dft hf ⟨hiy, hmy, hly, hey⟩ c w
  cases hy.symm.trans hy'
  have hconv : ∀ k, k < sx.len bk → (sz.seqRead bk k : ZMod sx.mod) = dft sx.mod (sx.len bk) (sx.getE a)
      (cyclicConvolution sx.mod (sx.len bk) (fun i => (sx.seqRead bk i : ZMod sx.mod)) fun i => (sy.seqRead bk i : ZMod sx.mod)) k := by
    intro k hk
    rw [dft_cyclicConvolution ho, hprod k hk, ZMod.natCast_mod, Nat.cast_mul, (hslotx k hk).2, (hsloty k hk).2]
  obtain ⟨u, hu, -, hslot⟩ := exec_inverseInstr_dft hf ⟨hiz, hmz, hlz, hez⟩ d z hconv
  refine ⟨u, hu, fun k hk => ?_⟩
  obtain ⟨hlt, hcast⟩ := hslot k hk
  refine eq_mod_of_cast_eq hlt (hcast.trans ?_)
  rw [cyclicConvolution]
  push_cast
  rfl

end

section
/-! PROOFS. Exceptions (60_exceptions.md): the codes as ERR shows them (R215); what Issue does with a word (R217, R219); the two forms of
a fault entry and what they leave unchanged (R218, R221); that no draw decides about one (R224). -/

namespace Sys2Proof.Machine

/-! ## ERR as the host sees it (R29, R31) -/

section
variable (s : State)

theorem State.errReg_toNat : s.errReg.toNat = s.err.toNat := BitVec.toNat_setWidth_of_le (by decide)

theorem State.errReg_eq_zero_iff : s.errReg = 0 ↔ s.err = 0 := by
  rw [← BitVec.toNat_inj, ← BitVec.toNat_inj, State.errReg_toNat]
  rfl

theorem State.faultO_iff : s.faultO = true ↔ s.err ≠ 0 := bne_iff_ne

theorem State.blocked_iff : s.blocked = true ↔ s.err ≠ 0 := bne_iff_ne

end

/-! ## The verdict on a word (R217, R219) -/

section
variable {s : State} {cw : CmdWord}

/-- CLRERR has one word (R219). -/
theorem isWordOf_clrerr_iff : IsWordOf cw .clrerr ↔ cw = 0x1C000000 := by
  have hword : encode .clrerr = 0x1C000000 := by decide
  exact ⟨fun h => (encode_of_decode h).symm.trans hword, fun h => isWordOf_of_encode rfl (hword.trans h.symm)⟩

theorem issueVerdict_execute {i : Instr} (hd : IsWordOf cw i) (h : s.err = 0 ∨ i = .clrerr) : issueVerdict s cw = .execute i := by
  have hpass : ¬ (s.blocked && i ≠ .clrerr) = true := by
    rw [Bool.and_eq_true, State.blocked_iff, decide_eq_true_iff]
    exact fun hno => h.elim hno.1 hno.2
  unfold IsWordOf at hd
  simp only [issueVerdict, hd, if_neg hpass]

/-- In the blocked state a word that is not CLRERR is discarded, legal or not. -/
theorem issueVerdict_discard (hs : s.err ≠ 0) (hcw : ¬ IsWordOf cw .clrerr) : issueVerdict s cw = .discard := by
  have hb : s.blocked = true := s.blocked_iff.mpr hs
  unfold issueVerdict
  split
  · next i hd =>
    have hi : i ≠ .clrerr := fun h => hcw (h ▸ hd)
    rw [if_pos (by rw [hb, decide_eq_true hi]; rfl)]
  · rw [if_pos hb]

/-! ## The step that serves an Issue (R217) -/

section
variable (hq : s.request = some (.issue cw))
include hq

theorem step_of_execute {i : Instr} {t : State} (hd : IsWordOf cw i) (h : s.err = 0 ∨ i = .clrerr) (he : exec i s = .next t) :
    step s = .next (t.answer (issueResponse t)) := by
  simp only [step, hq, issueVerdict_execute hd h, he, completeIssue]

theorem step_of_discard (hs : s.err ≠ 0) (hcw : ¬ IsWordOf cw .clrerr) : step s = .next (s.answer .blocked) := by
  simp only [step, hq, issueVerdict_discard hs hcw]

theorem step_of_refuse (hs : s.err = 0) (hill : ∀ i, ¬ IsWordOf cw i) :
    step s = .next (({ s with err := 5, einfo := cw } : State).answer (.fault 5)) := by
  simp only [step, hq, issueVerdict_illegal hs hill]
  rfl

theorem step_of_clrerr (hcw : IsWordOf cw .clrerr) : step s = .next (s.clearError.answer .done) :=
  step_of_execute hq hcw (.inr rfl) rfl

end

end

/-- While CORE is blocked, a step that ends with ERR = 0 served CLRERR or Reset. -/
theorem clrerr_or_reset_of_step {s t : State} (hs : s.err ≠ 0) (h : step s = .next t) (ht : t.err = 0) :
    s.request = some (.issue 0x1C000000) ∨ s.request = some .reset := by
  cases hq : s.request with
  | none =>
    simp only [step, hq] at h
    cases h
    exact absurd ht hs
  | some q =>
    cases q with
    | reset => exact .inr rfl
    | read sel =>
      cases (step_of_request_read hq).symm.trans h
      exact absurd ht hs
    | issue cw =>
      by_cases hcw : IsWordOf cw .clrerr
      · exact .inl (isWordOf_clrerr_iff.mp hcw ▸ rfl)
      · cases (step_of_discard hq hs hcw).symm.trans h
        exact absurd ht hs

/-! ## The two forms of a fault entry (R218, R221) -/

/-- Spoiling changes nothing but slots below LEN (R202). -/
theorem onlySlots_spoil (s : State) (bk : BankSel) : OnlySlots bk s (s.spoil bk) := by
  obtain ⟨hinst, hr, he, hmod, hlen, hslot, herr, hhost⟩ :=
    onlySlots_putSeq s bk (xs := (List.range (s.len bk)).map s.drawnElem) (by simp)
  rw [State.spoil_eq]
  exact ⟨hinst, hr, he, hmod, fun b => by simp, fun b k hk => by rw [State.seqRead_useDraws, hslot b k hk], herr, hhost⟩

section
variable {i : Instr} {s t : State} (hs : s.err = 0) (he : exec i s = .next t) (ht : t.err ≠ 0)
include hs he ht

/-- From ERR = 0, a command ends with ERR nonzero only by a fault entry: every other form of its next state keeps ERR. -/
theorem exec_fault_form : ∃ x : ErrorKind,
    (spoiledBank i = none ∧ t = { s with err := x.code, einfo := encode i }) ∨
    ∃ bk, spoiledBank i = some bk ∧ t = { s.spoil bk with err := x.code, einfo := encode i } := by
  cases exec_form he with
  | raises x hi => exact ⟨x, .inl ⟨hi, rfl⟩⟩
  | spoils x bk hi => exact ⟨x, .inr ⟨bk, hi, rfl⟩⟩
  | clears hi => exact absurd s.clearError_err ht
  | _ => exact absurd (by simpa using hs) ht

/-- EINFO identifies the command (R218). -/
theorem exec_einfo_of_fault : t.einfo = encode i := by
  obtain ⟨x, ⟨-, rfl⟩ | ⟨bk, -, rfl⟩⟩ := exec_fault_form hs he ht <;> rfl

end

/-! ## Equal errors whatever was drawn (R224) -/

/-- Both outcomes are next states with the same ERR and EINFO. -/
def SameErrorOutcome (o o' : Host.Outcome State Fault Refusal) : Prop :=
  ∃ t u, o = .next t ∧ o' = .next u ∧ SameError t u

theorem sameErrorOutcome_ite {c : Prop} [Decidable c] {x x' y y' : Host.Outcome State Fault Refusal} (hx : SameErrorOutcome x x')
    (hy : SameErrorOutcome y y') : SameErrorOutcome (if c then x else y) (if c then x' else y') := by
  split <;> assumption

/-- The state with another number of draws used up. -/
def State.withDraws (s : State) (n : Nat) : State := { s with draws := n }

section
variable (s : State) (n : Nat)

@[simp] theorem State.withDraws_pp : (s.withDraws n).pp = s.pp := rfl
@[simp] theorem State.withDraws_mod : (s.withDraws n).mod = s.mod := rfl
@[simp] theorem State.getE_withDraws (a : RegNo) : (s.withDraws n).getE a = s.getE a := rfl
@[simp] theorem State.len_withDraws (bk : BankSel) : (s.withDraws n).len bk = s.len bk := by cases bk <;> rfl
@[simp] theorem State.seq_withDraws (bk : BankSel) : (s.withDraws n).seq bk = s.seq bk := by cases bk <;> rfl

theorem sameErrorOutcome_raise (x : ErrorKind) (cw : CmdWord) : SameErrorOutcome (raise x cw s) (raise x cw (s.withDraws n)) :=
  ⟨_, _, rfl, rfl, rfl, rfl⟩

theorem sameErrorOutcome_raiseSpoiled (x : ErrorKind) (bk : BankSel) (cw : CmdWord) :
    SameErrorOutcome (raiseSpoiled x bk cw s) (raiseSpoiled x bk cw (s.withDraws n)) := ⟨_, _, rfl, rfl, rfl, rfl⟩

theorem sameErrorOutcome_putSeq (bk : BankSel) (xs : List Nat) :
    SameErrorOutcome (.next (s.putSeq bk xs)) (.next ((s.withDraws n).putSeq bk xs)) :=
  ⟨_, _, rfl, rfl, by simp [SameError, State.withDraws]⟩

section
variable (net : Nat → Nat → List Nat → List Nat) (v : Bool) (bk : BankSel) (w : Nat) (cw : CmdWord)

theorem sameErrorOutcome_forwardCommand :
    SameErrorOutcome (forwardCommand net v bk w cw s) (forwardCommand net v bk w cw (s.withDraws n)) := by
  simp only [forwardCommand, State.withDraws_mod, State.len_withDraws, State.seq_withDraws]
  exact sameErrorOutcome_ite (sameErrorOutcome_raiseSpoiled ..) <|
    sameErrorOutcome_ite (sameErrorOutcome_raiseSpoiled ..) (sameErrorOutcome_putSeq ..)

theorem sameErrorOutcome_inverseCommand :
    SameErrorOutcome (inverseCommand net v bk w cw s) (inverseCommand net v bk w cw (s.withDraws n)) := by
  simp only [inverseCommand, State.withDraws_mod, State.len_withDraws, State.seq_withDraws]
  exact sameErrorOutcome_ite (sameErrorOutcome_raiseSpoiled ..) <| sameErrorOutcome_ite (sameErrorOutcome_raiseSpoiled ..) <|
    sameErrorOutcome_ite (sameErrorOutcome_raiseSpoiled ..) <|
      sameErrorOutcome_ite (sameErrorOutcome_raiseSpoiled ..) (sameErrorOutcome_putSeq ..)

end

/-- No test of a command looks at the draws. -/
theorem exec_sameErrorOutcome_withDraws (i : Instr) : SameErrorOutcome (exec i s) (exec i (s.withDraws n)) := by
  cases i with
  | ldi | ldis | getmod | clrerr | fromint | toint | add | sub | neg | mul | pow | eq | ne | is2pow | seqlen =>
    exact ⟨_, _, rfl, rfl, rfl, rfl⟩
  | setmod | inv | invC | ceillg | bfly =>
    exact sameErrorOutcome_ite ⟨_, _, rfl, rfl, rfl, rfl⟩ ⟨_, _, rfl, rfl, rfl, rfl⟩
  | root | div | bitrev =>
    exact sameErrorOutcome_ite ⟨_, _, rfl, rfl, rfl, rfl⟩ <|
      sameErrorOutcome_ite ⟨_, _, rfl, rfl, rfl, rfl⟩ ⟨_, _, rfl, rfl, rfl, rfl⟩
  | seqnew bk | seqld bk | seqst bk | permute bk =>
    cases bk <;> exact sameErrorOutcome_ite ⟨_, _, rfl, rfl, rfl, rfl⟩ ⟨_, _, rfl, rfl, rfl, rfl⟩
  | rdpp d sel =>
    simp only [exec, execRdpp, State.withDraws_pp]
    split <;> exact ⟨_, _, rfl, rfl, rfl, rfl⟩
  | check bk a =>
    simp only [exec, execCheck, State.withDraws_mod, State.len_withDraws, State.getE_withDraws]
    split
    · exact sameErrorOutcome_raise ..
    · exact ⟨_, _, rfl, rfl, rfl, rfl⟩
  | ntta | nttb => exact sameErrorOutcome_forwardCommand ..
  | intta | inttb => exact sameErrorOutcome_inverseCommand ..

end

end Sys2Proof.Machine

open Sys2Proof Sys2Proof.Machine

/-- Settles O5: the verdict is to execute the command, whose answer is recorded. -/
theorem stepExecutesTheDecodedCommand : Obligations.StepExecutesTheDecodedCommand :=
  fun _ _ _ _ hq hd h => step_of_execute hq hd h

/-- Settles O6, by the three verdicts; EINFO after a fault is the encoding of the command, which is the issued word. -/
theorem issueBehavesAsTheRuleSays : Obligations.IssueBehavesAsTheRuleSays := by
  intro s cw hq
  refine ⟨fun _ => step_of_clrerr hq, step_of_discard hq, step_of_refuse hq, fun i hs hcw => ?_⟩
  obtain ⟨t, ht⟩ := exec_answersNext i s
  obtain ⟨-, hpos, -⟩ := exec_sameHost ht
  refine ⟨t, ht, fun hf => (exec_einfo_of_fault hs ht hf).trans (encode_of_decode hcw), ?_⟩
  rw [step_of_execute hq hcw (.inl hs) ht, ← hpos]
  rfl

/-- Settles O7: a word that is not CLRERR is discarded, and neither that nor HostRead nor an idle step writes ERR. -/
theorem blockedUntilClearedOrReset : Obligations.BlockedUntilClearedOrReset := by
  intro s hs
  refine ⟨fun cw hq hcw => ?_, fun sel hq => ⟨_, _, step_of_request_read hq⟩, fun hq => ?_, fun t => clrerr_or_reset_of_step hs⟩
  · exact step_of_discard hq hs (mt isWordOf_clrerr_iff.mp hcw)
  · exact ⟨_, step_of_clrerr hq (isWordOf_clrerr_iff.mpr rfl), rfl, rfl⟩

/-- Settles O10: the codes are those of R215, and ERR is held in three bits. -/
theorem errorRegisterShowsTheCodes : Obligations.ErrorRegisterShowsTheCodes := by
  refine ⟨fun s cw => ?_, fun s => ⟨?_, ?_⟩⟩
  · exact ⟨fun x => { s with err := x.code, einfo := cw }, fun _ => rfl, rfl, rfl, rfl, rfl, rfl, rfl, rfl⟩
  · rw [s.errReg_toNat]
    exact s.err.isLt
  · rw [s.faultO_iff, ne_eq, ne_eq, s.errReg_eq_zero_iff]

/-- Settles O17, by the two forms of a fault entry. -/
theorem faultLeavesOnlyErrorAndSpoiledSlots : Obligations.FaultLeavesOnlyErrorAndSpoiledSlots := by
  intro i s t hs he ht
  have hinfo := exec_einfo_of_fault hs he ht
  have hinst := exec_sameInstance he
  have hhost := exec_sameHost he
  obtain ⟨x, ⟨hi, rfl⟩ | ⟨bk, hi, rfl⟩⟩ := exec_fault_form hs he ht
  · refine ⟨hinfo, hinst, fun _ => rfl, fun _ => rfl, rfl, s.len_withError _ _, hhost, fun _ b => ?_, fun bk hbk => ?_⟩
    · exact ⟨s.len_withError _ _ b, s.seqRead_withError _ _ b⟩
    · cases hi.symm.trans hbk
  · obtain ⟨-, hr, helem, hmod, hlen, hslot, -⟩ := onlySlots_spoil s bk
    refine ⟨hinfo, hinst, hr, helem, hmod, fun b => ?_, hhost, fun hnone => ?_, fun bk' hbk b k hk => ?_⟩
    · exact ((s.spoil bk).len_withError _ _ b).trans (hlen b)
    · cases hi.symm.trans hnone
    · cases hi.symm.trans hbk
      exact ((s.spoil bk).seqRead_withError _ _ b k).trans (hslot b k hk)

/-- Settles O21: with other draws every test of a command comes out the same. -/
theorem drawsNeverDecideAFault : Obligations.DrawsNeverDecideAFault := by
  intro i s t u n ht hu
  obtain ⟨t', u', ht', hu', hsame⟩ := exec_sameErrorOutcome_withDraws s n i
  cases ht.symm.trans ht'
  cases hu.symm.trans hu'
  exact hsame

end

section
/-! PROOFS. The causes of every error (60_exceptions.md R216) in the priority of R222 and R203: each command's tests, in their order, are
the rows of the table. -/

namespace Sys2Proof.Machine

/-! ## Which error an outcome shows -/

/-- A next state with the code of `x` in ERR. -/
def FaultsWith (x : ErrorKind) (o : Host.Outcome State Fault Refusal) : Prop := ∃ t, o = .next t ∧ t.err = x.code

/-- A next state with ERR = 0. -/
def EndsClean (o : Host.Outcome State Fault Refusal) : Prop := ∃ t, o = .next t ∧ t.err = 0

/-- A next state with the code of `x` in ERR exactly if `P x`, and ERR = 0 exactly if `P` names no error. -/
def ShowsExactly (P : ErrorKind → Prop) (o : Host.Outcome State Fault Refusal) : Prop :=
  ∃ t, o = .next t ∧ (∀ x : ErrorKind, t.err = x.code ↔ P x) ∧ (t.err = 0 ↔ ∀ x, ¬ P x)

section
variable {P : ErrorKind → Prop} {o : Host.Outcome State Fault Refusal} {y : ErrorKind}

theorem FaultsWith.of_raise {cw : CmdWord} {s : State} (h : o = raise y cw s) : FaultsWith y o := ⟨_, h, rfl⟩

theorem FaultsWith.of_raiseSpoiled {bk : BankSel} {cw : CmdWord} {s : State} (h : o = raiseSpoiled y bk cw s) : FaultsWith y o :=
  ⟨_, h, rfl⟩

theorem FaultsWith.showsExactly (h : FaultsWith y o) (hP : ∀ x, P x ↔ x = y) : ShowsExactly P o := by
  obtain ⟨t, ht, hcode⟩ := h
  refine ⟨t, ht, fun x => ?_, ?_⟩
  · rw [hP, hcode]
    exact ⟨fun he => (ErrorKind.code_injective he).symm, fun he => he ▸ rfl⟩
  · rw [hcode]
    exact iff_of_false y.code_ne_zero fun hno => hno y ((hP y).mpr rfl)

theorem EndsClean.showsExactly (h : EndsClean o) (hP : ∀ x, ¬ P x) : ShowsExactly P o := by
  obtain ⟨t, ht, hclean⟩ := h
  exact ⟨t, ht, fun x => iff_of_false (fun he => x.code_ne_zero (he.symm.trans hclean)) (hP x), iff_of_true hclean hP⟩

/-- A command with one test `C`. -/
theorem showsExactly_of_test {C : Prop} (hfault : C → FaultsWith y o) (hclean : ¬ C → EndsClean o) :
    ShowsExactly (fun x => x = y ∧ C) o := by
  by_cases hC : C
  · exact (hfault hC).showsExactly fun _ => and_iff_left hC
  · exact (hclean hC).showsExactly fun _ h => hC h.2

end

/-! ## The transform commands (R190, R199, R201, R203)

Per test, the row of the table that holds where the test decides, and how the command ends there. -/

section
variable {net : Nat → Nat → List Nat → List Nat} {s : State} {v : Bool} {bk : BankSel} {w : Nat}

theorem forwardRaises_iff_of_not_powerOfTwo (hp : ¬ PowerOfTwo (s.len bk)) (x : ErrorKind) :
    ForwardRaises v bk w s x ↔ x = .invalidLength := by simp [ForwardRaises, hp]

theorem forwardRaises_iff_of_rootOrderWrong (hp : PowerOfTwo (s.len bk)) (hw : RootOrderWrong s.mod (s.len bk) w)
    (x : ErrorKind) : ForwardRaises true bk w s x ↔ x = .invalidRootOrder := by simp [ForwardRaises, hp, hw]

theorem not_forwardRaises (hp : PowerOfTwo (s.len bk)) (hw : v = true → ¬ RootOrderWrong s.mod (s.len bk) w) (x : ErrorKind) :
    ¬ ForwardRaises v bk w s x := by
  rintro (⟨-, hno⟩ | ⟨-, -, hv, hwrong⟩)
  · exact hno hp
  · exact hw hv hwrong

section
variable (net v) (cw : CmdWord)

theorem forwardCommand_of_not_powerOfTwo (hp : ¬ PowerOfTwo (s.len bk)) :
    forwardCommand net v bk w cw s = raiseSpoiled .invalidLength bk cw s := by
  rw [forwardCommand, (is2pow_eq_false_iff _).mpr hp]
  rfl

theorem forwardCommand_of_rootOrderWrong (hm : 2 ≤ s.mod) (hp : PowerOfTwo (s.len bk)) (hw : RootOrderWrong s.mod (s.len bk) w) :
    forwardCommand net true bk w cw s = raiseSpoiled .invalidRootOrder bk cw s := by
  rw [forwardCommand, (is2pow_iff _).mpr hp, (rootOrderFails_iff hm _ _).mpr hw]
  rfl

theorem forwardCommand_showsExactly (hm : 2 ≤ s.mod) (hs : s.err = 0) :
    ShowsExactly (ForwardRaises v bk w s) (forwardCommand net v bk w cw s) := by
  by_cases hp : PowerOfTwo (s.len bk)
  · by_cases hw : v = true ∧ RootOrderWrong s.mod (s.len bk) w
    · obtain ⟨rfl, hw⟩ := hw
      exact (FaultsWith.of_raiseSpoiled (forwardCommand_of_rootOrderWrong net cw hm hp hw)).showsExactly
        (forwardRaises_iff_of_rootOrderWrong hp hw)
    · exact EndsClean.showsExactly ⟨_, forwardCommand_eq cw hm hp (not_and.mp hw), by simpa using hs⟩
        (not_forwardRaises hp (not_and.mp hw))
  · exact (FaultsWith.of_raiseSpoiled (forwardCommand_of_not_powerOfTwo net v cw hp)).showsExactly (forwardRaises_iff_of_not_powerOfTwo hp)

end

/-- CHECK makes the tests of a forward transform with V set (R191). -/
theorem exec_check_showsExactly {a : RegNo} (hm : 2 ≤ s.mod) (hs : s.err = 0) :
    ShowsExactly (ForwardRaises true bk (s.getE a) s) (exec (.check bk a) s) := by
  by_cases hp : PowerOfTwo (s.len bk)
  · by_cases hw : RootOrderWrong s.mod (s.len bk) (s.getE a)
    · exact (FaultsWith.of_raise (exec_check_of_some (checkParameters_of_rootOrderWrong hm hp hw))).showsExactly
        (forwardRaises_iff_of_rootOrderWrong hp hw)
    · exact EndsClean.showsExactly ⟨_, exec_check_of_none (checkParameters_of_rootOrder hm hp hw), hs⟩
        (not_forwardRaises hp fun _ => hw)
  · exact (FaultsWith.of_raise (exec_check_of_some (checkParameters_of_not_powerOfTwo hp))).showsExactly
      (forwardRaises_iff_of_not_powerOfTwo hp)

theorem inverseRaises_iff_of_not_coprime (hg : Nat.gcd w s.mod ≠ 1) (x : ErrorKind) :
    InverseRaises v bk w s x ↔ x = .nonInvertible := by simp [InverseRaises, hg]

section
variable {winv : Nat} (hg : Nat.gcd w s.mod = 1)
include hg

theorem inverseRaises_iff_of_not_powerOfTwo (hp : ¬ PowerOfTwo (s.len bk)) (x : ErrorKind) :
    InverseRaises v bk w s x ↔ x = .invalidLength := by simp [InverseRaises, hg, hp]

variable (hp : PowerOfTwo (s.len bk)) (hwi : IsInverse s.mod w winv)
include hp hwi

/-- The inverse of the root is the only one, so that the table's root-order test is one of `winv`. -/
theorem inverseRaises_iff (x : ErrorKind) : InverseRaises v bk w s x ↔
    (x = .invalidRootOrder ∧ v = true ∧ RootOrderWrong s.mod (s.len bk) winv) ∨
    (¬ (v = true ∧ RootOrderWrong s.mod (s.len bk) winv) ∧ x = .nonInvertible ∧ Nat.gcd (s.len bk % s.mod) s.mod ≠ 1) := by
  have hthe : ∀ Q : Nat → Prop, (∃ u, IsInverse s.mod w u ∧ Q u) ↔ Q winv :=
    fun Q => ⟨fun ⟨u, hu, hQ⟩ => hu.unique hwi ▸ hQ, fun hQ => ⟨winv, hwi, hQ⟩⟩
  simp only [InverseRaises, hg, hp, hthe, ne_eq, not_true_eq_false, and_false, false_or, true_and, not_and]

end

section
variable (net v) (cw : CmdWord) (hw : w < s.mod)
include hw

theorem inverseCommand_of_not_coprime (hg : Nat.gcd w s.mod ≠ 1) :
    inverseCommand net v bk w cw s = raiseSpoiled .nonInvertible bk cw s := by
  rw [inverseCommand, Bool.eq_false_iff.mpr (mt (invertible_iff hw).mp hg)]
  rfl

variable (hg : Nat.gcd w s.mod = 1)
include hg

theorem inverseCommand_of_not_powerOfTwo (hp : ¬ PowerOfTwo (s.len bk)) :
    inverseCommand net v bk w cw s = raiseSpoiled .invalidLength bk cw s := by
  rw [inverseCommand, (invertible_iff hw).mpr hg, (is2pow_eq_false_iff _).mpr hp]
  rfl

variable (hm : 2 ≤ s.mod) (hp : PowerOfTwo (s.len bk))
include hm hp

theorem inverseCommand_of_rootOrderWrong (hwrong : RootOrderWrong s.mod (s.len bk) (finv s.mod w)) :
    inverseCommand net true bk w cw s = raiseSpoiled .invalidRootOrder bk cw s := by
  rw [inverseCommand, (invertible_iff hw).mpr hg, (is2pow_iff _).mpr hp, (rootOrderFails_iff hm _ _).mpr hwrong]
  rfl

theorem inverseCommand_of_length_not_coprime (hv : v = true → ¬ RootOrderWrong s.mod (s.len bk) (finv s.mod w))
    (hgn : Nat.gcd (s.len bk % s.mod) s.mod ≠ 1) : inverseCommand net v bk w cw s = raiseSpoiled .nonInvertible bk cw s := by
  have hn : invertible s.mod (fromInteger s.mod (s.len bk)) = false :=
    Bool.eq_false_iff.mpr (mt (invertible_iff (Nat.mod_lt _ (by omega))).mp hgn)
  rw [inverseCommand, (invertible_iff hw).mpr hg, (is2pow_iff _).mpr hp, flag_and_false hm hv, hn]
  rfl

end

theorem inverseCommand_showsExactly (net : Nat → Nat → List Nat → List Nat) (v : Bool) (cw : CmdWord) (hm : 2 ≤ s.mod)
    (hw : w < s.mod) (hs : s.err = 0) : ShowsExactly (InverseRaises v bk w s) (inverseCommand net v bk w cw s) := by
  by_cases hg : Nat.gcd w s.mod = 1
  · by_cases hp : PowerOfTwo (s.len bk)
    · have hwi := isInverse_finv hw hg
      have htable := inverseRaises_iff (v := v) hg hp hwi
      by_cases hwrong : v = true ∧ RootOrderWrong s.mod (s.len bk) (finv s.mod w)
      · obtain ⟨rfl, hwrong⟩ := hwrong
        exact (FaultsWith.of_raiseSpoiled (inverseCommand_of_rootOrderWrong net cw hw hg hm hp hwrong)).showsExactly fun x => by
          simp [htable, hwrong]
      · have hv := not_and.mp hwrong
        by_cases hgn : Nat.gcd (s.len bk % s.mod) s.mod = 1
        · have hni := isInverse_finv (Nat.mod_lt _ (by omega)) hgn
          exact EndsClean.showsExactly ⟨_, inverseCommand_eq cw hm hw hp hwi hni hv, by simpa using hs⟩ fun x => by
            simp [htable, hwrong, hgn]
        · exact (FaultsWith.of_raiseSpoiled (inverseCommand_of_length_not_coprime net v cw hw hg hm hp hv hgn)).showsExactly fun x => by
            simp [htable, hwrong, hgn]
    · exact (FaultsWith.of_raiseSpoiled (inverseCommand_of_not_powerOfTwo net v cw hw hg hp)).showsExactly
        (inverseRaises_iff_of_not_powerOfTwo hg hp)
  · exact (FaultsWith.of_raiseSpoiled (inverseCommand_of_not_coprime net v cw hw hg)).showsExactly (inverseRaises_iff_of_not_coprime hg)

end

/-! ## Every command (R216) -/

/-- ROOT tests the modulus before the length (R222). -/
theorem exec_root_showsExactly {s : State} (hs : s.err = 0) (d a : RegNo) :
    ShowsExactly (Raises (.root d a) s) (exec (.root d a) s) := by
  by_cases hm : s.mod = s.pp.p
  · by_cases hl : ¬ PowerOfTwo (s.getR a) ∨ 2 ^ s.pp.n < s.getR a
    · exact (FaultsWith.of_raise (exec_root_of_bad_length hm hl)).showsExactly fun x => by simp [Raises, hm, hl]
    · obtain ⟨hp, hle⟩ := not_or.mp hl
      exact EndsClean.showsExactly ⟨_, exec_root_of_length hm (not_not.mp hp) (not_lt.mp hle), hs⟩ fun x => by
        simp [Raises, hm, hl]
  · exact (FaultsWith.of_raise (exec_root_of_mod_ne hm)).showsExactly fun x => by simp [Raises, hm]

theorem exec_div_showsExactly {s : State} (h : s.Inv) (hs : s.err = 0) (c : Bool) (d a b : RegNo) :
    ShowsExactly (Raises (.div c d a b) s) (exec (.div c d a b) s) := by
  refine showsExactly_of_test (fun ⟨hc, hg⟩ => ?_) fun hno => ?_
  · exact .of_raise ((exec_div_of_not_coprime h d hg c a).trans (if_pos hc))
  · by_cases hg : Nat.gcd (s.getE b) s.mod = 1
    · exact ⟨_, exec_div_of_coprime h d hg c a, hs⟩
    · exact ⟨_, (exec_div_of_not_coprime h d hg c a).trans (if_neg fun hc => hno ⟨hc, hg⟩), hs⟩

theorem exec_bitrev_showsExactly {s : State} (hs : s.err = 0) (d a b : RegNo) :
    ShowsExactly (Raises (.bitrev d a b) s) (exec (.bitrev d a b) s) := by
  refine showsExactly_of_test (fun hgt => .of_raise (exec_bitrev_of_gt d hgt)) fun hle => ?_
  rcases Nat.lt_or_ge (s.getR a) (2 ^ s.getR b) with ha | ha
  · exact ⟨_, exec_bitrev_of_lt d (not_lt.mp hle) ha, hs⟩
  · exact ⟨_, exec_bitrev_of_ge d (not_lt.mp hle) ha, hs⟩

theorem exec_rdpp_showsExactly {s : State} (hs : s.err = 0) (d : RegNo) (sel : Nat) :
    ShowsExactly (Raises (.rdpp d sel) s) (exec (.rdpp d sel) s) :=
  showsExactly_of_test (fun hgt => .of_raise (exec_rdpp_of_gt d hgt))
    fun hle => ⟨_, exec_rdpp_of_some d (List.getElem?_eq_getElem (Nat.lt_succ_of_le (not_lt.mp hle))), hs⟩

/-- A command shows the error the table names, and none where it names none. -/
theorem exec_showsExactly {s : State} (h : s.Inv) (hs : s.err = 0) (i : Instr) : ShowsExactly (Raises i s) (exec i s) := by
  have hm := h.mod_ge
  cases i with
  | ldi | ldis | getmod | fromint | toint | add | sub | neg | mul | pow | eq | ne | is2pow | seqlen =>
    exact EndsClean.showsExactly ⟨_, rfl, hs⟩ fun _ => id
  | clrerr => exact EndsClean.showsExactly ⟨_, rfl, s.clearError_err⟩ fun _ => id
  | inv d a =>
    refine EndsClean.showsExactly ?_ fun _ => id
    by_cases hg : Nat.gcd (s.getE a) s.mod = 1
    · exact ⟨_, (exec_inv_of_coprime h d hg).trans (exec_invC_of_coprime h d hg), hs⟩
    · exact ⟨_, exec_inv_of_not_coprime h d hg, hs⟩
  | setmod a =>
    exact showsExactly_of_test (fun hlt => .of_raise (exec_setmod_of_lt hlt)) fun hge => ⟨_, exec_setmod_of_ge (not_lt.mp hge), hs⟩
  | rdpp d sel => exact exec_rdpp_showsExactly hs d sel
  | root d a => exact exec_root_showsExactly hs d a
  | div c d a b => exact exec_div_showsExactly h hs c d a b
  | invC d a =>
    exact showsExactly_of_test (fun hg => .of_raise (exec_invC_of_not_coprime h d hg))
      fun hg => ⟨_, exec_invC_of_coprime h d (not_not.mp hg), hs⟩
  | bitrev d a b => exact exec_bitrev_showsExactly hs d a b
  | ceillg d a =>
    exact showsExactly_of_test (fun hz => .of_raise (exec_ceillg_of_eq_zero d hz)) fun hnz => ⟨_, exec_ceillg_of_ne_zero d hnz, hs⟩
  | seqnew bk a =>
    exact showsExactly_of_test (fun hgt => .of_raise (exec_seqnew_of_gt bk hgt))
      fun hle => ⟨_, exec_seqnew_of_le bk (not_lt.mp hle), by simpa using hs⟩
  | seqld bk d a =>
    exact showsExactly_of_test (fun hge => .of_raise (exec_seqld_of_ge d hge)) fun hlt => ⟨_, exec_seqld_of_lt d (not_le.mp hlt), hs⟩
  | seqst bk a b =>
    exact showsExactly_of_test (fun hge => .of_raise (exec_seqst_of_ge a hge))
      fun hlt => ⟨_, exec_seqst_of_lt a (not_le.mp hlt), by simpa using hs⟩
  | bfly d a b =>
    exact showsExactly_of_test (fun heq => .of_raise (exec_bfly_of_eq s b heq)) fun hne => ⟨_, exec_bfly_of_ne s b hne, hs⟩
  | permute bk =>
    exact showsExactly_of_test (fun hp => .of_raiseSpoiled (exec_permute_of_not_powerOfTwo hp))
      fun hp => ⟨_, exec_permute_of_powerOfTwo (not_not.mp hp), by simpa using hs⟩
  | check bk a => exact exec_check_showsExactly hm hs
  | ntta | nttb => exact forwardCommand_showsExactly _ _ _ hm hs
  | intta v bk a | inttb v bk a => exact inverseCommand_showsExactly _ v _ hm (h.e_lt a) hs

end Sys2Proof.Machine

open Sys2Proof Sys2Proof.Machine

/-- Settles O16, command by command: the tests come in the order of the table's rows. -/
theorem commandsRaiseExactlyTheTabledErrors : Obligations.CommandsRaiseExactlyTheTabledErrors :=
  fun i _ h hs => exec_showsExactly h hs i

end

section
/-! PROOFS. Reset and hazards (70_reset_and_hazards.md): what Reset leaves in the registers (R240), and that CORE cannot hang (R246). -/

namespace Sys2Proof.Machine

variable (s : State)

/-! ## The state after Reset (R240): a register reads as in the reset state of the instance -/

@[simp] theorem hostReset_getR (i : RegNo) : (hostReset s).getR i = 0 := State.getR_resetOf s.cfg s.pp i
@[simp] theorem hostReset_getE (i : RegNo) : (hostReset s).getE i = 0 := State.getE_resetOf s.cfg s.pp i
@[simp] theorem hostReset_len (bk : BankSel) : (hostReset s).len bk = 0 := by cases bk <;> rfl
@[simp] theorem hostReset_mod : (hostReset s).mod = s.pp.p := rfl
@[simp] theorem hostReset_err : (hostReset s).err = 0 := rfl
@[simp] theorem hostReset_einfo : (hostReset s).einfo = 0 := rfl

theorem hostReset_faultO : (hostReset s).faultO = false := by simp [State.faultO]

theorem sameInstance_hostReset : SameInstance s (hostReset s) := ⟨rfl, rfl⟩

variable {s} in
theorem step_of_request_reset (h : s.request = some .reset) : step s = .next (hostReset s) := by
  simp only [step, h]

end Sys2Proof.Machine

open Sys2Proof Sys2Proof.Machine

/-- Settles O12: a step has one of the forms of `StepForm`, and each of them is a next state. -/
theorem everyStepAnswersANextState : Obligations.EveryStepAnswersANextState := by
  intro s
  obtain ⟨t, ht, _⟩ := step_form s
  exact ⟨t, ht⟩

/-- Settles O9: the step is Reset, whatever the state, and `hostReset` holds the reset value in every register. -/
theorem resetPutsEveryRegisterAtItsResetValue : Obligations.ResetPutsEveryRegisterAtItsResetValue :=
  fun s hq => ⟨hostReset s, step_of_request_reset hq, hostReset_getR s, hostReset_getE s, hostReset_mod s, hostReset_len s,
    hostReset_err s, hostReset_einfo s, hostReset_faultO s, sameInstance_hostReset s⟩

end
